-- ==== Sys2Proof/Word.lean ====
section
/-! DEFINITION. The words, bytes and four-byte fields of the block (00_scope.md section 5). -/

namespace Sys2Proof

/-- A Word: 32 bits, the width of every register and of the command word (R10, R63). -/
abbrev Word := BitVec 32

/-- A Byte: 8 bits. -/
abbrev Byte := BitVec 8

/-- The spec's `Bytes`: a finite sequence of bytes, first byte first. -/
abbrev Bytes := List Byte

/-- A byte sequence of length exactly 4, as the length, type and CRC fields of a frame are (R61): `b0` is the byte
at the lowest address, the first on the wire. -/
structure Quad where
  b0 : Byte
  b1 : Byte
  b2 : Byte
  b3 : Byte
  deriving DecidableEq, Repr

/-- The spec's `Type4`: a chunk type code, four bytes. -/
abbrev Type4 := Quad

end Sys2Proof
end

