-- ==== Sys2Proof/Syntax.lean ====
section
/-! DEFINITION. The fourteen commands of PCM command set version 1 (R66), the register names (R10), the four operations
of the host (R26) and the events that drive the block. -/

namespace Sys2Proof

/-- A command of the block, one constructor per row of spec/opcode_table.json (R66). Only CRCB has an operand in its
word (R65); every other operand comes from a register (R63). -/
inductive Instr where
  /-- TNEW: validate the type code in TYPE (R90). -/
  | tnew
  /-- TPARSE: parse a type code from text in MEM (R91). -/
  | tparse
  /-- CRCI: start a CRC (R105). -/
  | crci
  /-- CRCB imm8: feed one byte (R106). -/
  | crcb (imm8 : Byte)
  /-- CRCT: feed the four type bytes (R107). -/
  | crct
  /-- CRCM: feed bytes from MEM (R108). -/
  | crcm
  /-- CRCF: deliver the CRC (R109). -/
  | crcf
  /-- CRCG: generate the CRC of a chunk (R110). -/
  | crcg
  /-- CRCV: verify a CRC (R111). -/
  | crcv
  /-- CENC: serialize one chunk into MEM (R123). -/
  | cenc
  /-- CDEC: decode one chunk from MEM (R124). -/
  | cdec
  /-- SIGW: write the signature (R140). -/
  | sigw
  /-- SOPEN: check the signature and start a decode (R141). -/
  | sopen
  /-- SNEXT: one turn of the decode loop (R142). -/
  | snext
  deriving DecidableEq, Repr

/-- The names of the thirteen registers (R10). -/
inductive Reg where
  | cmd | status | errpos | flags | type | len | crc | src | avail | dst | cur | dptr | crcacc
  deriving DecidableEq, Repr

/-- The four operations of the host on the block, and no others (R26). A register is named by its number, so that an
operation the interface does not have (a number above 12, an address outside MEM) can be written down and refused. -/
inductive HostOp where
  /-- `HostWriteReg(n, v)`. -/
  | writeReg (n : Nat) (v : Word)
  /-- `HostReadReg(n)`. -/
  | readReg (n : Nat)
  /-- `HostWriteMem(a, b)`. -/
  | writeMem (a : Nat) (b : Byte)
  /-- `HostReadMem(a)`. -/
  | readMem (a : Nat)
  deriving DecidableEq, Repr

/-- What the outside world does to the block: a host operation (R26) or a reset (R200). A reset leaves MEM unspecified
(R27): the event carries what MEM holds afterwards, an arbitrary argument (log entry 6). -/
inductive Event where
  | host (op : HostOp)
  | reset (contents : List Host.Cell)
  deriving DecidableEq, Repr

/-- What a read gives back to the host: a register's Word or a byte of MEM (R26). -/
inductive Reply where
  | word (v : Word)
  | byte (b : Byte)
  deriving DecidableEq, Repr

end Sys2Proof
end

