-- ==== Sys2Proof/Decode.lean ====
section
/-! DEFINITION. The command word: decoder and encoder, written from the opcode table (R63 to R67), and the register
numbers (R10). -/

namespace Sys2Proof

/-- Why a word is no command (R67), by name. -/
inductive IllegalWord where
  /-- Bits 31:24 are no opcode of R66. -/
  | unlistedOpcode (op : Byte)
  /-- The opcode is listed and a bit that its format says is zero is set (R64, R65). -/
  | nonzeroField (op : Byte)
  deriving DecidableEq, Repr

/-- A row of the opcode table (R66): the word `w` selects the row whose `(w & mask) = pattern` (R63). -/
structure OpcodeRow where
  pattern : Word
  mask : Word
  build : Byte → Instr

/-- Bits 31:24, the opcode (R63). -/
def opField (w : Word) : Byte := w.extractLsb' 24 8

/-- Bits 7:0, imm8 of format I (R65). -/
def immField (w : Word) : Byte := w.extractLsb' 0 8

/-- A row of format N: no operand, all 32 bits fixed (R64). -/
def rowN (pattern : Word) (i : Instr) : OpcodeRow := ⟨pattern, 0xFFFFFFFF#32, fun _ => i⟩

/-- A row of format I: bits 7:0 are imm8, the others fixed (R65). -/
def rowI (pattern : Word) (build : Byte → Instr) : OpcodeRow := ⟨pattern, 0xFFFFFF00#32, build⟩

/-- The opcode table of R66, row by row. -/
def opcodeTable : List OpcodeRow :=
  [ rowN 0x10000000#32 .tnew, rowN 0x11000000#32 .tparse,
    rowN 0x20000000#32 .crci, rowI 0x21000000#32 .crcb, rowN 0x22000000#32 .crct, rowN 0x23000000#32 .crcm,
    rowN 0x24000000#32 .crcf, rowN 0x25000000#32 .crcg, rowN 0x26000000#32 .crcv,
    rowN 0x30000000#32 .cenc, rowN 0x31000000#32 .cdec,
    rowN 0x40000000#32 .sigw, rowN 0x41000000#32 .sopen, rowN 0x42000000#32 .snext ]

/-- The row a word selects (R63), if any. -/
def selectRow (w : Word) : Option OpcodeRow := opcodeTable.find? (fun r => w &&& r.mask == r.pattern)

/-- The command decoder, total on all words: a word that matches no row is illegal (R67). -/
def decode (w : Word) : Except IllegalWord Instr :=
  match selectRow w with
  | some r => .ok (r.build (immField w))
  | none =>
    if opcodeTable.any (fun r => opField r.pattern == opField w) then .error (.nonzeroField (opField w))
    else .error (.unlistedOpcode (opField w))

/-- The opcode of a command (R66, first column). -/
def opcodeOf : Instr → Byte
  | .tnew => 0x10#8
  | .tparse => 0x11#8
  | .crci => 0x20#8
  | .crcb _ => 0x21#8
  | .crct => 0x22#8
  | .crcm => 0x23#8
  | .crcf => 0x24#8
  | .crcg => 0x25#8
  | .crcv => 0x26#8
  | .cenc => 0x30#8
  | .cdec => 0x31#8
  | .sigw => 0x40#8
  | .sopen => 0x41#8
  | .snext => 0x42#8

/-- Bits 7:0 of a command's word: imm8 in format I (R65), zero in format N (R64). -/
def lowByteOf : Instr → Byte
  | .tnew => 0#8
  | .tparse => 0#8
  | .crci => 0#8
  | .crcb imm8 => imm8
  | .crct => 0#8
  | .crcm => 0#8
  | .crcf => 0#8
  | .crcg => 0#8
  | .crcv => 0#8
  | .cenc => 0#8
  | .cdec => 0#8
  | .sigw => 0#8
  | .sopen => 0#8
  | .snext => 0#8

/-- The encoder: opcode in bits 31:24, zeros in 23:8, imm8 or zero in 7:0 (R64, R65). -/
def encode (i : Instr) : Word := opcodeOf i ++ 0#16 ++ lowByteOf i

/-- The instruction the decoder reads from an instruction whose bits, numbered as spec/opcode_table.json numbers them,
are `w`; a command is one Word, so its bit numbers are the table's, and bits from `nbits` on are zero. -/
def decodeTableWord (nbits w : Nat) : Option Instr :=
  if nbits ≤ 32 then
    match decode (BitVec.ofNat 32 (w % 2 ^ nbits)) with
    | .ok i => some i
    | .error _ => none
  else none

/-- The register with a number, if there is one (R10). -/
def Reg.ofNumber : Nat → Option Reg
  | 0 => some .cmd
  | 1 => some .status
  | 2 => some .errpos
  | 3 => some .flags
  | 4 => some .type
  | 5 => some .len
  | 6 => some .crc
  | 7 => some .src
  | 8 => some .avail
  | 9 => some .dst
  | 10 => some .cur
  | 11 => some .dptr
  | 12 => some .crcacc
  | _ + 13 => none

/-- The number of a register (R10). -/
def Reg.number : Reg → Nat
  | .cmd => 0
  | .status => 1
  | .errpos => 2
  | .flags => 3
  | .type => 4
  | .len => 5
  | .crc => 6
  | .src => 7
  | .avail => 8
  | .dst => 9
  | .cur => 10
  | .dptr => 11
  | .crcacc => 12

end Sys2Proof
end

