-- ==== Sys2Proof/Config.lean ====
section
/-! DEFINITION. The two values the spec leaves open that `State.reset` needs. Both are arguments of
`Machine.State.resetWith`; the constants below are what the one state `Machine.State.reset` takes for them. -/

namespace Sys2Proof

/-- MEM_BYTES of the reset state (R4: 1 <= MEM_BYTES <= 2^32, an open parameter).
DESIGN CHOICE (log entry 1), unsafe for a claim about `State.reset` alone: 4096, the size 95_test_vectors.md uses.
MEM_BYTES is a field of State, so a claim about every state is a claim about every size. -/
abbrev Config.resetMemBytes : Nat := 4096

/-- What a byte of MEM that the memory list does not list reads as (R27: unspecified after reset).
DESIGN CHOICE (log entry 2), unsafe for a claim about `State.reset` alone: 0. Every content of MEM is a memory list, so
a claim about every state is a claim about every initial MEM. -/
abbrev Config.unlistedByte : Byte := 0#8

end Sys2Proof
end

