-- ==== Sys2Proof/Machine/State.lean ====
section
/-! DEFINITION. The state of the block, its reset value, and the reasons a step can stop. -/

namespace Sys2Proof.Machine

/-- MEM (R22), as the list of the bytes that differ from `Config.unlistedByte`: addresses strictly rising, no entry
equal to what an unlisted address reads as (`Memory.wf`), so that equal contents are equal lists. -/
abbrev Memory := List Host.Cell

/-- The six error kinds of the source (R180). `invalidUtf8` and `chunkNotFound` arise only in the host-side functions of
44_container.md and are never reported by the block. -/
inductive ErrorKind where
  | badSignature | tooShort | invalidChunkType | invalidUtf8 | crcMismatch | chunkNotFound
  deriving DecidableEq, Repr

/-- The four hardware faults (R181). They are results of a command, written to STATUS (R184): the machine goes on. -/
inductive HwFault where
  | illegalCommand | bounds | overlap | badState
  deriving DecidableEq, Repr

/-- The values of STATUS.SS (R12): IDLE, LOOP, DONE, FAIL. -/
inductive StreamState where
  | idle | loop | done | fail
  deriving DecidableEq, Repr

/-- The whole state. The block's own part is its storage registers and MEM (R10, R22; 10_state.md section 1: "There is no
other state"). CMD holds nothing and FLAGS is a function of TYPE (R11, R15), so neither is a field. `memBytes` is the
parameter MEM_BYTES (R4), which nothing writes. `pending` and `replies` are the model's own (log entries 3 and 4): what the
outside world will do next, and what its reads have given back. -/
structure State where
  /-- STATUS, register 1 (R12): ERR 3:0, SS 5:4, CV 6, TERM 7, HWF 8, zeros above. -/
  status : Word
  /-- ERRPOS, register 2 (R13). -/
  errpos : Word
  /-- TYPE, register 4 (R14). -/
  type : Word
  /-- LEN, register 5 (R16). -/
  len : Word
  /-- CRC, register 6 (R17). -/
  crc : Word
  /-- SRC, register 7 (R18). -/
  src : Word
  /-- AVAIL, register 8 (R18). -/
  avail : Word
  /-- DST, register 9 (R19). -/
  dst : Word
  /-- CUR, register 10 (R20). -/
  cur : Word
  /-- DPTR, register 11 (R23). -/
  dptr : Word
  /-- CRCACC, register 12 (R24). -/
  crcacc : Word
  /-- MEM (R22). -/
  mem : Memory
  /-- MEM_BYTES (R4), the size of MEM. -/
  memBytes : Nat
  /-- The events the outside world has yet to perform, oldest first: a program is a finite sequence of them (D1). -/
  pending : List Event
  /-- What the host's reads have given back so far, oldest first (R26). -/
  replies : List Reply
  deriving DecidableEq, Repr

/-- A step never answers a fault: an error kind or a hardware fault is a value in STATUS, after which the block keeps
working (R184, R187). So no constructor stands here, and no behaviour of the block is lost by it (log entry 5). Safe. -/
inductive Fault where
  deriving DecidableEq, Repr

/-- Why a step has no meaning. -/
inductive Refusal where
  /-- An arm of exec without a meaning: none is left. Raised by nothing. Safe. -/
  | notModelled (mnemonic : String)
  /-- A host operation on a register number above 12, which "is not an operation of the interface: the model gives it no
  meaning (refuse)" (R26, U11). Raised by `hostWriteReg` and `hostReadReg`. Safe: the run stops. -/
  | noSuchRegister (n : Nat)
  /-- A host operation on a MEM address at or above MEM_BYTES (R26, U11). Raised by `hostWriteMem` and `hostReadMem`.
  Safe: the run stops. -/
  | noSuchAddress (a : Nat)
  deriving DecidableEq, Repr

/-- The state right after reset, for a size and a content of MEM (R27, R200): every storage register 0, MEM arbitrary. No
event is pending and no read has been answered. -/
def State.resetWith (memBytes : Nat) (mem : Memory) : State where
  status := 0#32
  errpos := 0#32
  type := 0#32
  len := 0#32
  crc := 0#32
  src := 0#32
  avail := 0#32
  dst := 0#32
  cur := 0#32
  dptr := 0#32
  crcacc := 0#32
  mem := mem
  memBytes := memBytes
  pending := []
  replies := []

/-- The reset state with the two choices of Config: MEM lists nothing (log entry 2) and has the size of
95_test_vectors.md (log entry 1). -/
def State.reset : State := State.resetWith Config.resetMemBytes []

end Sys2Proof.Machine
end

