-- ==== Sys2Proof/Machine/Bytes.lean ====
section
/-! DEFINITION. Byte order: the primitives BE32 and be32 and the four-byte fields (00_scope.md section 5, R41, R42). -/

namespace Sys2Proof

/-- The spec's `BE32(s)`: the Word whose most significant byte comes first (R41). -/
def Quad.toWord (s : Quad) : Word := s.b0 ++ s.b1 ++ s.b2 ++ s.b3

/-- The spec's `be32(v)`: the bytes `[v[31:24], v[23:16], v[15:8], v[7:0]]` (R41). -/
def Quad.ofWord (v : Word) : Quad where
  b0 := v.extractLsb' 24 8
  b1 := v.extractLsb' 16 8
  b2 := v.extractLsb' 8 8
  b3 := v.extractLsb' 0 8

/-- The four bytes as a sequence, in address order (R42). -/
def Quad.bytes (s : Quad) : Bytes := [s.b0, s.b1, s.b2, s.b3]

namespace Machine

/-- The spec's `TypeBytes(w)`: the type bytes a TYPE value holds, byte 0 in bits 31:24 (R14). -/
def typeBytes (w : Word) : Type4 := Quad.ofWord w

/-- The four bytes `B[i .. i+4)`; used only where the sequence is known to reach i+4. -/
def quadAt (B : Bytes) (i : Nat) : Quad where
  b0 := B.getD i 0#8
  b1 := B.getD (i + 1) 0#8
  b2 := B.getD (i + 2) 0#8
  b3 := B.getD (i + 3) 0#8

/-- The signature SIG (R60): 89 50 4E 47 0D 0A 1A 0A. -/
def sig : Bytes := [0x89#8, 0x50#8, 0x4E#8, 0x47#8, 0x0D#8, 0x0A#8, 0x1A#8, 0x0A#8]

/-- The terminal type IEND: 49 45 4E 44 (00_scope.md section 4). -/
def iend : Type4 := ⟨0x49#8, 0x45#8, 0x4E#8, 0x44#8⟩

end Machine

end Sys2Proof
end

