-- ==== Sys2Proof/Machine/Flags.lean ====
section
/-! DEFINITION. The type-code predicates and the FLAGS register computed from them (R80 to R86, R15), and the fields of
STATUS with their codes (R12, R180, R181). -/

namespace Sys2Proof.Machine

/-- `IsLetter(b)`: an ASCII letter, A-Z or a-z (R80). -/
def isLetter (b : Byte) : Bool :=
  (decide (0x41 ≤ b.toNat) && decide (b.toNat ≤ 0x5A)) || (decide (0x61 ≤ b.toNat) && decide (b.toNat ≤ 0x7A))

/-- `AllLetters(t)` (R80). -/
def allLetters (t : Type4) : Bool := isLetter t.b0 && isLetter t.b1 && isLetter t.b2 && isLetter t.b3

/-- FLAG_MASK, bit 5 of a byte (00_scope.md section 4). -/
def flagMask : Byte := 0x20#8

/-- `IsCritical(t)` (R82). -/
def isCritical (t : Type4) : Bool := t.b0 &&& flagMask == 0#8

/-- `IsPublic(t)` (R83). -/
def isPublic (t : Type4) : Bool := t.b1 &&& flagMask == 0#8

/-- `ReservedBitValid(t)` (R84). -/
def reservedBitValid (t : Type4) : Bool := t.b2 &&& flagMask == 0#8

/-- `IsSafeToCopy(t)` (R85). -/
def isSafeToCopy (t : Type4) : Bool := t.b3 &&& flagMask != 0#8

/-- `IsValid(t)` (R81). -/
def isValid (t : Type4) : Bool := allLetters t && reservedBitValid t

/-- What a read of FLAGS returns while TYPE holds `w` (R15): ANC, PRIV, RSV, SAFE, ALPHA, VALID in bits 0 to 5, zeros
above. -/
def flagsOf (w : Word) : Word :=
  0#26 ++ BitVec.ofBool (isValid (typeBytes w)) ++ BitVec.ofBool (allLetters (typeBytes w))
    ++ BitVec.ofBool (isSafeToCopy (typeBytes w)) ++ BitVec.ofBool (!reservedBitValid (typeBytes w))
    ++ BitVec.ofBool (!isPublic (typeBytes w)) ++ BitVec.ofBool (!isCritical (typeBytes w))

/-- The code an error kind has in STATUS.ERR (R180). -/
def errorCode : ErrorKind → BitVec 4
  | .badSignature => 1#4
  | .tooShort => 2#4
  | .invalidChunkType => 3#4
  | .invalidUtf8 => 4#4
  | .crcMismatch => 5#4
  | .chunkNotFound => 6#4

/-- The code a hardware fault has in STATUS.ERR (R181). -/
def faultCode : HwFault → BitVec 4
  | .illegalCommand => 8#4
  | .bounds => 9#4
  | .overlap => 10#4
  | .badState => 11#4

/-- The value of STATUS.SS for a stream state (R12). -/
def streamCode : StreamState → BitVec 2
  | .idle => 0#2
  | .loop => 1#2
  | .done => 2#2
  | .fail => 3#2

/-- STATUS.ERR, bits 3:0 (R12). -/
def Status.err (w : Word) : BitVec 4 := w.extractLsb' 0 4

/-- STATUS.SS, bits 5:4 (R12). -/
def Status.ss (w : Word) : BitVec 2 := w.extractLsb' 4 2

/-- STATUS.CV, bit 6 (R12). -/
def Status.cv (w : Word) : Bool := w.getLsbD 6

/-- STATUS.TERM, bit 7 (R12). -/
def Status.term (w : Word) : Bool := w.getLsbD 7

/-- STATUS.HWF, bit 8 (R12). -/
def Status.hwf (w : Word) : Bool := w.getLsbD 8

/-- STATUS bits 31:9, which R12 says are always 0. -/
def Status.reserved (w : Word) : BitVec 23 := w.extractLsb' 9 23

/-- STATUS put together from its fields (R12). -/
def Status.make (reserved : BitVec 23) (hwf term cv : Bool) (ss : BitVec 2) (err : BitVec 4) : Word :=
  reserved ++ BitVec.ofBool hwf ++ BitVec.ofBool term ++ BitVec.ofBool cv ++ ss ++ err

/-- STATUS with ERR replaced. -/
def Status.withErr (w : Word) (c : BitVec 4) : Word :=
  Status.make (Status.reserved w) (Status.hwf w) (Status.term w) (Status.cv w) (Status.ss w) c

/-- STATUS with SS replaced. -/
def Status.withSs (w : Word) (c : BitVec 2) : Word :=
  Status.make (Status.reserved w) (Status.hwf w) (Status.term w) (Status.cv w) c (Status.err w)

/-- STATUS with CV and TERM replaced. -/
def Status.withDelivery (w : Word) (cv term : Bool) : Word :=
  Status.make (Status.reserved w) (Status.hwf w) term cv (Status.ss w) (Status.err w)

/-- STATUS with HWF set. -/
def Status.withHwf (w : Word) : Word :=
  Status.make (Status.reserved w) true (Status.term w) (Status.cv w) (Status.ss w) (Status.err w)

end Sys2Proof.Machine
end

