-- ==== Sys2Proof/Machine/Ops.lean ====
section
/-! DEFINITION. The named operations over MEM and the registers, and the three ways a command ends: `ok`, `raise`, `fault`
(00_scope.md section 5, R183, R184). -/

namespace Sys2Proof.Machine

/-- The byte MEM holds at an address (R22). -/
def Memory.read : Memory → Nat → Byte
  | [], _ => Config.unlistedByte
  | (a', b) :: m, a => if a' = a then b else Memory.read m a

/-- `MEM[a] <- b` (R22), in the canonical form: writing the byte an unlisted address reads as removes the entry. -/
def Memory.write : Memory → Nat → Byte → Memory
  | [], a, b => if b = Config.unlistedByte then [] else [(a, b)]
  | (a', b') :: m, a, b =>
    if a < a' then
      if b = Config.unlistedByte then (a', b') :: m else (a, b) :: (a', b') :: m
    else if a = a' then
      if b = Config.unlistedByte then m else (a, b) :: m
    else (a', b') :: Memory.write m a b

/-- `MemRead(a, n)`: the n bytes from address a on (00_scope.md section 5). -/
def Memory.readBytes (m : Memory) : Nat → Nat → Bytes
  | _, 0 => []
  | a, n + 1 => m.read a :: m.readBytes (a + 1) n

/-- `MemWrite(a, s)`: the bytes of s from address a on (00_scope.md section 5). -/
def Memory.writeBytes (m : Memory) : Nat → Bytes → Memory
  | _, [] => m
  | a, b :: s => (m.write a b).writeBytes (a + 1) s

/-- The canonical form: every address is above `lo`, addresses strictly rise, and no entry is what an unlisted address
reads as. -/
def Memory.wfFrom : Option Nat → Memory → Bool
  | _, [] => true
  | none, (a, b) :: m => decide (b ≠ Config.unlistedByte) && Memory.wfFrom (some a) m
  | some lo, (a, b) :: m => decide (lo < a) && decide (b ≠ Config.unlistedByte) && Memory.wfFrom (some a) m

/-- The canonical form of a memory list. -/
def Memory.wf (m : Memory) : Bool := Memory.wfFrom none m

/-- Every listed address lies inside MEM: below `size` (R22). -/
def Memory.inside (size : Nat) (m : Memory) : Bool := m.all (fun c => decide (c.1 < size))

/-- The memory of `size` bytes that holds the listed bytes, in canonical form; a byte listed twice holds the later one,
one outside MEM is none of MEM's. -/
def Memory.ofCells (size : Nat) (cells : List Host.Cell) : Memory :=
  cells.foldl (fun m c => if c.1 < size then m.write c.1 c.2 else m) []

/-- `ok`: the command ends with success (R12: ERR is 0). -/
def State.succeed (s : State) : State := { s with status := Status.withErr s.status 0#4 }

/-- `raise Kind(pos)` (R183): STATUS.ERR takes the kind's code and ERRPOS the position; nothing else changes. -/
def State.raise (k : ErrorKind) (pos : Word) (s : State) : State :=
  { s with status := Status.withErr s.status (errorCode k), errpos := pos }

/-- `fault Kind` (R184): STATUS.ERR takes the fault's code and STATUS.HWF is set; nothing else changes. -/
def State.hwFault (f : HwFault) (s : State) : State :=
  { s with status := Status.withHwf (Status.withErr s.status (faultCode f)) }

/-- `STATUS.SS <- x`. -/
def State.setStream (x : StreamState) (s : State) : State :=
  { s with status := Status.withSs s.status (streamCode x) }

/-- `STATUS.CV <- cv; STATUS.TERM <- term`. -/
def State.setDelivery (cv term : Bool) (s : State) : State :=
  { s with status := Status.withDelivery s.status cv term }

/-- What a host read of a register returns (R26): 0 for CMD (R11), a function of TYPE for FLAGS (R15). -/
def State.readReg (s : State) : Reg → Word
  | .cmd => 0#32
  | .status => s.status
  | .errpos => s.errpos
  | .flags => flagsOf s.type
  | .type => s.type
  | .len => s.len
  | .crc => s.crc
  | .src => s.src
  | .avail => s.avail
  | .dst => s.dst
  | .cur => s.cur
  | .dptr => s.dptr
  | .crcacc => s.crcacc

/-- What a host write does to a register other than CMD (R26): the eight read-write registers take the value, a write to a
read-only one is ignored. (A write to CMD runs a command: `hostWriteReg`.) -/
def State.writeReg (s : State) (r : Reg) (v : Word) : State :=
  match r with
  | .cmd => s
  | .status => s
  | .errpos => s
  | .flags => s
  | .type => { s with type := v }
  | .len => { s with len := v }
  | .crc => { s with crc := v }
  | .src => { s with src := v }
  | .avail => { s with avail := v }
  | .dst => { s with dst := v }
  | .cur => { s with cur := v }
  | .dptr => s
  | .crcacc => { s with crcacc := v }

end Sys2Proof.Machine
end

