-- ==== Sys2Proof/Machine/Operands.lean ====
section
/-! DEFINITION. Where commands find their operands in MEM (R18, R44) and the checks on those regions (R48, R49). Sums are
natural numbers and never wrap (R6). -/

namespace Sys2Proof.Machine

/-- A region with base b and count c is inside MEM when `b + c <= MEM_BYTES` (R48). -/
def State.regionInside (s : State) (base count : Nat) : Bool := decide (base + count ≤ s.memBytes)

/-- The buffer region SRC, AVAIL of TPARSE, CDEC, SOPEN and SNEXT (R18). -/
def State.bufferInside (s : State) : Bool := s.regionInside s.src.toNat s.avail.toNat

/-- The payload region SRC, LEN of CRCM, CRCG, CRCV and CENC (R18). -/
def State.payloadInside (s : State) : Bool := s.regionInside s.src.toNat s.len.toNat

/-- The output region of CENC: DST, 12 + LEN (R44). -/
def State.frameInside (s : State) : Bool := s.regionInside s.dst.toNat (12 + s.len.toNat)

/-- The output region of SIGW: DST, 8 (R44). -/
def State.sigInside (s : State) : Bool := s.regionInside s.dst.toNat 8

/-- CENC's payload and output regions share a byte (R49). -/
def State.overlapping (s : State) : Bool :=
  decide (0 < s.len.toNat) && decide (s.src.toNat < s.dst.toNat + 12 + s.len.toNat)
    && decide (s.dst.toNat < s.src.toNat + s.len.toNat)

/-- The input buffer `MemRead(SRC, AVAIL)` (R18). -/
def State.buffer (s : State) : Bytes := s.mem.readBytes s.src.toNat s.avail.toNat

/-- The payload `MemRead(SRC, LEN)` (R18). -/
def State.payload (s : State) : Bytes := s.mem.readBytes s.src.toNat s.len.toNat

/-- The input buffer of SNEXT: the `AVAIL - CUR` bytes from `SRC + CUR` on (R44). -/
def State.rest (s : State) : Bytes :=
  s.mem.readBytes (s.src.toNat + s.cur.toNat) (s.avail.toNat - s.cur.toNat)

end Sys2Proof.Machine
end

