-- ==== Sys2Proof/Machine/ChunkType.lean ====
section
/-! DEFINITION. The ChunkType unit: the constructors of a type code (R87, R88) and TNEW, TPARSE (R90, R91). -/

namespace Sys2Proof.Machine

/-- `ConstructFromBytes(t)` (R87). -/
def constructFromBytes (t : Type4) : Except ErrorKind Type4 :=
  if isValid t then .ok t else .error .invalidChunkType

/-- `ParseFromText(s)` (R88): the length is counted in bytes. -/
def parseFromText (s : Bytes) : Except ErrorKind Type4 :=
  if s.length = 4 then constructFromBytes (quadAt s 0) else .error .invalidChunkType

/-- TNEW (R90). -/
def execTnew (s : State) : Host.Outcome State Fault Refusal :=
  match constructFromBytes (typeBytes s.type) with
  | .error k => .next (s.raise k 0#32)
  | .ok _ => .next s.succeed

/-- TPARSE (R91). At most four bytes of MEM are read; the bounds check covers all AVAIL of them. -/
def execTparse (s : State) : Host.Outcome State Fault Refusal :=
  if s.bufferInside = false then .next (s.hwFault .bounds)
  else if s.avail.toNat ≠ 4 then .next (s.raise .invalidChunkType 0#32)
  else
    match constructFromBytes (quadAt s.buffer 0) with
    | .error k => .next (s.raise k 0#32)
    | .ok t => .next { s with type := t.toWord }.succeed

end Sys2Proof.Machine
end

