-- ==== Sys2Proof/Machine/Crc.lean ====
section
/-! DEFINITION. The CRC unit: the CRC-32 function (R100 to R104), the incremental engine (R105 to R109), the generator
and the verifier (R110, R111). -/

namespace Sys2Proof.Machine

/-- The generator polynomial with its 32 bits reversed (R100; the spec's own general knowledge, log entry 7). -/
def crcPoly : Word := 0xEDB88320#32

/-- One turn of the loop of R101: shift right by one, and xor the polynomial in if the bit shifted out was 1. -/
def crcShift (r : Word) : Word := if r.getLsbD 0 then (r >>> 1) ^^^ crcPoly else r >>> 1

/-- n turns of that loop. -/
def crcShifts : Nat → Word → Word
  | 0, r => r
  | n + 1, r => crcShifts n (crcShift r)

/-- `CrcUpdate(r, b)` (R101). -/
def crcUpdate (r : Word) (b : Byte) : Word := crcShifts 8 (r ^^^ b.setWidth 32)

/-- `k r`, written so that Lean's kernel computes r before it goes on (`evalThen_eq`: it is `k r`). -/
def evalThen {α : Type} (r : Word) (k : Word → α) : α :=
  match r.toNat with
  | 0 => k 0#32
  | n + 1 => k (BitVec.ofNat 32 (n + 1))

/-- `CrcFeed(r, s)`: the bytes of s in index order (R102). -/
def crcFeed : Word → Bytes → Word
  | r, [] => r
  | r, b :: s => evalThen (crcUpdate r b) (fun r' => crcFeed r' s)

/-- The initial remainder and the value of the final complement (R100). -/
def crcOnes : Word := 0xFFFFFFFF#32

/-- `Crc32(s)` (R103). -/
def crc32 (s : Bytes) : Word := crcFeed crcOnes s ^^^ crcOnes

/-- `ChunkCrc(t, d)`: the type bytes, then the data bytes, and nothing else (R104). -/
def chunkCrc (t : Type4) (d : Bytes) : Word := crc32 (t.bytes ++ d)

/-- CRCI (R105). -/
def execCrci (s : State) : Host.Outcome State Fault Refusal :=
  .next { s with crcacc := crcOnes }.succeed

/-- CRCB imm8 (R106). -/
def execCrcb (imm8 : Byte) (s : State) : Host.Outcome State Fault Refusal :=
  .next { s with crcacc := crcUpdate s.crcacc imm8 }.succeed

/-- CRCT (R107). The type is not validated. -/
def execCrct (s : State) : Host.Outcome State Fault Refusal :=
  .next { s with crcacc := crcFeed s.crcacc (typeBytes s.type).bytes }.succeed

/-- CRCM (R108). -/
def execCrcm (s : State) : Host.Outcome State Fault Refusal :=
  if s.payloadInside = false then .next (s.hwFault .bounds)
  else .next { s with crcacc := crcFeed s.crcacc s.payload }.succeed

/-- CRCF (R109): CRCACC is not changed. -/
def execCrcf (s : State) : Host.Outcome State Fault Refusal :=
  .next { s with crc := s.crcacc ^^^ crcOnes }.succeed

/-- CRCG (R110): CRCACC is neither read nor written. -/
def execCrcg (s : State) : Host.Outcome State Fault Refusal :=
  if s.payloadInside = false then .next (s.hwFault .bounds)
  else .next { s with crc := chunkCrc (typeBytes s.type) s.payload }.succeed

/-- CRCV (R111): CRC holds the stored value and keeps it. -/
def execCrcv (s : State) : Host.Outcome State Fault Refusal :=
  if s.payloadInside = false then .next (s.hwFault .bounds)
  else if chunkCrc (typeBytes s.type) s.payload ≠ s.crc then .next (s.raise .crcMismatch 0#32)
  else .next s.succeed

end Sys2Proof.Machine
end

