-- ==== Sys2Proof/Machine/Chunk.lean ====
section
/-! DEFINITION. The framer: Serialize and DecodeChunk (R120, R121), CENC and CDEC (R123, R124). -/

namespace Sys2Proof.Machine

/-- What DecodeChunk returns on success, `Ok(n, t, d, c)` (R121): the length field, the type, the payload and the CRC
field. -/
structure Decoded where
  n : Word
  t : Type4
  d : Bytes
  c : Word
  deriving DecidableEq, Repr

/-- `Serialize(t, d)`, defined by the spec for `|d| < 2^32` (R120). -/
def serialize (t : Type4) (d : Bytes) : Bytes :=
  (Quad.ofWord (BitVec.ofNat 32 d.length)).bytes ++ t.bytes ++ d ++ (Quad.ofWord (chunkCrc t d)).bytes

/-- Steps 4 to 8 of DecodeChunk (R121), with the length field and the type of steps 2 and 3. -/
def decodePayload (B : Bytes) (n : Word) (t : Type4) : Except ErrorKind Decoded :=
  if B.length - 8 < n.toNat then .error .tooShort
  else if B.length - 8 - n.toNat < 4 then .error .tooShort
  else if chunkCrc t ((B.drop 8).take n.toNat) ≠ (quadAt B (8 + n.toNat)).toWord then .error .crcMismatch
  else .ok ⟨n, t, (B.drop 8).take n.toNat, (quadAt B (8 + n.toNat)).toWord⟩

/-- `DecodeChunk(B)`, its steps in the order of R121. -/
def decodeChunk (B : Bytes) : Except ErrorKind Decoded :=
  if B.length < 12 then .error .tooShort
  else
    match constructFromBytes (quadAt B 4) with
    | .error k => .error k
    | .ok t => decodePayload B (quadAt B 0).toWord t

/-- CENC (R123). The type is not validated (R122); the payload is read from MEM as it was before the frame is written. -/
def execCenc (s : State) : Host.Outcome State Fault Refusal :=
  if s.payloadInside = false then .next (s.hwFault .bounds)
  else if s.frameInside = false then .next (s.hwFault .bounds)
  else if s.overlapping then .next (s.hwFault .overlap)
  else
    .next { s with
      mem := s.mem.writeBytes s.dst.toNat (serialize (typeBytes s.type) s.payload)
      crc := chunkCrc (typeBytes s.type) s.payload
      dst := s.dst + 12#32 + s.len }.succeed

/-- The result registers of a delivered chunk (R124, R142): LEN, TYPE, CRC and, with the frame's address, DPTR. -/
def State.deliver (s : State) (frame : Word) (ch : Decoded) : State :=
  { s with len := ch.n, type := ch.t.toWord, crc := ch.c, dptr := frame + 8#32 }

/-- CDEC (R124): SS and CUR are not touched. -/
def execCdec (s : State) : Host.Outcome State Fault Refusal :=
  if s.bufferInside = false then .next (s.hwFault .bounds)
  else
    match decodeChunk s.buffer with
    | .error k => .next ((s.setDelivery false false).raise k 0#32)
    | .ok ch => .next ((s.deliver s.src ch).setDelivery true (decide (ch.t = iend))).succeed

end Sys2Proof.Machine
end

