-- ==== Sys2Proof/Machine/Stream.lean ====
section
/-! DEFINITION. The stream sequencer: SIGW, SOPEN and SNEXT (R140 to R142). -/

namespace Sys2Proof.Machine

/-- SIGW (R140). -/
def execSigw (s : State) : Host.Outcome State Fault Refusal :=
  if s.sigInside = false then .next (s.hwFault .bounds)
  else .next { s with mem := s.mem.writeBytes s.dst.toNat sig, dst := s.dst + 8#32 }.succeed

/-- The buffer begins with the signature (R141): the eight bytes are read only when AVAIL is at least 8. -/
def State.signatureAhead (s : State) : Bool :=
  decide (8 ≤ s.avail.toNat) && decide (s.mem.readBytes s.src.toNat 8 = sig)

/-- SOPEN (R141). -/
def execSopen (s : State) : Host.Outcome State Fault Refusal :=
  if s.bufferInside = false then .next (s.hwFault .bounds)
  else if s.signatureAhead then
    .next ({ s.setDelivery false false with cur := 8#32 }.setStream .loop).succeed
  else .next (((s.setDelivery false false).setStream .fail).raise .badSignature 0#32)

/-- The stream state after a delivered chunk (R142): DONE after the terminal type, LOOP otherwise. -/
def streamAfter (t : Type4) : StreamState := if t = iend then .done else .loop

/-- SNEXT (R142). -/
def execSnext (s : State) : Host.Outcome State Fault Refusal :=
  if Status.ss s.status ≠ streamCode .loop then .next (s.hwFault .badState)
  else if s.bufferInside = false then .next (s.hwFault .bounds)
  else if s.avail.toNat < s.cur.toNat then .next (s.hwFault .bounds)
  else if s.cur = s.avail then .next ((s.setStream .done).setDelivery false false).succeed
  else
    match decodeChunk s.rest with
    | .error k => .next (((s.setStream .fail).setDelivery false false).raise k s.cur)
    | .ok ch =>
      .next (({ s.deliver (s.src + s.cur) ch with cur := s.cur + 12#32 + ch.n }.setStream (streamAfter ch.t)).setDelivery
        true (decide (ch.t = iend))).succeed

end Sys2Proof.Machine
end

