-- ==== Sys2Proof/Machine/Dispatch.lean ====
section
/-! DEFINITION. exec: one arm per command. -/

namespace Sys2Proof.Machine

/-- What a command does to the state. -/
def exec (i : Instr) (s : State) : Host.Outcome State Fault Refusal :=
  match i with
  -- the ChunkType unit
  | .tnew => Sys2Proof.Machine.execTnew s
  | .tparse => Sys2Proof.Machine.execTparse s
  -- the CRC unit
  | .crci => Sys2Proof.Machine.execCrci s
  | .crcb imm8 => Sys2Proof.Machine.execCrcb imm8 s
  | .crct => Sys2Proof.Machine.execCrct s
  | .crcm => Sys2Proof.Machine.execCrcm s
  | .crcf => Sys2Proof.Machine.execCrcf s
  | .crcg => Sys2Proof.Machine.execCrcg s
  | .crcv => Sys2Proof.Machine.execCrcv s
  -- the framer
  | .cenc => Sys2Proof.Machine.execCenc s
  | .cdec => Sys2Proof.Machine.execCdec s
  -- the stream sequencer
  | .sigw => Sys2Proof.Machine.execSigw s
  | .sopen => Sys2Proof.Machine.execSopen s
  | .snext => Sys2Proof.Machine.execSnext s

end Sys2Proof.Machine
end

