-- ==== Sys2Proof/Machine/HostPort.lean ====
section
/-! DEFINITION. The host's four operations (R26), the write to CMD that runs a command (R11), and reset as an event
(R200). -/

namespace Sys2Proof.Machine

/-- A write of the word w to CMD: the command it encodes is executed to completion; an illegal word is the fault
IllegalCommand (R11, R67). -/
def runWord (w : Word) (s : State) : Host.Outcome State Fault Refusal :=
  match decode w with
  | .ok i => exec i s
  | .error _ => .next (s.hwFault .illegalCommand)

/-- `HostWriteReg(n, v)` (R26). -/
def hostWriteReg (n : Nat) (v : Word) (s : State) : Host.Outcome State Fault Refusal :=
  match Reg.ofNumber n with
  | none => .refused (.noSuchRegister n)
  | some r => if r = .cmd then runWord v s else .next (s.writeReg r v)

/-- `HostReadReg(n)` (R26): the block's state does not change; the value goes to the host. -/
def hostReadReg (n : Nat) (s : State) : Host.Outcome State Fault Refusal :=
  match Reg.ofNumber n with
  | none => .refused (.noSuchRegister n)
  | some r => .next { s with replies := s.replies ++ [.word (s.readReg r)] }

/-- `HostWriteMem(a, b)` (R26). -/
def hostWriteMem (a : Nat) (b : Byte) (s : State) : Host.Outcome State Fault Refusal :=
  if a < s.memBytes then .next { s with mem := s.mem.write a b } else .refused (.noSuchAddress a)

/-- `HostReadMem(a)` (R26): the block's state does not change; the byte goes to the host. -/
def hostReadMem (a : Nat) (s : State) : Host.Outcome State Fault Refusal :=
  if a < s.memBytes then .next { s with replies := s.replies ++ [.byte (s.mem.read a)] }
  else .refused (.noSuchAddress a)

/-- A host operation (R26). -/
def performHost (op : HostOp) (s : State) : Host.Outcome State Fault Refusal :=
  match op with
  | .writeReg n v => hostWriteReg n v s
  | .readReg n => hostReadReg n s
  | .writeMem a b => hostWriteMem a b s
  | .readMem a => hostReadMem a s

/-- Reset (R200, R27): every register to its reset value, MEM to the content the event carries. The size of MEM, the
events to come and the replies already given are not the block's registers or MEM, and stay (log entry 6). -/
def State.afterReset (contents : List Host.Cell) (s : State) : State :=
  { State.resetWith s.memBytes (Memory.ofCells s.memBytes contents) with pending := s.pending, replies := s.replies }

/-- An event of the outside world. -/
def perform (e : Event) (s : State) : Host.Outcome State Fault Refusal :=
  match e with
  | .host op => performHost op s
  | .reset contents => .next (s.afterReset contents)

/-- One step: the oldest pending event takes effect, whole (R45, R46); with none pending the block is idle and nothing
changes (R200, R212). -/
def stepOnce (s : State) : Host.Outcome State Fault Refusal :=
  match s.pending with
  | [] => .next s
  | e :: rest => perform e { s with pending := rest }

end Sys2Proof.Machine
end

