-- ==== Sys2Proof/Machine/Step.lean ====
section
/-! DEFINITION. The step function, and where a step finds its next command. -/

namespace Sys2Proof.Machine

/-- One step of the machine (`stepOnce`). -/
def step (s : State) : Host.Outcome State Fault Refusal := stepOnce s

/-- `s` with the command word `w` (bits from `nbits` on zero) as the very next thing the host does: a write of it to CMD.
The block has no program counter and fetches nothing (R21), so this is where a step finds its next command. -/
def State.withFetchWord (s : State) (nbits w : Nat) : State :=
  { s with pending := .host (.writeReg 0 (BitVec.ofNat 32 (w % 2 ^ nbits))) :: s.pending }

end Sys2Proof.Machine
end

