-- ==== Sys2Proof/Machine/Container.lean ====
section
/-! DEFINITION. The container: the host-side functions over the chunk list (44_container.md, R160 to R168). Nothing in
this file is hardware (R3): the block holds no chunk list. -/

namespace Sys2Proof.Machine

/-- A chunk as a value: a type code and its data (R169). -/
structure Chunk where
  type : Type4
  data : Bytes
  deriving DecidableEq, Repr

/-- `FromChunks(L)`: any list is a container (R160). -/
def fromChunks (L : List Chunk) : List Chunk := L

/-- The loop of DecodePng (R161), with a bound on its turns; `decodeFrom` gives one that is never reached, since a turn
that goes on advances the cursor by at least 12. -/
def decodeLoop (B : Bytes) : Nat → Nat → List Chunk → Except (ErrorKind × Nat) (List Chunk)
  | 0, _, L => .ok L
  | k + 1, cur, L =>
    if cur = B.length then .ok L
    else
      match decodeChunk (B.drop cur) with
      | .error kind => .error (kind, cur)
      | .ok ch =>
        if ch.t = iend then .ok (L ++ [⟨ch.t, ch.d⟩])
        else decodeLoop B k (cur + 12 + ch.n.toNat) (L ++ [⟨ch.t, ch.d⟩])

/-- The loop of DecodePng from a cursor and a list (R161). -/
def decodeFrom (B : Bytes) (cur : Nat) (L : List Chunk) : Except (ErrorKind × Nat) (List Chunk) :=
  decodeLoop B (B.length - cur + 1) cur L

/-- `DecodePng(B)` (R161): the chunks, or an error kind with the offset of the failing frame. -/
def decodePng (B : Bytes) : Except (ErrorKind × Nat) (List Chunk) :=
  if B.length < 8 then .error (.badSignature, 0)
  else if B.take 8 ≠ sig then .error (.badSignature, 0)
  else decodeFrom B 8 []

/-- `AppendChunk(L, c)`: before a trailing terminal chunk, otherwise at the end (R162). -/
def appendChunk (L : List Chunk) (c : Chunk) : List Chunk :=
  match L.getLast? with
  | none => L ++ [c]
  | some last => if last.type = iend then L.dropLast ++ [c, last] else L ++ [c]

/-- `ChunkByType(L, code)`: the first chunk whose type bytes are the code, if any (R163). -/
def chunkByType (L : List Chunk) (code : Bytes) : Option Chunk := L.find? (fun c => c.type.bytes == code)

/-- `RemoveFirstChunk(L, code)`: the list without its first match, and the match; ChunkNotFound if there is none (R164). -/
def removeFirstChunk : List Chunk → Bytes → Except ErrorKind (List Chunk × Chunk)
  | [], _ => .error .chunkNotFound
  | c :: rest, code =>
    if c.type.bytes = code then .ok (rest, c)
    else
      match removeFirstChunk rest code with
      | .error k => .error k
      | .ok (rest', removed) => .ok (c :: rest', removed)

/-- The frame of a chunk (R120). -/
def Chunk.frame (c : Chunk) : Bytes := serialize c.type c.data

/-- `SerializePng(L)`: the signature, then each chunk's frame in list order (R166). -/
def serializePng (L : List Chunk) : Bytes := sig ++ L.flatMap Chunk.frame

/-- `DataAsString(d)` for the open parameter IsValidText (R5, R168; log entry 8): the text is its bytes. -/
def dataAsString (isValidText : Bytes → Bool) (d : Bytes) : Except ErrorKind Bytes :=
  if isValidText d then .ok d else .error .invalidUtf8

/-- The text rendering of a type code where R171 gives it: the four letters of a valid type. The placeholder for any other
is not given by the source and has no function here (U21). -/
def typeText (t : Type4) : Option Bytes := if isValid t then some t.bytes else none

end Sys2Proof.Machine
end

