-- ==== Sys2Proof/Machine/HostProgram.lean ====
section
/-! DEFINITION. Programs for the block: the notation of R70, the pseudo-instructions of R71, and the two canonical host
sequences of R144 and R145. -/

namespace Sys2Proof.Machine

/-- `WR <reg>, <word>` (R70). -/
def asmWr (r : Reg) (v : Word) : Event := .host (.writeReg r.number v)

/-- `RD <reg>` (R70). -/
def asmRd (r : Reg) : Event := .host (.readReg r.number)

/-- `WM <addr>, <bytes>` (R70): one write per byte, in order. -/
def asmWm (a : Nat) : Bytes → List Event
  | [] => []
  | b :: s => .host (.writeMem a b) :: asmWm (a + 1) s

/-- `RM <addr>, <count>` (R70): one read per byte, in order. -/
def asmRm (a : Nat) : Nat → List Event
  | 0 => []
  | n + 1 => .host (.readMem a) :: asmRm (a + 1) n

/-- A command line (R70): a write of the command's word to CMD. -/
def asmCmd (i : Instr) : Event := asmWr .cmd (encode i)

/-- `WRT "abcd"` (R71). -/
def asmWrt (t : Type4) : List Event := [asmWr .type t.toWord]

/-- `CRCS <bytes>` (R71): one CRCB per byte, in order. -/
def asmCrcs (s : Bytes) : List Event := s.map (fun b => asmCmd (.crcb b))

/-- `CRC32T` (R71). -/
def asmCrc32t : List Event := [asmCmd .crci, asmCmd .crct, asmCmd .crcm, asmCmd .crcf]

/-- `BUF <addr>, <count>` (R71). -/
def asmBuf (a n : Word) : List Event := [asmWr .src a, asmWr .avail n]

/-- `PAYLOAD <addr>, <count>` (R71). -/
def asmPayload (a n : Word) : List Event := [asmWr .src a, asmWr .len n]

/-- A list of events, one after the other; the run stops at the first that has no meaning. -/
def performAll : List Event → State → Host.Outcome State Fault Refusal
  | [], s => .next s
  | e :: es, s =>
    match perform e s with
    | .next t => performAll es t
    | .fault f => .fault f
    | .refused r => .refused r

/-- A chunk of R145's list as the host holds it: its type, and where its data lies in MEM. -/
structure PlacedChunk where
  type : Type4
  addr : Word
  len : Word
  deriving DecidableEq, Repr

/-- The lines R145 runs for one chunk. -/
def encodeLines (c : PlacedChunk) : List Event :=
  asmWrt c.type ++ asmPayload c.addr c.len ++ [asmCmd .cenc]

/-- The sequence of R145: write the stream of the list at address a. -/
def serializeProgram (a : Word) (L : List PlacedChunk) : List Event :=
  asmWr .dst a :: asmCmd .sigw :: L.flatMap encodeLines

/-- What the host of R144 ends with: a list, an error with its code and offset, or an operation without a meaning. -/
inductive StreamResult where
  | chunks (L : List Chunk)
  | failed (err : BitVec 4) (offset : Word)
  | stopped
  deriving DecidableEq, Repr

/-- The chunk the result registers deliver (R144). -/
def State.delivered (s : State) : Chunk := ⟨typeBytes s.type, s.mem.readBytes s.dptr.toNat s.len.toNat⟩

/-- The `repeat` loop of R144: SNEXT and read STATUS, until an error or DONE; with a bound on its turns (log entry 12). An
SNEXT that ends in a hardware fault, which R144's proviso leaves out, is answered like an error kind, with the code in
STATUS.ERR and with what ERRPOS holds (DESIGN CHOICE, log entry 16). -/
def collectChunks : Nat → List Chunk → State → StreamResult
  | 0, _, _ => .stopped
  | k + 1, L, s =>
    match perform (asmCmd .snext) s with
    | .next t =>
      if Status.err (t.readReg .status) ≠ 0#4 then .failed (Status.err (t.readReg .status)) (t.readReg .errpos)
      else
        if Status.ss (t.readReg .status) = streamCode .done then
          .chunks (if Status.cv (t.readReg .status) then L ++ [t.delivered] else L)
        else collectChunks k (if Status.cv (t.readReg .status) then L ++ [t.delivered] else L) t
    | .fault _ => .stopped
    | .refused _ => .stopped

/-- The sequence of R144: decode the stream of n bytes at address a. Its loop takes at most n turns.
DESIGN CHOICE (log entry 16): R144's proviso leaves out a run in which a command faults (SOPEN when a + n > MEM_BYTES, where
MemRead(a, n) is undefined). This function then answers `failed` with the fault's code in STATUS.ERR and with what ERRPOS
held before. -/
def decodeSequence (a n : Word) (s : State) : StreamResult :=
  match performAll (asmBuf a n ++ [asmCmd .sopen]) s with
  | .next t =>
    if Status.err (t.readReg .status) ≠ 0#4 then .failed (Status.err (t.readReg .status)) (t.readReg .errpos)
    else collectChunks n.toNat [] t
  | .fault _ => .stopped
  | .refused _ => .stopped

end Sys2Proof.Machine
end

