-- ==== Sys2Proof/Safety.lean ====
section
/-! DEFINITION. What the claims call a well-formed state and a run without misuse. -/

namespace Sys2Proof.Machine

/-- ERR holds a code that R180 or R181 lets a command report: 0, 1, 2, 3, 5, 8, 9, 10 or 11 (codes 4, 6, 7 and 12 to 15
never appear in STATUS). -/
def errReported (c : BitVec 4) : Bool :=
  c == 0#4 || c == 1#4 || c == 2#4 || c == 3#4 || c == 5#4 || c == 8#4 || c == 9#4 || c == 10#4 || c == 11#4

/-- STATUS holds only what R12 lets it hold: bits 31:9 zero, a reported ERR code, and TERM set only with CV. -/
def Status.legal (w : Word) : Bool :=
  Status.reserved w == 0#23 && errReported (Status.err w) && (!Status.term w || Status.cv w)

/-- MEM is as R4 and R22 say: MEM_BYTES from 1 to 2^32, the list canonical, every listed byte inside. -/
def State.memoryLegal (s : State) : Bool :=
  decide (1 ≤ s.memBytes) && decide (s.memBytes ≤ 2 ^ 32) && s.mem.wf && Memory.inside s.memBytes s.mem

/-- The invariant of the machine: MEM and STATUS are legal. -/
def State.Inv (s : State) : Prop := s.memoryLegal = true ∧ Status.legal s.status = true

/-- Every register outside `written` reads in t as it reads in s (FLAGS among them: it changes with TYPE). -/
def State.regsKept (s t : State) (written : List Reg) : Prop := ∀ r : Reg, r ∉ written → t.readReg r = s.readReg r

/-- Every byte of MEM reads in t as it reads in s. -/
def State.memKept (s t : State) : Prop := ∀ a, t.mem.read a = s.mem.read a

/-- Every byte of MEM outside the n bytes from `base` on reads in t as it reads in s. -/
def State.memKeptOutside (s t : State) (base n : Nat) : Prop :=
  ∀ a, (a < base ∨ base + n ≤ a) → t.mem.read a = s.mem.read a

/-- What is neither a register nor MEM is in t as in s: the size of MEM, the events to come, the replies given. -/
def State.worldKept (s t : State) : Prop :=
  t.memBytes = s.memBytes ∧ t.pending = s.pending ∧ t.replies = s.replies

/-- STATUS w has bits 31:9 as v has them, and these fields (R12). -/
def Status.reads (v w : Word) (hwf term cv : Bool) (ss : BitVec 2) (err : BitVec 4) : Prop :=
  Status.reserved w = Status.reserved v ∧ Status.hwf w = hwf ∧ Status.term w = term ∧ Status.cv w = cv ∧
    Status.ss w = ss ∧ Status.err w = err

/-- STATUS w is v with ERR replaced by `err`. -/
def Status.onlyErr (v w : Word) (err : BitVec 4) : Prop :=
  Status.reads v w (Status.hwf v) (Status.term v) (Status.cv v) (Status.ss v) err

/-- t is s after a command that ended with success, wrote no register outside `written` and no STATUS field but ERR. -/
def State.succeeded (s t : State) (written : List Reg) : Prop :=
  Status.onlyErr s.status t.status 0#4 ∧ s.regsKept t (.status :: written) ∧ s.worldKept t

/-- t is s after `raise` with a code and a position (R183), with no STATUS field written but ERR. -/
def State.raised (s t : State) (code : BitVec 4) (pos : Word) : Prop :=
  Status.onlyErr s.status t.status code ∧ t.errpos = pos ∧ s.regsKept t [.status, .errpos] ∧ s.memKept t ∧ s.worldKept t

/-- t is s after `fault` with a code (R184): STATUS.ERR and STATUS.HWF are written and nothing else. -/
def State.faulted (s t : State) (code : BitVec 4) : Prop :=
  Status.reads s.status t.status true (Status.term s.status) (Status.cv s.status) (Status.ss s.status) code ∧
    s.regsKept t [.status] ∧ s.memKept t ∧ s.worldKept t

/-- No command has ended with a hardware fault since reset: the record a claim about a program should include (R184). -/
def State.noHardwareFault (s : State) : Prop := Status.hwf s.status = false

end Sys2Proof.Machine
end

