-- ==== Sys2Proof/WellFormed.lean ====
section
/-! DEFINITION. Which terms of the syntax the spec gives a place to. -/

namespace Sys2Proof

/-- A command is well formed as it stands: its only operand, CRCB's imm8, is a byte by its type (R65). -/
def Instr.wellFormed : Instr → Bool
  | .tnew => true
  | .tparse => true
  | .crci => true
  | .crcb _ => true
  | .crct => true
  | .crcm => true
  | .crcf => true
  | .crcg => true
  | .crcv => true
  | .cenc => true
  | .cdec => true
  | .sigw => true
  | .sopen => true
  | .snext => true

/-- An operation of the interface (R26): a register number is at most 12, an address lies below MEM_BYTES. -/
def HostOp.wellFormed (memBytes : Nat) : HostOp → Bool
  | .writeReg n _ => decide (n ≤ 12)
  | .readReg n => decide (n ≤ 12)
  | .writeMem a _ => decide (a < memBytes)
  | .readMem a => decide (a < memBytes)

/-- An event is well formed if its host operation is; a reset may leave any content. -/
def Event.wellFormed (memBytes : Nat) : Event → Bool
  | .host op => op.wellFormed memBytes
  | .reset _ => true

end Sys2Proof
end

