-- ==== Sys2Proof/Certificates/Slice0/Obligations.lean ====
section
/-! DEFINITION. The statements for the provers, from the numbered rules of spec/. -/

open Sys2Proof Sys2Proof.Machine

/-! ### Encoding -/

/-- R63 to R66: a word decodes to a command exactly when it is that command's encoding, for every command and every
imm8. -/
def Obligations.DecodeInvertsEncode : Prop :=
  ∀ (w : Word) (i : Instr), decode w = .ok i ↔ w = encode i

/-- R63: the rows of the opcode table are disjoint, so a word selects at most one. -/
def Obligations.OpcodeRowsAreDisjoint : Prop :=
  ∀ (w : Word) (i j : Fin opcodeTable.length),
    w &&& (opcodeTable.get i).mask = (opcodeTable.get i).pattern →
    w &&& (opcodeTable.get j).mask = (opcodeTable.get j).pattern → i = j

/-- R64, R65, R67: the illegal words are those with an unlisted opcode, those of format N with a bit of 23:0 set and
those of format I with a bit of 23:8 set (the zero word and the all-ones word among them); the decoder refuses each,
and a write of one to CMD is the fault IllegalCommand, after which only ERR (8) and HWF have changed. -/
def Obligations.IllegalWordsFaultAndChangeNothingElse : Prop :=
  (∀ w : Word, (∀ i, w ≠ encode i) ↔
    (opField w ∉ [0x10#8, 0x11#8, 0x20#8, 0x21#8, 0x22#8, 0x23#8, 0x24#8, 0x25#8, 0x26#8, 0x30#8, 0x31#8, 0x40#8, 0x41#8,
        0x42#8] ∨
      (opField w ≠ 0x21#8 ∧ w.extractLsb' 0 24 ≠ 0#24) ∨
      (opField w = 0x21#8 ∧ w.extractLsb' 8 16 ≠ 0#16))) ∧
  (∀ i, 0x00000000#32 ≠ encode i) ∧ (∀ i, 0xFFFFFFFF#32 ≠ encode i) ∧
  (∀ (w : Word) (s : State) (rest : List Event), (∀ i, w ≠ encode i) →
    s.pending = .host (.writeReg 0 w) :: rest →
    (∃ e, decode w = .error e) ∧ ∃ t, step s = .next t ∧ State.faulted { s with pending := rest } t 8#4)

/-- R66: there are 269 legal command words. -/
def Obligations.LegalCommandWordsNumber269 : Prop :=
  Set.ncard { w : Word | ∃ i, decode w = .ok i } = 269

/-- R66, the match column: each of the fourteen words of the table decodes to its row's command; CRCB's also with
the greatest imm8. -/
def Obligations.TableWordsDecodeToTheirCommands : Prop :=
  decode 0x10000000#32 = .ok .tnew ∧ decode 0x11000000#32 = .ok .tparse ∧
  decode 0x20000000#32 = .ok .crci ∧ decode 0x21000000#32 = .ok (.crcb 0x00#8) ∧
  decode 0x210000FF#32 = .ok (.crcb 0xFF#8) ∧ decode 0x22000000#32 = .ok .crct ∧
  decode 0x23000000#32 = .ok .crcm ∧ decode 0x24000000#32 = .ok .crcf ∧
  decode 0x25000000#32 = .ok .crcg ∧ decode 0x26000000#32 = .ok .crcv ∧
  decode 0x30000000#32 = .ok .cenc ∧ decode 0x31000000#32 = .ok .cdec ∧
  decode 0x40000000#32 = .ok .sigw ∧ decode 0x41000000#32 = .ok .sopen ∧ decode 0x42000000#32 = .ok .snext

/-! ### Steps, host operations, reset -/

/-- R11: a host write to CMD of a word that decodes to i runs i, on the state in which that event is no longer
pending. The list of pending events, and the idle step when it is empty, are the model's (log entry 3). -/
def Obligations.StepRunsTheDecodedCommand : Prop :=
  (∀ (s : State) (w : Word) (i : Instr) (rest : List Event),
    s.pending = .host (.writeReg 0 w) :: rest → decode w = .ok i → step s = exec i { s with pending := rest }) ∧
  (∀ s : State, s.pending = [] → step s = .next s) ∧
  (∀ (s : State) (e : Event) (rest : List Event), s.pending = e :: rest → step s = perform e { s with pending := rest })

/-- R26, R211: every command ends in a next state, and a step has no meaning exactly when the event it would perform
is a host operation on a register number above 12 or on a MEM address at or above MEM_BYTES. -/
def Obligations.StepStopsOnlyOutsideTheInterface : Prop :=
  (∀ (i : Instr) (s : State), ∃ t, exec i s = .next t) ∧
  (∀ s : State, (∃ t, step s = .next t) ↔ ∀ e rest, s.pending = e :: rest → e.wellFormed s.memBytes = true)

/-- R26: what each host operation does. A write to a read-write register sets it and changes nothing else (FLAGS
follows TYPE); a write to a read-only register changes nothing; a write to CMD runs the command; the reads answer
with the value and change no register and no byte; a register number above 12 and an address at or above MEM_BYTES
are refused. -/
def Obligations.HostOperationsActAsTheInterfaceSays : Prop :=
  (∀ (s : State) (v : Word), performHost (.writeReg 0 v) s = runWord v s) ∧
  (∀ (s : State) (r : Reg) (v : Word), r ∈ [Reg.type, .len, .crc, .src, .avail, .dst, .cur, .crcacc] →
    ∃ t, performHost (.writeReg r.number v) s = .next t ∧ t.readReg r = v ∧ s.regsKept t [r, .flags] ∧
      (r ≠ .type → t.readReg .flags = s.readReg .flags) ∧ s.memKept t ∧ s.worldKept t) ∧
  (∀ (s : State) (n : Nat) (v : Word), n ∈ [1, 2, 3, 11] → performHost (.writeReg n v) s = .next s) ∧
  (∀ (s : State) (r : Reg), ∃ t, performHost (.readReg r.number) s = .next t ∧
    t.replies = s.replies ++ [.word (s.readReg r)] ∧ s.regsKept t [] ∧ s.memKept t ∧ t.memBytes = s.memBytes ∧
    t.pending = s.pending) ∧
  (∀ s : State, s.readReg .cmd = 0#32) ∧
  (∀ (s : State) (a : Nat) (b : Byte), s.mem.wf = true → a < s.memBytes →
    ∃ t, performHost (.writeMem a b) s = .next t ∧ t.mem.read a = b ∧ s.memKeptOutside t a 1 ∧ s.regsKept t [] ∧
      s.worldKept t) ∧
  (∀ (s : State) (a : Nat), a < s.memBytes →
    ∃ t, performHost (.readMem a) s = .next t ∧ t.replies = s.replies ++ [.byte (s.mem.read a)] ∧ s.regsKept t [] ∧
      s.memKept t ∧ t.memBytes = s.memBytes ∧ t.pending = s.pending) ∧
  (∀ (s : State) (n : Nat) (v : Word), 12 < n →
    performHost (.writeReg n v) s = .refused (.noSuchRegister n) ∧
      performHost (.readReg n) s = .refused (.noSuchRegister n)) ∧
  (∀ (s : State) (a : Nat) (b : Byte), s.memBytes ≤ a →
    performHost (.writeMem a b) s = .refused (.noSuchAddress a) ∧
      performHost (.readMem a) s = .refused (.noSuchAddress a))

/-- R45: a host read of a byte of MEM, some writes later, answers with the latest byte written to it, whatever bytes
were written elsewhere in between. -/
def Obligations.HostReadsReturnTheLatestByteWritten : Prop :=
  ∀ (s : State) (a : Nat) (b : Byte) (between : List (Nat × Byte)),
    s.mem.wf = true → a < s.memBytes → (∀ c ∈ between, c.1 < s.memBytes ∧ c.1 ≠ a) →
    ∃ t, performAll (.host (.writeMem a b) :: (between.map (fun c => Event.host (.writeMem c.1 c.2)) ++
        [.host (.readMem a)])) s = .next t ∧ t.replies = s.replies ++ [.byte b] ∧ s.regsKept t []

/-- R27: reset leaves every register reading 0, MEM holding any content whatever, and is the only event that clears
HWF. -/
def Obligations.ResetZeroesRegistersAndLeavesMemoryOpen : Prop :=
  (∀ (n : Nat) (m : Memory), (∀ r, (State.resetWith n m).readReg r = 0#32) ∧ (State.resetWith n m).mem = m) ∧
  (∀ (s : State) (f : Nat → Byte), ∃ c t, perform (.reset c) s = .next t ∧ ∀ a < s.memBytes, t.mem.read a = f a) ∧
  (∀ (s t : State) (c : List Host.Cell), perform (.reset c) s = .next t → ∀ r, t.readReg r = 0#32) ∧
  (∀ s t : State, step s = .next t → Status.hwf s.status = true → Status.hwf t.status = false →
    ∃ c rest, s.pending = .reset c :: rest)

/-! ### Invariants and whole-machine rules -/

/-- R4, R12, R22: every step keeps MEM canonical and inside MEM_BYTES, MEM_BYTES from 1 to 2^32, STATUS bits 31:9
zero, ERR a code that a command can report, and TERM set only with CV. -/
def Obligations.StepKeepsTheInvariant : Prop :=
  ∀ s t : State, s.Inv → step s = .next t → t.Inv

/-- The invariant holds right after reset, for every size of MEM in R4's range and every content of it; the reset
state itself takes the model's choices of log entries 1 and 2. -/
def Obligations.ResetMeetsTheInvariant : Prop :=
  State.reset.Inv ∧
  ∀ (n : Nat) (m : Memory), 1 ≤ n → n ≤ 2 ^ 32 → m.wf = true → Memory.inside n m = true → (State.resetWith n m).Inv

/-- The codes of R182's row for a command. -/
def endingsOf : Instr → List (BitVec 4)
  | .tnew => [0#4, 3#4]
  | .tparse => [0#4, 3#4, 9#4]
  | .crci => [0#4]
  | .crcb _ => [0#4]
  | .crct => [0#4]
  | .crcm => [0#4, 9#4]
  | .crcf => [0#4]
  | .crcg => [0#4, 9#4]
  | .crcv => [0#4, 5#4, 9#4]
  | .cenc => [0#4, 9#4, 10#4]
  | .cdec => [0#4, 2#4, 3#4, 5#4, 9#4]
  | .sigw => [0#4, 9#4]
  | .sopen => [0#4, 1#4, 9#4]
  | .snext => [0#4, 2#4, 3#4, 5#4, 9#4, 11#4]

/-- A command can end with a code exactly when its row of the table says so. The spec marks R182 as derived
("[derived: from the pseudocode of every command rule]"). -/
def Obligations.CommandsEndAsTheirRowSays : Prop :=
  ∀ (i : Instr) (c : BitVec 4), (∃ s t, exec i s = .next t ∧ Status.err t.status = c) ↔ c ∈ endingsOf i

/-- R143's column "SS after", for an event that takes effect on s. -/
def streamStateAfter (e : Event) (s : State) : BitVec 2 :=
  match e with
  | .reset _ => 0#2
  | .host op =>
    if op = .writeReg 0 (encode .sopen) ∧ s.src.toNat + s.avail.toNat ≤ s.memBytes then
      if 8 ≤ s.avail.toNat ∧ s.mem.readBytes s.src.toNat 8 = sig then 1#2 else 3#2
    else if op = .writeReg 0 (encode .snext) ∧ Status.ss s.status = 1#2 ∧ s.src.toNat + s.avail.toNat ≤ s.memBytes ∧
        s.cur.toNat ≤ s.avail.toNat then
      if s.cur = s.avail then 2#2
      else
        match decodeChunk (s.mem.readBytes (s.src.toNat + s.cur.toNat) (s.avail.toNat - s.cur.toNat)) with
        | .error _ => 3#2
        | .ok ch => if ch.t = iend then 2#2 else 1#2
    else Status.ss s.status

/-- R143: STATUS.SS changes only as the table says, whatever the event. -/
def Obligations.StreamStateChangesOnlyAsTheTableSays : Prop :=
  ∀ (s t : State) (e : Event), perform e s = .next t → Status.ss t.status = streamStateAfter e s

/-- R10, the column "written by the block in", and R44's last column: each register is left as it is by every command
the column does not name, ERRPOS by every command that does not end with an error kind; CENC writes no byte of MEM
outside the 12 + LEN from DST on, SIGW none outside the 8 from DST on, and every other command no byte. -/
def Obligations.RegistersAreWrittenOnlyByTheirCommands : Prop :=
  ∀ (i : Instr) (s t : State), exec i s = .next t →
    (Status.err t.status ∉ [1#4, 2#4, 3#4, 5#4] → t.errpos = s.errpos) ∧
    t.src = s.src ∧ t.avail = s.avail ∧
    (i ∉ [Instr.tparse, .cdec, .snext] → t.type = s.type ∧ t.readReg .flags = s.readReg .flags) ∧
    (i ∉ [Instr.cdec, .snext] → t.len = s.len ∧ t.dptr = s.dptr) ∧
    (i ∉ [Instr.crcf, .crcg, .cenc, .cdec, .snext] → t.crc = s.crc) ∧
    (i ∉ [Instr.cenc, .sigw] → t.dst = s.dst ∧ s.memKept t) ∧
    (i = .cenc → s.memKeptOutside t s.dst.toNat (12 + s.len.toNat)) ∧
    (i = .sigw → s.memKeptOutside t s.dst.toNat 8) ∧
    (i ∉ [Instr.sopen, .snext] → t.cur = s.cur) ∧
    (i ∉ [Instr.crci, .crct, .crcm] → (∀ b, i ≠ .crcb b) → t.crcacc = s.crcacc) ∧
    s.worldKept t

/-- R12: who writes which field of STATUS. SS only SOPEN and SNEXT; CV and TERM only CDEC, SOPEN and SNEXT, and only
when they do not end in a hardware fault; HWF is set by a hardware fault and by nothing else; bits 31:9 are left
alone. -/
def Obligations.StatusFieldsAreWrittenOnlyByTheirCommands : Prop :=
  ∀ (i : Instr) (s t : State), exec i s = .next t →
    (i ∉ [Instr.sopen, .snext] → Status.ss t.status = Status.ss s.status) ∧
    (i ∉ [Instr.cdec, .sopen, .snext] ∨ Status.err t.status ∈ [8#4, 9#4, 10#4, 11#4] →
      Status.cv t.status = Status.cv s.status ∧ Status.term t.status = Status.term s.status) ∧
    (Status.hwf t.status = true ↔ Status.hwf s.status = true ∨ Status.err t.status ∈ [8#4, 9#4, 10#4, 11#4]) ∧
    Status.reserved t.status = Status.reserved s.status

/-- R13: ERRPOS takes the offset of the failing frame (CUR for SNEXT, 0 for every other command) when a command ends
with an error kind, and no other event but reset writes it. -/
def Obligations.ErrposIsWrittenOnlyByErrors : Prop :=
  (∀ (i : Instr) (s t : State), exec i s = .next t →
    t.errpos = if Status.err t.status ∈ [1#4, 2#4, 3#4, 5#4] then (if i = .snext then s.cur else 0#32) else s.errpos) ∧
  (∀ (op : HostOp) (s t : State), performHost op s = .next t → (∀ i, op ≠ .writeReg 0 (encode i)) → t.errpos = s.errpos)

/-- R183: a command that ends with an error kind has written its code and ERRPOS; before that CDEC, SOPEN and SNEXT
have cleared CV and TERM, and SOPEN and SNEXT have set SS to FAIL; nothing else has changed. -/
def Obligations.ErrorsLeaveResultsUnchanged : Prop :=
  ∀ (i : Instr) (s t : State), exec i s = .next t → Status.err t.status ∈ [1#4, 2#4, 3#4, 5#4] →
    Status.reads s.status t.status (Status.hwf s.status)
      (if i ∈ [Instr.cdec, .sopen, .snext] then false else Status.term s.status)
      (if i ∈ [Instr.cdec, .sopen, .snext] then false else Status.cv s.status)
      (if i ∈ [Instr.sopen, .snext] then 3#2 else Status.ss s.status) (Status.err t.status) ∧
    t.errpos = (if i = .snext then s.cur else 0#32) ∧
    s.regsKept t [.status, .errpos] ∧ s.memKept t ∧ s.worldKept t

/-- R184: a command that ends with a hardware fault has written its code and HWF and nothing else; HWF stays until a
reset, whatever the commands and host operations. -/
def Obligations.FaultsWriteOnlyErrAndHwf : Prop :=
  (∀ (i : Instr) (s t : State), exec i s = .next t → Status.err t.status ∈ [8#4, 9#4, 10#4, 11#4] →
    s.faulted t (Status.err t.status)) ∧
  (∀ (w : Word) (e : IllegalWord) (s : State), decode w = .error e → ∃ t, runWord w s = .next t ∧ s.faulted t 8#4) ∧
  (∀ (op : HostOp) (s t : State), performHost op s = .next t → Status.hwf s.status = true → Status.hwf t.status = true)

/-! ### What a command can depend on -/

/-- R24, R25: only CRCB, CRCT, CRCM and CRCF read CRCACC; another command does the same whatever CRCACC holds. -/
def Obligations.CrcaccIsReadOnlyByTheEngine : Prop :=
  ∀ (i : Instr) (s t : State) (x : Word), i ∉ [Instr.crct, .crcm, .crcf] → (∀ b, i ≠ .crcb b) → exec i s = .next t →
    exec i { s with crcacc := x } = .next { t with crcacc := if i = .crci then 0xFFFFFFFF#32 else x }

/-- R17: no command but CRCV lets the value in CRC influence what it does. -/
def Obligations.CrcRegisterIsReadOnlyByCrcv : Prop :=
  ∀ (i : Instr) (s t : State) (x : Word), i ≠ .crcv → exec i s = .next t →
    ∃ y, exec i { s with crc := x } = .next { t with crc := y } ∧ (y = x ∨ y = t.crc)

/-- How many bytes from `base` on the decode of a frame with `count` bytes available depends on (R44, the row of CDEC):
none below 12; the 12 + n of the frame when the type is valid and they are available; otherwise the first 8. -/
def frameBytesRead (m : Memory) (base count : Nat) : Nat :=
  if count < 12 then 0
  else if isValid (quadAt (m.readBytes base 8) 4) = true ∧ 12 + (quadAt (m.readBytes base 8) 0).toWord.toNat ≤ count then
    12 + (quadAt (m.readBytes base 8) 0).toWord.toNat
  else 8

/-- R44, the column "bytes of MEM the result depends on": first address and number of bytes. -/
def bytesRead (s : State) : Instr → Nat × Nat
  | .tnew => (0, 0)
  | .tparse => (s.src.toNat, if s.avail = 4#32 then 4 else 0)
  | .crci => (0, 0)
  | .crcb _ => (0, 0)
  | .crct => (0, 0)
  | .crcm => (s.src.toNat, s.len.toNat)
  | .crcf => (0, 0)
  | .crcg => (s.src.toNat, s.len.toNat)
  | .crcv => (s.src.toNat, s.len.toNat)
  | .cenc => (s.src.toNat, s.len.toNat)
  | .cdec => (s.src.toNat, frameBytesRead s.mem s.src.toNat s.avail.toNat)
  | .sigw => (0, 0)
  | .sopen => (s.src.toNat, if 8 ≤ s.avail.toNat then 8 else 0)
  | .snext => (s.src.toNat + s.cur.toNat,
      frameBytesRead s.mem (s.src.toNat + s.cur.toNat) (s.avail.toNat - s.cur.toNat))

/-- R44, the column "bytes of MEM the result depends on": what a command does depends on no byte of MEM but those the
column names for it, and on none for the commands without a memory operand. On two memories that agree there it leaves the
same registers, and each byte of MEM is either written alike in both or left alone in both. -/
def Obligations.CommandsReadOnlyTheirInputRegion : Prop :=
  ∀ (i : Instr) (s t : State) (m : Memory),
    (∀ a, (bytesRead s i).1 ≤ a → a < (bytesRead s i).1 + (bytesRead s i).2 → m.read a = s.mem.read a) →
    exec i s = .next t → ∃ m', exec i { s with mem := m } = .next { t with mem := m' } ∧
      (s.mem.wf = true → m.wf = true → ∀ a,
        m'.read a = t.mem.read a ∨ (m'.read a = m.read a ∧ t.mem.read a = s.mem.read a))

/-- R121 step 8, R44: a chunk that decodes is decoded alike whatever bytes follow its 12 + n. -/
def Obligations.BytesBeyondTheFrameAreNotInspected : Prop :=
  ∀ (B u : Bytes) (ch : Decoded), decodeChunk B = .ok ch →
    12 + ch.n.toNat ≤ B.length ∧ decodeChunk (B.take (12 + ch.n.toNat) ++ u) = .ok ch

/-! ### The ChunkType unit -/

/-- R80 to R85: the predicates on a type code, letter by letter and bit by bit; a type code is valid when its bytes
are letters and its reserved bit is clear, which for letters says that byte 2 is upper case. -/
def Obligations.TypePredicatesReadLettersAndBitFive : Prop :=
  (∀ b : Byte, isLetter b = true ↔ (0x41#8 ≤ b ∧ b ≤ 0x5A#8) ∨ (0x61#8 ≤ b ∧ b ≤ 0x7A#8)) ∧
  (∀ t : Type4, allLetters t = true ↔ ∀ b ∈ t.bytes, isLetter b = true) ∧
  (∀ t : Type4, isCritical t = !t.b0.getLsbD 5) ∧ (∀ t : Type4, isPublic t = !t.b1.getLsbD 5) ∧
  (∀ t : Type4, reservedBitValid t = !t.b2.getLsbD 5) ∧ (∀ t : Type4, isSafeToCopy t = t.b3.getLsbD 5) ∧
  (∀ t : Type4, isValid t = true ↔ allLetters t = true ∧ reservedBitValid t = true) ∧
  (∀ t : Type4, allLetters t = true → (isValid t = true ↔ 0x41#8 ≤ t.b2 ∧ t.b2 ≤ 0x5A#8))

/-- There are 3,655,808 valid type codes (the spec derives the number, R81: "[derived: from rule R80 and rule
R84]"). -/
def Obligations.ValidTypeCodesAreCounted : Prop :=
  Set.ncard { t : Type4 | isValid t = true } = 3655808

/-- R15 (and R14 for the placement of the type bytes): FLAGS reads, for every value of TYPE, bit 5 of the four type
bytes in bits 0 to 3, ALPHA in bit 4, VALID in bit 5 and zeros above; type byte 0 is TYPE[31:24] and byte 3 is
TYPE[7:0]. -/
def Obligations.FlagsRegisterDecodesType : Prop :=
  ∀ s : State,
    (s.readReg .flags).getLsbD 0 = s.type.getLsbD 29 ∧ (s.readReg .flags).getLsbD 1 = s.type.getLsbD 21 ∧
    (s.readReg .flags).getLsbD 2 = s.type.getLsbD 13 ∧ (s.readReg .flags).getLsbD 3 = s.type.getLsbD 5 ∧
    (s.readReg .flags).getLsbD 4 = allLetters (typeBytes s.type) ∧
    (s.readReg .flags).getLsbD 5 = isValid (typeBytes s.type) ∧
    (∀ k, 6 ≤ k → (s.readReg .flags).getLsbD k = false) ∧
    (typeBytes s.type).toWord = s.type ∧ (∀ t : Type4, typeBytes t.toWord = t) ∧
    (typeBytes s.type).b0 = s.type.extractLsb' 24 8 ∧ (typeBytes s.type).b1 = s.type.extractLsb' 16 8 ∧
    (typeBytes s.type).b2 = s.type.extractLsb' 8 8 ∧ (typeBytes s.type).b3 = s.type.extractLsb' 0 8

/-- R87, R88: the two constructors return a type code exactly for a valid one, of text exactly 4 bytes long, and
fail with InvalidChunkType otherwise. -/
def Obligations.TypeConstructorsValidate : Prop :=
  (∀ t : Type4, constructFromBytes t = if isValid t = true then .ok t else .error .invalidChunkType) ∧
  (∀ (s : Bytes) (t : Type4), parseFromText s = .ok t ↔ s = t.bytes ∧ isValid t = true) ∧
  (∀ (s : Bytes) (k : ErrorKind), parseFromText s = .error k →
    k = .invalidChunkType ∧ (s.length = 4 → isValid (quadAt s 0) = false))

/-- R90: TNEW, complete: its word, success on a valid type, InvalidChunkType otherwise, and what it leaves alone. It
succeeds exactly when FLAGS.VALID reads 1. -/
def Obligations.TnewValidatesType : Prop :=
  encode .tnew = 0x10000000#32 ∧
  ∀ s : State,
    (isValid (typeBytes s.type) = true → ∃ t, exec .tnew s = .next t ∧ s.succeeded t [] ∧ s.memKept t) ∧
    (isValid (typeBytes s.type) = false → ∃ t, exec .tnew s = .next t ∧ s.raised t 3#4 0#32) ∧
    ((s.readReg .flags).getLsbD 5 = isValid (typeBytes s.type))

/-- R91: TPARSE, complete. -/
def Obligations.TparseLoadsAValidTypeFromMemory : Prop :=
  encode .tparse = 0x11000000#32 ∧
  ∀ s : State,
    (s.memBytes < s.src.toNat + s.avail.toNat → ∃ t, exec .tparse s = .next t ∧ s.faulted t 9#4) ∧
    (s.src.toNat + s.avail.toNat ≤ s.memBytes → s.avail ≠ 4#32 →
      ∃ t, exec .tparse s = .next t ∧ s.raised t 3#4 0#32) ∧
    (∀ ty : Type4, s.src.toNat + s.avail.toNat ≤ s.memBytes → s.avail = 4#32 →
      s.mem.readBytes s.src.toNat 4 = ty.bytes →
      (isValid ty = false → ∃ t, exec .tparse s = .next t ∧ s.raised t 3#4 0#32) ∧
      (isValid ty = true → ∃ t, exec .tparse s = .next t ∧ t.type = ty.toWord ∧ s.succeeded t [.type, .flags] ∧
        s.memKept t))

/-! ### The CRC unit -/

/-- R101: CrcUpdate is eight turns of the bit loop; it is also a table lookup, with the entries quoted; for every
byte it is a bijection on Words; and it is linear. -/
def Obligations.CrcUpdateIsATableLookupAndLinear : Prop :=
  (∀ (r : Word) (b : Byte), crcUpdate r b =
    (fun r : Word => if r.getLsbD 0 = true then (r >>> 1) ^^^ 0xEDB88320#32 else r >>> 1)^[8] (r ^^^ b.setWidth 32)) ∧
  (∀ (r : Word) (b : Byte), crcUpdate r b = crcUpdate 0#32 (r.setWidth 8 ^^^ b) ^^^ (r >>> 8)) ∧
  crcUpdate 0#32 0x00#8 = 0x00000000#32 ∧ crcUpdate 0#32 0x01#8 = 0x77073096#32 ∧
  crcUpdate 0#32 0x80#8 = 0xEDB88320#32 ∧ crcUpdate 0#32 0xFF#8 = 0x2D02EF8D#32 ∧
  (∀ b : Byte, Function.Bijective (fun r : Word => crcUpdate r b)) ∧
  (∀ (r r' : Word) (b : Byte), crcUpdate r b ^^^ crcUpdate r' b = crcUpdate (r ^^^ r') 0#8)

/-- R100, R103, R104: the CRC of a chunk covers its four type bytes and then its data, with the initial remainder
and the complement of R100; the check value and the CRC of nothing. -/
def Obligations.ChunkCrcCoversTypeThenData : Prop :=
  (∀ s : Bytes, crc32 s = ~~~(s.foldl crcUpdate 0xFFFFFFFF#32)) ∧
  (∀ (t : Type4) (d : Bytes), chunkCrc t d = ~~~(([t.b0, t.b1, t.b2, t.b3] ++ d).foldl crcUpdate 0xFFFFFFFF#32)) ∧
  crc32 [0x31#8, 0x32#8, 0x33#8, 0x34#8, 0x35#8, 0x36#8, 0x37#8, 0x38#8, 0x39#8] = 0xCBF43926#32 ∧ crc32 [] = 0#32

/-- R113: two byte sequences of the same length that differ in exactly one bit have different CRCs. -/
def Obligations.SingleBitErrorsChangeTheCrc : Prop :=
  ∀ (p q : Bytes) (b : Byte) (k : Nat), k < 8 → crc32 (p ++ (b ^^^ (1#8 <<< k)) :: q) ≠ crc32 (p ++ b :: q)

/-- R105: CRCI, complete. -/
def Obligations.CrciStartsTheEngine : Prop :=
  encode .crci = 0x20000000#32 ∧
  ∀ s : State, ∃ t, exec .crci s = .next t ∧ t.crcacc = 0xFFFFFFFF#32 ∧ s.succeeded t [.crcacc] ∧ s.memKept t

/-- R106, R107: CRCB and CRCT, complete: they feed imm8, and the type bytes with byte 0 first. -/
def Obligations.CrcbAndCrctFeedTheEngine : Prop :=
  encode .crct = 0x22000000#32 ∧
  (∀ b : Byte, encode (.crcb b) = 0x21000000#32 ||| b.setWidth 32) ∧
  ∀ s : State,
    (∀ b : Byte, ∃ t, exec (.crcb b) s = .next t ∧ t.crcacc = crcUpdate s.crcacc b ∧ s.succeeded t [.crcacc] ∧
      s.memKept t) ∧
    (∃ t, exec .crct s = .next t ∧
      t.crcacc = crcUpdate (crcUpdate (crcUpdate (crcUpdate s.crcacc (s.type.extractLsb' 24 8)) (s.type.extractLsb' 16 8))
        (s.type.extractLsb' 8 8)) (s.type.extractLsb' 0 8) ∧
      s.succeeded t [.crcacc] ∧ s.memKept t)

/-- R108: CRCM, complete. -/
def Obligations.CrcmFeedsThePayload : Prop :=
  encode .crcm = 0x23000000#32 ∧
  ∀ s : State,
    (s.memBytes < s.src.toNat + s.len.toNat → ∃ t, exec .crcm s = .next t ∧ s.faulted t 9#4) ∧
    (s.src.toNat + s.len.toNat ≤ s.memBytes →
      ∃ t, exec .crcm s = .next t ∧
        t.crcacc = (s.mem.readBytes s.src.toNat s.len.toNat).foldl crcUpdate s.crcacc ∧
        s.succeeded t [.crcacc] ∧ s.memKept t)

/-- R109: CRCF, complete: CRCACC keeps its value. -/
def Obligations.CrcfDeliversTheComplement : Prop :=
  encode .crcf = 0x24000000#32 ∧
  ∀ s : State, ∃ t, exec .crcf s = .next t ∧ t.crc = ~~~s.crcacc ∧ s.succeeded t [.crc] ∧ s.memKept t

/-- R110, R111: CRCG and CRCV, complete. -/
def Obligations.CrcgGeneratesAndCrcvVerifies : Prop :=
  encode .crcg = 0x25000000#32 ∧ encode .crcv = 0x26000000#32 ∧
  ∀ s : State,
    (s.memBytes < s.src.toNat + s.len.toNat →
      (∃ t, exec .crcg s = .next t ∧ s.faulted t 9#4) ∧ ∃ t, exec .crcv s = .next t ∧ s.faulted t 9#4) ∧
    (s.src.toNat + s.len.toNat ≤ s.memBytes →
      (∃ t, exec .crcg s = .next t ∧
        t.crc = chunkCrc (typeBytes s.type) (s.mem.readBytes s.src.toNat s.len.toNat) ∧
        s.succeeded t [.crc] ∧ s.memKept t) ∧
      (s.crc = chunkCrc (typeBytes s.type) (s.mem.readBytes s.src.toNat s.len.toNat) →
        ∃ t, exec .crcv s = .next t ∧ s.succeeded t [] ∧ s.memKept t) ∧
      (s.crc ≠ chunkCrc (typeBytes s.type) (s.mem.readBytes s.src.toNat s.len.toNat) →
        ∃ t, exec .crcv s = .next t ∧ s.raised t 5#4 0#32))

/-- The bytes a feeding command feeds in a state (R106 to R108); another command feeds none. -/
def bytesFed (s : State) : Instr → Bytes
  | .crcb b => [b]
  | .crct => (typeBytes s.type).bytes
  | .crcm => s.mem.readBytes s.src.toNat s.len.toNat
  | _ => []

/-- The law of the engine (R112, which the spec marks as derived): CRCI, then any sequence of CRCB, CRCT and CRCM
commands, then CRCF, leaves in CRC the CRC of the bytes fed, in order; CRCI, CRCT, CRCM, CRCF leaves the value CRCG
writes. -/
def Obligations.EngineComputesTheCrcOfTheBytesFed : Prop :=
  (∀ (s : State) (feeds : List Instr), s.src.toNat + s.len.toNat ≤ s.memBytes →
    (∀ i ∈ feeds, i = .crct ∨ i = .crcm ∨ ∃ b, i = .crcb b) →
    ∃ t, performAll (asmCmd .crci :: (feeds.map asmCmd ++ [asmCmd .crcf])) s = .next t ∧
      t.crc = crc32 (feeds.flatMap (bytesFed s)) ∧ s.regsKept t [.status, .crc, .crcacc] ∧ s.memKept t) ∧
  (∀ s : State, s.src.toNat + s.len.toNat ≤ s.memBytes →
    ∃ t u, performAll asmCrc32t s = .next t ∧ exec .crcg s = .next u ∧ t.crc = u.crc ∧ u.crcacc = s.crcacc)

/-! ### The framer -/

/-- R61, R120: the frame of a chunk, field by field. -/
def Obligations.SerializeLaysOutTheFrame : Prop :=
  ∀ (t : Type4) (d : Bytes), d.length < 2 ^ 32 →
    (serialize t d).length = 12 + d.length ∧
    (quadAt (serialize t d) 0).toWord.toNat = d.length ∧
    quadAt (serialize t d) 4 = t ∧
    ((serialize t d).drop 8).take d.length = d ∧
    (quadAt (serialize t d) (8 + d.length)).toWord = chunkCrc t d

/-- R121: what DecodeChunk returns, with its steps in their order. -/
def Obligations.DecodeChunkFollowsTheStepOrder : Prop :=
  ∀ B : Bytes,
    (B.length < 12 → decodeChunk B = .error .tooShort) ∧
    (12 ≤ B.length → isValid (quadAt B 4) = false → decodeChunk B = .error .invalidChunkType) ∧
    (12 ≤ B.length → isValid (quadAt B 4) = true →
      (B.length < 12 + (quadAt B 0).toWord.toNat → decodeChunk B = .error .tooShort) ∧
      (12 + (quadAt B 0).toWord.toNat ≤ B.length →
        decodeChunk B =
          if chunkCrc (quadAt B 4) ((B.drop 8).take (quadAt B 0).toWord.toNat) =
              (quadAt B (8 + (quadAt B 0).toWord.toNat)).toWord then
            .ok ⟨(quadAt B 0).toWord, quadAt B 4, (B.drop 8).take (quadAt B 0).toWord.toNat,
              (quadAt B (8 + (quadAt B 0).toWord.toNat)).toWord⟩
          else .error .crcMismatch))

/-- R123: CENC, complete: its faults in their order, the bytes it stores from DST on, the registers it writes, and
every other byte and register unchanged. -/
def Obligations.CencStoresTheFrame : Prop :=
  encode .cenc = 0x30000000#32 ∧
  ∀ s : State,
    (s.memBytes < s.src.toNat + s.len.toNat ∨ s.memBytes < s.dst.toNat + 12 + s.len.toNat →
      ∃ t, exec .cenc s = .next t ∧ s.faulted t 9#4) ∧
    (s.src.toNat + s.len.toNat ≤ s.memBytes → s.dst.toNat + 12 + s.len.toNat ≤ s.memBytes →
      (0 < s.len.toNat ∧ s.src.toNat < s.dst.toNat + 12 + s.len.toNat ∧ s.dst.toNat < s.src.toNat + s.len.toNat →
        ∃ t, exec .cenc s = .next t ∧ s.faulted t 10#4) ∧
      (s.mem.wf = true →
        s.len.toNat = 0 ∨ s.dst.toNat + 12 + s.len.toNat ≤ s.src.toNat ∨ s.src.toNat + s.len.toNat ≤ s.dst.toNat →
        ∃ t, exec .cenc s = .next t ∧
          t.mem.readBytes s.dst.toNat (12 + s.len.toNat) =
            serialize (typeBytes s.type) (s.mem.readBytes s.src.toNat s.len.toNat) ∧
          s.memKeptOutside t s.dst.toNat (12 + s.len.toNat) ∧
          t.crc = chunkCrc (typeBytes s.type) (s.mem.readBytes s.src.toNat s.len.toNat) ∧
          t.dst.toNat = (s.dst.toNat + 12 + s.len.toNat) % 2 ^ 32 ∧
          s.succeeded t [.crc, .dst]))

/-- R49: with both regions inside MEM, CENC faults Overlap exactly when its payload and its output share a byte. -/
def Obligations.CencOverlapMeansASharedByte : Prop :=
  ∀ s : State, s.src.toNat + s.len.toNat ≤ s.memBytes → s.dst.toNat + 12 + s.len.toNat ≤ s.memBytes →
    ((∃ t, exec .cenc s = .next t ∧ s.faulted t 10#4) ↔
      ∃ a, s.src.toNat ≤ a ∧ a < s.src.toNat + s.len.toNat ∧ s.dst.toNat ≤ a ∧ a < s.dst.toNat + 12 + s.len.toNat)

/-- A payload longer than floor((MEM_BYTES - 12) / 2) bytes cannot be framed, and one of every length up to that can
(R208, which the spec marks as derived). -/
def Obligations.CencPayloadIsAtMostHalfOfMemory : Prop :=
  (∀ s : State, s.memBytes < 12 + 2 * s.len.toNat →
    ∃ t, exec .cenc s = .next t ∧ (s.faulted t 9#4 ∨ s.faulted t 10#4)) ∧
  (∀ (size : Nat) (n : Word), size ≤ 2 ^ 32 → 12 + 2 * n.toNat ≤ size →
    ∃ s t, s.memBytes = size ∧ s.len = n ∧ exec .cenc s = .next t ∧ s.succeeded t [.crc, .dst])

/-- R124: CDEC, complete. MEM_BYTES is at most 2^32 (R4), so DPTR does not wrap (R6). -/
def Obligations.CdecDeliversTheChunk : Prop :=
  encode .cdec = 0x31000000#32 ∧
  ∀ s : State,
    (s.memBytes < s.src.toNat + s.avail.toNat → ∃ t, exec .cdec s = .next t ∧ s.faulted t 9#4) ∧
    (s.src.toNat + s.avail.toNat ≤ s.memBytes →
      (∀ k, decodeChunk (s.mem.readBytes s.src.toNat s.avail.toNat) = .error k →
        ∃ t, exec .cdec s = .next t ∧
          Status.reads s.status t.status (Status.hwf s.status) false false (Status.ss s.status) (errorCode k) ∧
          t.errpos = 0#32 ∧ s.regsKept t [.status, .errpos] ∧ s.memKept t ∧ s.worldKept t) ∧
      (∀ ch, decodeChunk (s.mem.readBytes s.src.toNat s.avail.toNat) = .ok ch →
        ∃ t, exec .cdec s = .next t ∧
          t.len = ch.n ∧ t.type = ch.t.toWord ∧ t.crc = ch.c ∧ t.dptr = s.src + 8#32 ∧
          (s.memBytes ≤ 2 ^ 32 → t.dptr.toNat = s.src.toNat + 8) ∧
          Status.reads s.status t.status (Status.hwf s.status) (decide (ch.t = iend)) true (Status.ss s.status) 0#4 ∧
          s.regsKept t [.status, .len, .type, .flags, .crc, .dptr] ∧ s.memKept t ∧ s.worldKept t))

/-- Round trip of a frame (R125, which the spec marks as derived): decoding a serialized chunk gives it back,
whatever follows it; re-encoding a decoded chunk reproduces its bytes; a frame with an invalid type is refused. -/
def Obligations.FramesRoundTrip : Prop :=
  (∀ (t : Type4) (d u : Bytes), isValid t = true → d.length < 2 ^ 32 →
    decodeChunk (serialize t d ++ u) = .ok ⟨BitVec.ofNat 32 d.length, t, d, chunkCrc t d⟩) ∧
  (∀ (B : Bytes) (ch : Decoded), decodeChunk B = .ok ch → serialize ch.t ch.d = B.take (12 + ch.n.toNat)) ∧
  (∀ (t : Type4) (d u : Bytes), isValid t = false → d.length < 2 ^ 32 →
    decodeChunk (serialize t d ++ u) = .error .invalidChunkType)

/-- Round trip in commands (R125, which the spec marks as derived): CENC, then CDEC on the bytes CENC wrote,
succeeds exactly when FLAGS.VALID was 1, and then leaves TYPE, LEN and CRC as CENC left them. -/
def Obligations.CencThenCdecReturnsTheChunk : Prop :=
  ∀ s u : State, s.mem.wf = true → s.memBytes ≤ 2 ^ 32 → exec .cenc s = .next u → Status.err u.status = 0#4 →
    ∃ t, performAll (asmBuf s.dst (12#32 + s.len) ++ [asmCmd .cdec]) u = .next t ∧
      (Status.err t.status = 0#4 ↔ (s.readReg .flags).getLsbD 5 = true) ∧
      t.type = s.type ∧ t.len = s.len ∧ t.crc = u.crc

/-- Single-bit corruption (R126, which the spec marks as derived): every single flipped bit of a valid frame is
detected: in the data or the CRC field as CrcMismatch, in the type as InvalidChunkType or CrcMismatch by whether the
changed type is valid, in the length field as TooShort when it makes the length larger, and as CrcMismatch when it
makes it smaller, unless the shorter data and the four bytes after it happen to form a matching CRC. -/
def Obligations.SingleBitCorruptionIsDetected : Prop :=
  ∀ (t : Type4) (d : Bytes), isValid t = true → d.length < 2 ^ 32 →
    (∀ (p q : Bytes) (b : Byte) (k : Nat), k < 8 → d = p ++ b :: q →
      decodeChunk ((Quad.ofWord (BitVec.ofNat 32 d.length)).bytes ++ t.bytes ++ (p ++ (b ^^^ (1#8 <<< k)) :: q) ++
        (Quad.ofWord (chunkCrc t d)).bytes) = .error .crcMismatch) ∧
    (∀ k < 32,
      decodeChunk ((Quad.ofWord (BitVec.ofNat 32 d.length)).bytes ++ (Quad.ofWord (t.toWord ^^^ (1#32 <<< k))).bytes ++ d ++
        (Quad.ofWord (chunkCrc t d)).bytes) =
        .error (if isValid (Quad.ofWord (t.toWord ^^^ (1#32 <<< k))) = true then .crcMismatch else .invalidChunkType)) ∧
    (∀ k < 32,
      decodeChunk ((Quad.ofWord (BitVec.ofNat 32 d.length)).bytes ++ t.bytes ++ d ++
        (Quad.ofWord (chunkCrc t d ^^^ (1#32 <<< k))).bytes) = .error .crcMismatch) ∧
    (∀ k < 32, d.length < (BitVec.ofNat 32 d.length ^^^ (1#32 <<< k)).toNat →
      decodeChunk ((Quad.ofWord (BitVec.ofNat 32 d.length ^^^ (1#32 <<< k))).bytes ++ t.bytes ++ d ++
        (Quad.ofWord (chunkCrc t d)).bytes) = .error .tooShort) ∧
    (∀ k < 32, (BitVec.ofNat 32 d.length ^^^ (1#32 <<< k)).toNat < d.length →
      chunkCrc t (d.take (BitVec.ofNat 32 d.length ^^^ (1#32 <<< k)).toNat) ≠
        (quadAt (d ++ (Quad.ofWord (chunkCrc t d)).bytes) (BitVec.ofNat 32 d.length ^^^ (1#32 <<< k)).toNat).toWord →
      decodeChunk ((Quad.ofWord (BitVec.ofNat 32 d.length ^^^ (1#32 <<< k))).bytes ++ t.bytes ++ d ++
        (Quad.ofWord (chunkCrc t d)).bytes) = .error .crcMismatch)

/-- R127: a chunk that CDEC or SNEXT delivered (they end with success and CV reads 1) has passed every check: its
type is valid, its payload at DPTR and the CRC field after it lie in the input buffer, and its CRC matches. -/
def Obligations.DeliveredChunksHavePassedEveryCheck : Prop :=
  ∀ (i : Instr) (s t : State), i = .cdec ∨ i = .snext → s.memBytes ≤ 2 ^ 32 → exec i s = .next t →
    Status.err t.status = 0#4 → Status.cv t.status = true →
    (t.readReg .flags).getLsbD 5 = true ∧ s.src.toNat + 8 ≤ t.dptr.toNat ∧
      t.dptr.toNat + t.len.toNat + 4 ≤ s.src.toNat + s.avail.toNat ∧
      t.crc = chunkCrc (typeBytes t.type) (t.mem.readBytes t.dptr.toNat t.len.toNat) ∧
      (quadAt (t.mem.readBytes (t.dptr.toNat + t.len.toNat) 4) 0).toWord = t.crc ∧
      (Status.term t.status = true ↔ typeBytes t.type = iend)

/-! ### The stream sequencer -/

/-- R140: SIGW, complete. -/
def Obligations.SigwStoresTheSignature : Prop :=
  encode .sigw = 0x40000000#32 ∧
  ∀ s : State,
    (s.memBytes < s.dst.toNat + 8 → ∃ t, exec .sigw s = .next t ∧ s.faulted t 9#4) ∧
    (s.mem.wf = true → s.dst.toNat + 8 ≤ s.memBytes →
      ∃ t, exec .sigw s = .next t ∧
        t.mem.readBytes s.dst.toNat 8 = [0x89#8, 0x50#8, 0x4E#8, 0x47#8, 0x0D#8, 0x0A#8, 0x1A#8, 0x0A#8] ∧
        s.memKeptOutside t s.dst.toNat 8 ∧ t.dst.toNat = (s.dst.toNat + 8) % 2 ^ 32 ∧ s.succeeded t [.dst])

/-- R141: SOPEN, complete. -/
def Obligations.SopenChecksTheSignature : Prop :=
  encode .sopen = 0x41000000#32 ∧
  ∀ s : State,
    (s.memBytes < s.src.toNat + s.avail.toNat → ∃ t, exec .sopen s = .next t ∧ s.faulted t 9#4) ∧
    (s.src.toNat + s.avail.toNat ≤ s.memBytes →
      (s.avail.toNat < 8 ∨ s.mem.readBytes s.src.toNat 8 ≠ sig →
        ∃ t, exec .sopen s = .next t ∧
          Status.reads s.status t.status (Status.hwf s.status) false false 3#2 1#4 ∧
          t.errpos = 0#32 ∧ s.regsKept t [.status, .errpos] ∧ s.memKept t ∧ s.worldKept t) ∧
      (8 ≤ s.avail.toNat → s.mem.readBytes s.src.toNat 8 = sig →
        ∃ t, exec .sopen s = .next t ∧ t.cur = 8#32 ∧
          Status.reads s.status t.status (Status.hwf s.status) false false 1#2 0#4 ∧
          s.regsKept t [.status, .cur] ∧ s.memKept t ∧ s.worldKept t))

/-- R142: SNEXT, complete: BadState outside LOOP, Bounds, the exhausted buffer, the chunk at the cursor that fails
to decode and the one that is delivered. MEM_BYTES is at most 2^32 (R4), so neither DPTR nor CUR wraps (R6), and CUR
does not pass AVAIL. -/
def Obligations.SnextTakesOneTurnOfTheLoop : Prop :=
  encode .snext = 0x42000000#32 ∧
  ∀ s : State,
    (Status.ss s.status ≠ 1#2 → ∃ t, exec .snext s = .next t ∧ s.faulted t 11#4) ∧
    (Status.ss s.status = 1#2 →
      (s.memBytes < s.src.toNat + s.avail.toNat ∨ s.avail.toNat < s.cur.toNat →
        ∃ t, exec .snext s = .next t ∧ s.faulted t 9#4) ∧
      (s.src.toNat + s.avail.toNat ≤ s.memBytes → s.cur = s.avail →
        ∃ t, exec .snext s = .next t ∧
          Status.reads s.status t.status (Status.hwf s.status) false false 2#2 0#4 ∧
          s.regsKept t [.status] ∧ s.memKept t ∧ s.worldKept t) ∧
      (∀ k, s.src.toNat + s.avail.toNat ≤ s.memBytes → s.cur.toNat < s.avail.toNat →
        decodeChunk (s.mem.readBytes (s.src.toNat + s.cur.toNat) (s.avail.toNat - s.cur.toNat)) = .error k →
        ∃ t, exec .snext s = .next t ∧
          Status.reads s.status t.status (Status.hwf s.status) false false 3#2 (errorCode k) ∧
          t.errpos = s.cur ∧ s.regsKept t [.status, .errpos] ∧ s.memKept t ∧ s.worldKept t) ∧
      (∀ ch, s.memBytes ≤ 2 ^ 32 → s.src.toNat + s.avail.toNat ≤ s.memBytes → s.cur.toNat < s.avail.toNat →
        decodeChunk (s.mem.readBytes (s.src.toNat + s.cur.toNat) (s.avail.toNat - s.cur.toNat)) = .ok ch →
        ∃ t, exec .snext s = .next t ∧
          t.len = ch.n ∧ t.type = ch.t.toWord ∧ t.crc = ch.c ∧
          t.dptr.toNat = s.src.toNat + s.cur.toNat + 8 ∧ t.cur.toNat = s.cur.toNat + 12 + ch.n.toNat ∧
          t.cur.toNat ≤ s.avail.toNat ∧
          Status.reads s.status t.status (Status.hwf s.status) (decide (ch.t = iend)) true
            (if ch.t = iend then 2#2 else 1#2) 0#4 ∧
          s.regsKept t [.status, .len, .type, .flags, .crc, .dptr, .cur] ∧ s.memKept t ∧ s.worldKept t))

/-- Decoding a whole stream (R144, whose equality the spec marks as derived): the canonical decode sequence gives
what DecodePng gives: the same list, or the same error kind at the same offset. -/
def Obligations.DecodeSequenceEqualsDecodePng : Prop :=
  ∀ (s : State) (a n : Word), s.memBytes ≤ 2 ^ 32 → a.toNat + n.toNat ≤ s.memBytes →
    decodeSequence a n s =
      match decodePng (s.mem.readBytes a.toNat n.toNat) with
      | .ok L => .chunks L
      | .error (k, pos) => .failed (errorCode k) (BitVec.ofNat 32 pos)

/-- The chunk a placed chunk stands for in a memory. -/
def PlacedChunk.value (m : Memory) (c : PlacedChunk) : Chunk := ⟨c.type, m.readBytes c.addr.toNat c.len.toNat⟩

/-- Serializing a whole container (R145, whose equality the spec marks as derived): the canonical encode sequence
writes, from address a on, the stream SerializePng of the list, when every payload and the whole output lie in MEM
and no payload shares a byte with the output. -/
def Obligations.EncodeSequenceWritesSerializePng : Prop :=
  ∀ (s : State) (a : Word) (L : List PlacedChunk) (total : Nat), s.mem.wf = true → s.memBytes ≤ 2 ^ 32 →
    total = 8 + (L.map (fun c => 12 + c.len.toNat)).sum → a.toNat + total ≤ s.memBytes →
    (∀ c ∈ L, c.addr.toNat + c.len.toNat ≤ s.memBytes ∧
      (c.len.toNat = 0 ∨ c.addr.toNat + c.len.toNat ≤ a.toNat ∨ a.toNat + total ≤ c.addr.toNat)) →
    ∃ t, performAll (serializeProgram a L) s = .next t ∧
      t.mem.readBytes a.toNat total = serializePng (L.map (PlacedChunk.value s.mem)) ∧
      s.memKeptOutside t a.toNat total ∧ t.dst.toNat = (a.toNat + total) % 2 ^ 32 ∧
      Status.hwf t.status = Status.hwf s.status

/-! ### The container -/

/-- R161: DecodePng checks the signature and then runs its loop: the exhaustion test before each chunk, errors with
the cursor's offset, the stop after the terminal chunk. -/
def Obligations.DecodePngRunsTheLoop : Prop :=
  (∀ B : Bytes, B.length < 8 ∨ B.take 8 ≠ sig → decodePng B = .error (.badSignature, 0)) ∧
  (∀ B : Bytes, 8 ≤ B.length → B.take 8 = sig → decodePng B = decodeFrom B 8 []) ∧
  (∀ (B : Bytes) (L : List Chunk), decodeFrom B B.length L = .ok L) ∧
  (∀ (B : Bytes) (cur : Nat) (L : List Chunk), cur < B.length →
    decodeFrom B cur L =
      match decodeChunk (B.drop cur) with
      | .error kind => .error (kind, cur)
      | .ok ch =>
        if ch.t = iend then .ok (L ++ [⟨ch.t, ch.d⟩])
        else decodeFrom B (cur + 12 + ch.n.toNat) (L ++ [⟨ch.t, ch.d⟩]))

/-- In a list that DecodePng returns every type is valid and IEND stands only last (the spec derives it, R161:
"Consequences [derived]"). -/
def Obligations.DecodedListsAreValidAndEndAtIend : Prop :=
  ∀ (B : Bytes) (L : List Chunk), decodePng B = .ok L →
    (∀ c ∈ L, isValid c.type = true) ∧ ∀ c ∈ L.dropLast, c.type ≠ iend

/-- R162: AppendChunk puts the chunk before a trailing terminal chunk and at the end otherwise, and a stream that
ended with the terminal frame still does when it is serialized again. -/
def Obligations.AppendKeepsTheTerminalChunkLast : Prop :=
  (∀ c, appendChunk [] c = [c]) ∧
  (∀ (L : List Chunk) (last c : Chunk), last.type = iend → appendChunk (L ++ [last]) c = L ++ [c, last]) ∧
  (∀ (L : List Chunk) (last c : Chunk), last.type ≠ iend → appendChunk (L ++ [last]) c = L ++ [last, c]) ∧
  (∀ (L : List Chunk) (last c : Chunk), last.type = iend → (∀ x ∈ L ++ [c, last], x.data.length < 2 ^ 32) →
    ∃ p, serializePng (appendChunk (L ++ [last]) c) = p ++ last.frame)

/-- R163, R164, R165: lookup and removal take the first chunk in list order whose type bytes are the code; a miss is
no result for lookup and ChunkNotFound for removal; a code that is not 4 bytes long matches nothing. -/
def Obligations.LookupAndRemovalTakeTheFirstMatch : Prop :=
  (∀ (p q : List Chunk) (c : Chunk) (code : Bytes), c.type.bytes = code → (∀ x ∈ p, x.type.bytes ≠ code) →
    chunkByType (p ++ c :: q) code = some c ∧ removeFirstChunk (p ++ c :: q) code = .ok (p ++ q, c)) ∧
  (∀ (L : List Chunk) (code : Bytes), (∀ x ∈ L, x.type.bytes ≠ code) →
    chunkByType L code = none ∧ removeFirstChunk L code = .error .chunkNotFound) ∧
  (∀ (L : List Chunk) (code : Bytes), code.length ≠ 4 →
    chunkByType L code = none ∧ removeFirstChunk L code = .error .chunkNotFound)

/-- Round trips of a stream (R167, which the spec marks as derived): a decoded stream is reproduced by serializing
its chunks, up to bytes after a terminal chunk; and a serialized list decodes to itself, or to its prefix up to the
first IEND, or fails at its first invalid type. -/
def Obligations.StreamsRoundTrip : Prop :=
  (∀ (B : Bytes) (L : List Chunk), decodePng B = .ok L →
    ∃ u, B = serializePng L ++ u ∧ (u = [] ∨ ∃ c, L.getLast? = some c ∧ c.type = iend)) ∧
  (∀ L : List Chunk, (∀ c ∈ L, isValid c.type = true ∧ c.data.length < 2 ^ 32) → (∀ c ∈ L.dropLast, c.type ≠ iend) →
    decodePng (serializePng L) = .ok L) ∧
  (∀ (p q : List Chunk) (c : Chunk),
    (∀ x ∈ p, isValid x.type = true ∧ x.type ≠ iend) → (∀ x ∈ p ++ c :: q, x.data.length < 2 ^ 32) → c.type = iend →
    decodePng (serializePng (p ++ c :: q)) = .ok (p ++ [c])) ∧
  (∀ (p q : List Chunk) (c : Chunk),
    (∀ x ∈ p, isValid x.type = true ∧ x.type ≠ iend) → (∀ x ∈ p ++ c :: q, x.data.length < 2 ^ 32) →
    isValid c.type = false →
    decodePng (serializePng (p ++ c :: q)) = .error (.invalidChunkType, (serializePng p).length))
end

