-- ==== Sys2Proof/Laws/Bytes.lean ====
section
/-! SUPPORT. The four-byte fields: BE32 and be32 undo each other (00_scope.md section 5), and where a field stands in a
sequence. -/

namespace Sys2Proof

/-- `BE32(be32(v)) = v`. -/
@[simp] theorem Quad.toWord_ofWord (v : Word) : (Quad.ofWord v).toWord = v := by
  apply BitVec.eq_of_getLsbD_eq
  intro i hi
  simp only [Quad.ofWord, Quad.toWord, BitVec.getLsbD_append, BitVec.getLsbD_extractLsb']
  split
  · simp_all
  split
  · rw [decide_eq_true (by omega), Bool.true_and]; congr 1; omega
  split
  · rw [decide_eq_true (by omega), Bool.true_and]; congr 1; omega
  · rw [decide_eq_true (by omega), Bool.true_and]; congr 1; omega

/-- `be32(BE32(s)) = s`. -/
@[simp] theorem Quad.ofWord_toWord (s : Quad) : Quad.ofWord s.toWord = s := by
  obtain ⟨a, b, c, d⟩ := s
  simp only [Quad.ofWord, Quad.toWord, Quad.mk.injEq]
  refine ⟨?_, ?_, ?_, ?_⟩ <;>
  · ext i hi
    simp only [BitVec.getElem_extractLsb', BitVec.getLsbD_append]
    repeat (first | rw [if_pos (by omega)] | rw [if_neg (by omega)])
    rw [← BitVec.getLsbD_eq_getElem]
    congr 1
    omega

/-- A Word is determined by its four bytes. -/
theorem Quad.ofWord_injective {v w : Word} (h : Quad.ofWord v = Quad.ofWord w) : v = w := by
  rw [← Quad.toWord_ofWord v, h, Quad.toWord_ofWord]

theorem Quad.toWord_injective {s t : Quad} (h : s.toWord = t.toWord) : s = t := by
  rw [← Quad.ofWord_toWord s, h, Quad.ofWord_toWord]

@[simp] theorem Quad.length_bytes (s : Quad) : s.bytes.length = 4 := rfl

theorem Quad.bytes_injective {s t : Quad} (h : s.bytes = t.bytes) : s = t := by
  obtain ⟨a, b, c, d⟩ := s
  obtain ⟨a', b', c', d'⟩ := t
  simpa [Quad.bytes] using h

namespace Machine

@[simp] theorem typeBytes_toWord (t : Type4) : typeBytes t.toWord = t := Quad.ofWord_toWord t

@[simp] theorem toWord_typeBytes (w : Word) : (typeBytes w).toWord = w := Quad.toWord_ofWord w

@[simp] theorem quadAt_bytes_append (q : Quad) (s : Bytes) : quadAt (q.bytes ++ s) 0 = q := rfl

@[simp] theorem quadAt_bytes (q : Quad) : quadAt q.bytes 0 = q := rfl

/-- A field past a prefix is the field of the rest. -/
theorem quadAt_append (p s : Bytes) (i : Nat) : quadAt (p ++ s) (p.length + i) = quadAt s i := by
  have key : ∀ j, (p ++ s).getD (p.length + j) 0#8 = s.getD j 0#8 := by
    intro j
    simp [List.getD_eq_getElem?_getD, List.getElem?_append_right]
  simp only [quadAt, Nat.add_assoc, key]

/-- A field inside a prefix is the field of the prefix. -/
theorem quadAt_append_left (p s : Bytes) (i : Nat) (h : i + 4 ≤ p.length) : quadAt (p ++ s) i = quadAt p i := by
  have key : ∀ j, j < p.length → (p ++ s).getD j 0#8 = p.getD j 0#8 := by
    intro j hj
    simp [List.getD_eq_getElem?_getD, List.getElem?_append_left hj]
  simp only [quadAt, key i (by omega), key (i + 1) (by omega), key (i + 2) (by omega), key (i + 3) (by omega)]

/-- A sequence of four bytes is the bytes of its field. -/
theorem bytes_quadAt (s : Bytes) (h : s.length = 4) : (quadAt s 0).bytes = s := by
  match s, h with
  | [_, _, _, _], _ => rfl

/-- The four bytes at i are the bytes of the field at i. -/
theorem bytes_quadAt_drop (s : Bytes) (i : Nat) (h : i + 4 ≤ s.length) : (quadAt s i).bytes = (s.drop i).take 4 := by
  have h1 : quadAt s i = quadAt ((s.drop i).take 4) 0 := by
    conv_lhs => rw [← List.take_append_drop i s, ← List.take_append_drop 4 (s.drop i)]
    have hl : (s.take i).length = i := by simp; omega
    have := quadAt_append (s.take i) (List.take 4 (s.drop i) ++ List.drop 4 (s.drop i)) 0
    rw [hl, Nat.add_zero] at this
    rw [this, quadAt_append_left _ _ _ (by simp; omega)]
  rw [h1, bytes_quadAt _ (by simp; omega)]

end Machine

end Sys2Proof
end

