-- ==== Sys2Proof/Laws/Functions.lean ====
section
/-! SUPPORT. The pure functions of the CRC unit and the framer: feeding, lengths, inversion of DecodeChunk. -/

namespace Sys2Proof.Machine

/-! ### The CRC -/

/-- `evalThen` is plain application. -/
@[simp] theorem evalThen_eq {α : Type} (r : Word) (k : Word → α) : evalThen r k = k r := by
  unfold evalThen
  split
  · rename_i h
    rw [show r = 0#32 from BitVec.eq_of_toNat_eq (by simpa using h)]
  · rename_i n h
    rw [show r = BitVec.ofNat 32 (n + 1) by
      rw [← Nat.succ_eq_add_one, ← h, BitVec.ofNat_toNat, BitVec.setWidth_eq]]

@[simp] theorem crcFeed_nil (r : Word) : crcFeed r [] = r := rfl

@[simp] theorem crcFeed_cons (r : Word) (b : Byte) (s : Bytes) : crcFeed r (b :: s) = crcFeed (crcUpdate r b) s := by
  simp [crcFeed]

/-- Feeding is a fold of CrcUpdate over the bytes in index order (R102). -/
theorem crcFeed_eq_foldl (r : Word) (s : Bytes) : crcFeed r s = s.foldl crcUpdate r := by
  induction s generalizing r with
  | nil => rfl
  | cons b s ih => simp [ih]

theorem crcFeed_append (r : Word) (s u : Bytes) : crcFeed r (s ++ u) = crcFeed (crcFeed r s) u := by
  simp [crcFeed_eq_foldl, List.foldl_append]

/-! ### The framer -/

@[simp] theorem length_serialize (t : Type4) (d : Bytes) : (serialize t d).length = 12 + d.length := by
  simp [serialize, Quad.bytes]
  omega

theorem constructFromBytes_ok {t t' : Type4} (h : constructFromBytes t = .ok t') : t' = t ∧ isValid t = true := by
  unfold constructFromBytes at h
  split at h <;> simp_all

theorem constructFromBytes_error {t : Type4} {k : ErrorKind} (h : constructFromBytes t = .error k) :
    k = .invalidChunkType ∧ isValid t = false := by
  unfold constructFromBytes at h
  split at h <;> simp_all

theorem constructFromBytes_valid {t : Type4} (h : isValid t = true) : constructFromBytes t = .ok t := by
  simp [constructFromBytes, h]

theorem constructFromBytes_invalid {t : Type4} (h : isValid t = false) :
    constructFromBytes t = .error .invalidChunkType := by
  simp [constructFromBytes, h]

/-- What is true of a chunk that DecodeChunk returns (R121). -/
theorem decodeChunk_ok {B : Bytes} {ch : Decoded} (h : decodeChunk B = .ok ch) :
    12 + ch.n.toNat ≤ B.length ∧ ch.n = (quadAt B 0).toWord ∧ ch.t = quadAt B 4 ∧ isValid ch.t = true ∧
      ch.d = (B.drop 8).take ch.n.toNat ∧ ch.c = (quadAt B (8 + ch.n.toNat)).toWord ∧ ch.c = chunkCrc ch.t ch.d := by
  unfold decodeChunk at h
  split at h
  · cases h
  split at h
  · cases h
  rename_i t ht
  obtain ⟨rfl, hv⟩ := constructFromBytes_ok ht
  unfold decodePayload at h
  split_ifs at h with h1 h2 h3
  cases h
  exact ⟨by simp only; omega, rfl, rfl, hv, rfl, rfl, by simpa using (not_not.mp h3).symm⟩

/-- DecodeChunk on a buffer that holds a whole frame of a valid type with a matching CRC (R121). -/
theorem decodeChunk_of_frame {B : Bytes} {n : Nat} (hn : (quadAt B 0).toWord.toNat = n) (hl : 12 + n ≤ B.length)
    (hv : isValid (quadAt B 4) = true)
    (hc : chunkCrc (quadAt B 4) ((B.drop 8).take n) = (quadAt B (8 + n)).toWord) :
    decodeChunk B = .ok ⟨(quadAt B 0).toWord, quadAt B 4, (B.drop 8).take n, (quadAt B (8 + n)).toWord⟩ := by
  unfold decodeChunk
  rw [if_neg (by omega), constructFromBytes_valid hv]
  simp only [decodePayload, hn]
  rw [if_neg (by omega), if_neg (by omega), if_neg (by simpa using hc)]

/-- The kinds DecodeChunk fails with (R121). -/
theorem decodeChunk_error {B : Bytes} {k : ErrorKind} (h : decodeChunk B = .error k) :
    k = .tooShort ∨ k = .invalidChunkType ∨ k = .crcMismatch := by
  unfold decodeChunk at h
  split at h
  · cases h; simp
  split at h
  · rename_i hk
    cases h
    exact .inr (.inl (constructFromBytes_error hk).1)
  unfold decodePayload at h
  split_ifs at h <;> cases h <;> simp

end Sys2Proof.Machine
end

