-- ==== Sys2Proof/Laws/Crc.lean ====
section
/-! SUPPORT. The bit loop of CrcUpdate (R101): one turn, and so n turns, is linear and injective. -/

namespace Sys2Proof.Machine

/-- One turn: shift, and add the polynomial if the bit shifted out was 1. -/
theorem crcShift_eq (r : Word) : crcShift r = (r >>> 1) ^^^ (if r.getLsbD 0 then crcPoly else 0#32) := by
  unfold crcShift
  split <;> simp

theorem crcShift_xor (r r' : Word) : crcShift (r ^^^ r') = crcShift r ^^^ crcShift r' := by
  simp only [crcShift_eq, BitVec.ushiftRight_xor_distrib, BitVec.getLsbD_xor]
  cases r.getLsbD 0 <;> cases r'.getLsbD 0 <;> simp <;> ac_nf <;> simp [← BitVec.xor_assoc]

/-- The polynomial has its top bit set, so the bit shifted out can be read off the result. -/
theorem eq_zero_of_crcShift {r : Word} (h : crcShift r = 0#32) : r = 0#32 := by
  have h31 := congrArg (fun x => BitVec.getLsbD x 31) h
  rw [crcShift_eq] at h31 h
  have h0 : r.getLsbD 0 = false := by
    cases hr : r.getLsbD 0
    · rfl
    · rw [hr] at h31
      simp [crcPoly] at h31
  rw [h0] at h
  simp only [Bool.false_eq_true, if_false, BitVec.xor_zero] at h
  apply BitVec.eq_of_getLsbD_eq
  intro i hi
  cases i with
  | zero => simpa using h0
  | succ i =>
    have := congrArg (fun x => BitVec.getLsbD x i) h
    simpa [Nat.add_comm] using this

theorem crcShift_injective {r r' : Word} (h : crcShift r = crcShift r') : r = r' :=
  BitVec.xor_eq_zero_iff.1 (eq_zero_of_crcShift (by rw [crcShift_xor, h, BitVec.xor_self]))

theorem crcShifts_xor : ∀ (n : Nat) (r r' : Word), crcShifts n (r ^^^ r') = crcShifts n r ^^^ crcShifts n r'
  | 0, _, _ => rfl
  | n + 1, r, r' => by simp only [crcShifts, crcShift_xor, crcShifts_xor n]

theorem crcShifts_injective : ∀ (n : Nat) {r r' : Word}, crcShifts n r = crcShifts n r' → r = r'
  | 0, _, _, h => h
  | n + 1, _, _, h => crcShift_injective (crcShifts_injective n h)

/-- With its low n bits clear, n turns only shift. -/
theorem crcShifts_of_low_zero : ∀ (n : Nat) (x : Word), (∀ i < n, x.getLsbD i = false) → crcShifts n x = x >>> n
  | 0, x, _ => by simp [crcShifts]
  | n + 1, x, h => by
    have h1 : crcShift x = x >>> 1 := by
      rw [crcShift_eq, h 0 (by omega)]
      simp
    rw [crcShifts, h1, crcShifts_of_low_zero n _ (fun i hi => by simpa using h (1 + i) (by omega)),
      ← BitVec.shiftRight_add, Nat.add_comm]

end Sys2Proof.Machine
end

