-- ==== Sys2Proof/Laws/State.lean ====
section
/-! SUPPORT. One lemma per field of State per named update, each true by rfl, so that no proof unfolds an update. -/

namespace Sys2Proof.Machine

@[simp] theorem State.succeed_status (s : State) : s.succeed.status = Status.withErr s.status 0#4 := rfl
@[simp] theorem State.succeed_errpos (s : State) : s.succeed.errpos = s.errpos := rfl
@[simp] theorem State.succeed_type (s : State) : s.succeed.type = s.type := rfl
@[simp] theorem State.succeed_len (s : State) : s.succeed.len = s.len := rfl
@[simp] theorem State.succeed_crc (s : State) : s.succeed.crc = s.crc := rfl
@[simp] theorem State.succeed_src (s : State) : s.succeed.src = s.src := rfl
@[simp] theorem State.succeed_avail (s : State) : s.succeed.avail = s.avail := rfl
@[simp] theorem State.succeed_dst (s : State) : s.succeed.dst = s.dst := rfl
@[simp] theorem State.succeed_cur (s : State) : s.succeed.cur = s.cur := rfl
@[simp] theorem State.succeed_dptr (s : State) : s.succeed.dptr = s.dptr := rfl
@[simp] theorem State.succeed_crcacc (s : State) : s.succeed.crcacc = s.crcacc := rfl
@[simp] theorem State.succeed_mem (s : State) : s.succeed.mem = s.mem := rfl
@[simp] theorem State.succeed_memBytes (s : State) : s.succeed.memBytes = s.memBytes := rfl
@[simp] theorem State.succeed_pending (s : State) : s.succeed.pending = s.pending := rfl
@[simp] theorem State.succeed_replies (s : State) : s.succeed.replies = s.replies := rfl

@[simp] theorem State.raise_status (k : ErrorKind) (pos : Word) (s : State) : (s.raise k pos).status = Status.withErr s.status (errorCode k) := rfl
@[simp] theorem State.raise_errpos (k : ErrorKind) (pos : Word) (s : State) : (s.raise k pos).errpos = pos := rfl
@[simp] theorem State.raise_type (k : ErrorKind) (pos : Word) (s : State) : (s.raise k pos).type = s.type := rfl
@[simp] theorem State.raise_len (k : ErrorKind) (pos : Word) (s : State) : (s.raise k pos).len = s.len := rfl
@[simp] theorem State.raise_crc (k : ErrorKind) (pos : Word) (s : State) : (s.raise k pos).crc = s.crc := rfl
@[simp] theorem State.raise_src (k : ErrorKind) (pos : Word) (s : State) : (s.raise k pos).src = s.src := rfl
@[simp] theorem State.raise_avail (k : ErrorKind) (pos : Word) (s : State) : (s.raise k pos).avail = s.avail := rfl
@[simp] theorem State.raise_dst (k : ErrorKind) (pos : Word) (s : State) : (s.raise k pos).dst = s.dst := rfl
@[simp] theorem State.raise_cur (k : ErrorKind) (pos : Word) (s : State) : (s.raise k pos).cur = s.cur := rfl
@[simp] theorem State.raise_dptr (k : ErrorKind) (pos : Word) (s : State) : (s.raise k pos).dptr = s.dptr := rfl
@[simp] theorem State.raise_crcacc (k : ErrorKind) (pos : Word) (s : State) : (s.raise k pos).crcacc = s.crcacc := rfl
@[simp] theorem State.raise_mem (k : ErrorKind) (pos : Word) (s : State) : (s.raise k pos).mem = s.mem := rfl
@[simp] theorem State.raise_memBytes (k : ErrorKind) (pos : Word) (s : State) : (s.raise k pos).memBytes = s.memBytes := rfl
@[simp] theorem State.raise_pending (k : ErrorKind) (pos : Word) (s : State) : (s.raise k pos).pending = s.pending := rfl
@[simp] theorem State.raise_replies (k : ErrorKind) (pos : Word) (s : State) : (s.raise k pos).replies = s.replies := rfl

@[simp] theorem State.hwFault_status (f : HwFault) (s : State) : (s.hwFault f).status = Status.withHwf (Status.withErr s.status (faultCode f)) := rfl
@[simp] theorem State.hwFault_errpos (f : HwFault) (s : State) : (s.hwFault f).errpos = s.errpos := rfl
@[simp] theorem State.hwFault_type (f : HwFault) (s : State) : (s.hwFault f).type = s.type := rfl
@[simp] theorem State.hwFault_len (f : HwFault) (s : State) : (s.hwFault f).len = s.len := rfl
@[simp] theorem State.hwFault_crc (f : HwFault) (s : State) : (s.hwFault f).crc = s.crc := rfl
@[simp] theorem State.hwFault_src (f : HwFault) (s : State) : (s.hwFault f).src = s.src := rfl
@[simp] theorem State.hwFault_avail (f : HwFault) (s : State) : (s.hwFault f).avail = s.avail := rfl
@[simp] theorem State.hwFault_dst (f : HwFault) (s : State) : (s.hwFault f).dst = s.dst := rfl
@[simp] theorem State.hwFault_cur (f : HwFault) (s : State) : (s.hwFault f).cur = s.cur := rfl
@[simp] theorem State.hwFault_dptr (f : HwFault) (s : State) : (s.hwFault f).dptr = s.dptr := rfl
@[simp] theorem State.hwFault_crcacc (f : HwFault) (s : State) : (s.hwFault f).crcacc = s.crcacc := rfl
@[simp] theorem State.hwFault_mem (f : HwFault) (s : State) : (s.hwFault f).mem = s.mem := rfl
@[simp] theorem State.hwFault_memBytes (f : HwFault) (s : State) : (s.hwFault f).memBytes = s.memBytes := rfl
@[simp] theorem State.hwFault_pending (f : HwFault) (s : State) : (s.hwFault f).pending = s.pending := rfl
@[simp] theorem State.hwFault_replies (f : HwFault) (s : State) : (s.hwFault f).replies = s.replies := rfl

@[simp] theorem State.setStream_status (x : StreamState) (s : State) : (s.setStream x).status = Status.withSs s.status (streamCode x) := rfl
@[simp] theorem State.setStream_errpos (x : StreamState) (s : State) : (s.setStream x).errpos = s.errpos := rfl
@[simp] theorem State.setStream_type (x : StreamState) (s : State) : (s.setStream x).type = s.type := rfl
@[simp] theorem State.setStream_len (x : StreamState) (s : State) : (s.setStream x).len = s.len := rfl
@[simp] theorem State.setStream_crc (x : StreamState) (s : State) : (s.setStream x).crc = s.crc := rfl
@[simp] theorem State.setStream_src (x : StreamState) (s : State) : (s.setStream x).src = s.src := rfl
@[simp] theorem State.setStream_avail (x : StreamState) (s : State) : (s.setStream x).avail = s.avail := rfl
@[simp] theorem State.setStream_dst (x : StreamState) (s : State) : (s.setStream x).dst = s.dst := rfl
@[simp] theorem State.setStream_cur (x : StreamState) (s : State) : (s.setStream x).cur = s.cur := rfl
@[simp] theorem State.setStream_dptr (x : StreamState) (s : State) : (s.setStream x).dptr = s.dptr := rfl
@[simp] theorem State.setStream_crcacc (x : StreamState) (s : State) : (s.setStream x).crcacc = s.crcacc := rfl
@[simp] theorem State.setStream_mem (x : StreamState) (s : State) : (s.setStream x).mem = s.mem := rfl
@[simp] theorem State.setStream_memBytes (x : StreamState) (s : State) : (s.setStream x).memBytes = s.memBytes := rfl
@[simp] theorem State.setStream_pending (x : StreamState) (s : State) : (s.setStream x).pending = s.pending := rfl
@[simp] theorem State.setStream_replies (x : StreamState) (s : State) : (s.setStream x).replies = s.replies := rfl

@[simp] theorem State.setDelivery_status (cv term : Bool) (s : State) : (s.setDelivery cv term).status = Status.withDelivery s.status cv term := rfl
@[simp] theorem State.setDelivery_errpos (cv term : Bool) (s : State) : (s.setDelivery cv term).errpos = s.errpos := rfl
@[simp] theorem State.setDelivery_type (cv term : Bool) (s : State) : (s.setDelivery cv term).type = s.type := rfl
@[simp] theorem State.setDelivery_len (cv term : Bool) (s : State) : (s.setDelivery cv term).len = s.len := rfl
@[simp] theorem State.setDelivery_crc (cv term : Bool) (s : State) : (s.setDelivery cv term).crc = s.crc := rfl
@[simp] theorem State.setDelivery_src (cv term : Bool) (s : State) : (s.setDelivery cv term).src = s.src := rfl
@[simp] theorem State.setDelivery_avail (cv term : Bool) (s : State) : (s.setDelivery cv term).avail = s.avail := rfl
@[simp] theorem State.setDelivery_dst (cv term : Bool) (s : State) : (s.setDelivery cv term).dst = s.dst := rfl
@[simp] theorem State.setDelivery_cur (cv term : Bool) (s : State) : (s.setDelivery cv term).cur = s.cur := rfl
@[simp] theorem State.setDelivery_dptr (cv term : Bool) (s : State) : (s.setDelivery cv term).dptr = s.dptr := rfl
@[simp] theorem State.setDelivery_crcacc (cv term : Bool) (s : State) : (s.setDelivery cv term).crcacc = s.crcacc := rfl
@[simp] theorem State.setDelivery_mem (cv term : Bool) (s : State) : (s.setDelivery cv term).mem = s.mem := rfl
@[simp] theorem State.setDelivery_memBytes (cv term : Bool) (s : State) : (s.setDelivery cv term).memBytes = s.memBytes := rfl
@[simp] theorem State.setDelivery_pending (cv term : Bool) (s : State) : (s.setDelivery cv term).pending = s.pending := rfl
@[simp] theorem State.setDelivery_replies (cv term : Bool) (s : State) : (s.setDelivery cv term).replies = s.replies := rfl

@[simp] theorem State.deliver_status (s : State) (frame : Word) (ch : Decoded) : (s.deliver frame ch).status = s.status := rfl
@[simp] theorem State.deliver_errpos (s : State) (frame : Word) (ch : Decoded) : (s.deliver frame ch).errpos = s.errpos := rfl
@[simp] theorem State.deliver_type (s : State) (frame : Word) (ch : Decoded) : (s.deliver frame ch).type = ch.t.toWord := rfl
@[simp] theorem State.deliver_len (s : State) (frame : Word) (ch : Decoded) : (s.deliver frame ch).len = ch.n := rfl
@[simp] theorem State.deliver_crc (s : State) (frame : Word) (ch : Decoded) : (s.deliver frame ch).crc = ch.c := rfl
@[simp] theorem State.deliver_src (s : State) (frame : Word) (ch : Decoded) : (s.deliver frame ch).src = s.src := rfl
@[simp] theorem State.deliver_avail (s : State) (frame : Word) (ch : Decoded) : (s.deliver frame ch).avail = s.avail := rfl
@[simp] theorem State.deliver_dst (s : State) (frame : Word) (ch : Decoded) : (s.deliver frame ch).dst = s.dst := rfl
@[simp] theorem State.deliver_cur (s : State) (frame : Word) (ch : Decoded) : (s.deliver frame ch).cur = s.cur := rfl
@[simp] theorem State.deliver_dptr (s : State) (frame : Word) (ch : Decoded) : (s.deliver frame ch).dptr = frame + 8#32 := rfl
@[simp] theorem State.deliver_crcacc (s : State) (frame : Word) (ch : Decoded) : (s.deliver frame ch).crcacc = s.crcacc := rfl
@[simp] theorem State.deliver_mem (s : State) (frame : Word) (ch : Decoded) : (s.deliver frame ch).mem = s.mem := rfl
@[simp] theorem State.deliver_memBytes (s : State) (frame : Word) (ch : Decoded) : (s.deliver frame ch).memBytes = s.memBytes := rfl
@[simp] theorem State.deliver_pending (s : State) (frame : Word) (ch : Decoded) : (s.deliver frame ch).pending = s.pending := rfl
@[simp] theorem State.deliver_replies (s : State) (frame : Word) (ch : Decoded) : (s.deliver frame ch).replies = s.replies := rfl

@[simp] theorem State.resetWith_status (n : Nat) (m : Memory) : (State.resetWith n m).status = 0#32 := rfl
@[simp] theorem State.resetWith_errpos (n : Nat) (m : Memory) : (State.resetWith n m).errpos = 0#32 := rfl
@[simp] theorem State.resetWith_type (n : Nat) (m : Memory) : (State.resetWith n m).type = 0#32 := rfl
@[simp] theorem State.resetWith_len (n : Nat) (m : Memory) : (State.resetWith n m).len = 0#32 := rfl
@[simp] theorem State.resetWith_crc (n : Nat) (m : Memory) : (State.resetWith n m).crc = 0#32 := rfl
@[simp] theorem State.resetWith_src (n : Nat) (m : Memory) : (State.resetWith n m).src = 0#32 := rfl
@[simp] theorem State.resetWith_avail (n : Nat) (m : Memory) : (State.resetWith n m).avail = 0#32 := rfl
@[simp] theorem State.resetWith_dst (n : Nat) (m : Memory) : (State.resetWith n m).dst = 0#32 := rfl
@[simp] theorem State.resetWith_cur (n : Nat) (m : Memory) : (State.resetWith n m).cur = 0#32 := rfl
@[simp] theorem State.resetWith_dptr (n : Nat) (m : Memory) : (State.resetWith n m).dptr = 0#32 := rfl
@[simp] theorem State.resetWith_crcacc (n : Nat) (m : Memory) : (State.resetWith n m).crcacc = 0#32 := rfl
@[simp] theorem State.resetWith_mem (n : Nat) (m : Memory) : (State.resetWith n m).mem = m := rfl
@[simp] theorem State.resetWith_memBytes (n : Nat) (m : Memory) : (State.resetWith n m).memBytes = n := rfl
@[simp] theorem State.resetWith_pending (n : Nat) (m : Memory) : (State.resetWith n m).pending = [] := rfl
@[simp] theorem State.resetWith_replies (n : Nat) (m : Memory) : (State.resetWith n m).replies = [] := rfl

@[simp] theorem State.readReg_cmd (s : State) : s.readReg .cmd = 0#32 := rfl
@[simp] theorem State.readReg_status (s : State) : s.readReg .status = s.status := rfl
@[simp] theorem State.readReg_errpos (s : State) : s.readReg .errpos = s.errpos := rfl
@[simp] theorem State.readReg_flags (s : State) : s.readReg .flags = flagsOf s.type := rfl
@[simp] theorem State.readReg_type (s : State) : s.readReg .type = s.type := rfl
@[simp] theorem State.readReg_len (s : State) : s.readReg .len = s.len := rfl
@[simp] theorem State.readReg_crc (s : State) : s.readReg .crc = s.crc := rfl
@[simp] theorem State.readReg_src (s : State) : s.readReg .src = s.src := rfl
@[simp] theorem State.readReg_avail (s : State) : s.readReg .avail = s.avail := rfl
@[simp] theorem State.readReg_dst (s : State) : s.readReg .dst = s.dst := rfl
@[simp] theorem State.readReg_cur (s : State) : s.readReg .cur = s.cur := rfl
@[simp] theorem State.readReg_dptr (s : State) : s.readReg .dptr = s.dptr := rfl
@[simp] theorem State.readReg_crcacc (s : State) : s.readReg .crcacc = s.crcacc := rfl

@[simp] theorem State.writeReg_cmd (s : State) (v : Word) : s.writeReg .cmd v = s := rfl
@[simp] theorem State.writeReg_status (s : State) (v : Word) : s.writeReg .status v = s := rfl
@[simp] theorem State.writeReg_errpos (s : State) (v : Word) : s.writeReg .errpos v = s := rfl
@[simp] theorem State.writeReg_flags (s : State) (v : Word) : s.writeReg .flags v = s := rfl
@[simp] theorem State.writeReg_dptr (s : State) (v : Word) : s.writeReg .dptr v = s := rfl
@[simp] theorem State.writeReg_type (s : State) (v : Word) : s.writeReg .type v = { s with type := v } := rfl
@[simp] theorem State.writeReg_len (s : State) (v : Word) : s.writeReg .len v = { s with len := v } := rfl
@[simp] theorem State.writeReg_crc (s : State) (v : Word) : s.writeReg .crc v = { s with crc := v } := rfl
@[simp] theorem State.writeReg_src (s : State) (v : Word) : s.writeReg .src v = { s with src := v } := rfl
@[simp] theorem State.writeReg_avail (s : State) (v : Word) : s.writeReg .avail v = { s with avail := v } := rfl
@[simp] theorem State.writeReg_dst (s : State) (v : Word) : s.writeReg .dst v = { s with dst := v } := rfl
@[simp] theorem State.writeReg_cur (s : State) (v : Word) : s.writeReg .cur v = { s with cur := v } := rfl
@[simp] theorem State.writeReg_crcacc (s : State) (v : Word) : s.writeReg .crcacc v = { s with crcacc := v } := rfl

end Sys2Proof.Machine
end

