-- ==== Sys2Proof/Laws/Status.lean ====
section
/-! SUPPORT. The fields of STATUS after each update of STATUS (R12). -/

namespace Sys2Proof.Machine

section

variable (rv : BitVec 23) (h t c : Bool) (ss : BitVec 2) (e : BitVec 4)

@[simp] theorem Status.err_make : Status.err (Status.make rv h t c ss e) = e := by
  ext i hi
  simp only [Status.err, Status.make, BitVec.getElem_extractLsb', BitVec.getLsbD_append]
  simp [hi]

@[simp] theorem Status.ss_make : Status.ss (Status.make rv h t c ss e) = ss := by
  ext i hi
  simp only [Status.ss, Status.make, BitVec.getElem_extractLsb', BitVec.getLsbD_append]
  simp [hi]

@[simp] theorem Status.cv_make : Status.cv (Status.make rv h t c ss e) = c := by
  simp only [Status.cv, Status.make, BitVec.getLsbD_append]
  simp

@[simp] theorem Status.term_make : Status.term (Status.make rv h t c ss e) = t := by
  simp only [Status.term, Status.make, BitVec.getLsbD_append]
  simp

@[simp] theorem Status.hwf_make : Status.hwf (Status.make rv h t c ss e) = h := by
  simp only [Status.hwf, Status.make, BitVec.getLsbD_append]
  simp

@[simp] theorem Status.reserved_make : Status.reserved (Status.make rv h t c ss e) = rv := by
  ext i hi
  simp only [Status.reserved, Status.make, BitVec.getElem_extractLsb', BitVec.getLsbD_append]
  rw [if_neg (by omega), if_neg (by omega), if_neg (by omega), if_neg (by omega), if_neg (by omega)]
  rw [show 9 + i - 4 - 2 - 1 - 1 - 1 = i by omega, BitVec.getLsbD_eq_getElem]

/-- STATUS is put together from its own fields. -/
theorem Status.make_fields (w : Word) :
    Status.make (Status.reserved w) (Status.hwf w) (Status.term w) (Status.cv w) (Status.ss w) (Status.err w) = w := by
  apply BitVec.eq_of_getLsbD_eq
  intro i hi
  simp only [Status.make, Status.reserved, Status.hwf, Status.term, Status.cv, Status.ss, Status.err,
    BitVec.getLsbD_append, BitVec.getLsbD_extractLsb', BitVec.getLsbD_ofBool]
  split
  · simp_all
  split
  · rw [decide_eq_true (by omega), Bool.true_and]; congr 1; omega
  split
  · rw [show i = 6 by omega]; simp
  split
  · rw [show i = 7 by omega]; simp
  split
  · rw [show i = 8 by omega]; simp
  · rw [decide_eq_true (by omega), Bool.true_and]; congr 1; omega

/-- Two STATUS words with the same fields are the same. -/
theorem Status.ext_fields {v w : Word} (h1 : Status.reserved v = Status.reserved w) (h2 : Status.hwf v = Status.hwf w)
    (h3 : Status.term v = Status.term w) (h4 : Status.cv v = Status.cv w) (h5 : Status.ss v = Status.ss w)
    (h6 : Status.err v = Status.err w) : v = w := by
  rw [← Status.make_fields v, ← Status.make_fields w, h1, h2, h3, h4, h5, h6]

end

section

variable (w : Word) (x : BitVec 4) (y : BitVec 2) (c t : Bool)

@[simp] theorem Status.err_withErr : Status.err (Status.withErr w x) = x := by simp [Status.withErr]
@[simp] theorem Status.ss_withErr : Status.ss (Status.withErr w x) = Status.ss w := by simp [Status.withErr]
@[simp] theorem Status.cv_withErr : Status.cv (Status.withErr w x) = Status.cv w := by simp [Status.withErr]
@[simp] theorem Status.term_withErr : Status.term (Status.withErr w x) = Status.term w := by simp [Status.withErr]
@[simp] theorem Status.hwf_withErr : Status.hwf (Status.withErr w x) = Status.hwf w := by simp [Status.withErr]
@[simp] theorem Status.reserved_withErr : Status.reserved (Status.withErr w x) = Status.reserved w := by
  simp [Status.withErr]

@[simp] theorem Status.err_withSs : Status.err (Status.withSs w y) = Status.err w := by simp [Status.withSs]
@[simp] theorem Status.ss_withSs : Status.ss (Status.withSs w y) = y := by simp [Status.withSs]
@[simp] theorem Status.cv_withSs : Status.cv (Status.withSs w y) = Status.cv w := by simp [Status.withSs]
@[simp] theorem Status.term_withSs : Status.term (Status.withSs w y) = Status.term w := by simp [Status.withSs]
@[simp] theorem Status.hwf_withSs : Status.hwf (Status.withSs w y) = Status.hwf w := by simp [Status.withSs]
@[simp] theorem Status.reserved_withSs : Status.reserved (Status.withSs w y) = Status.reserved w := by
  simp [Status.withSs]

@[simp] theorem Status.err_withDelivery : Status.err (Status.withDelivery w c t) = Status.err w := by
  simp [Status.withDelivery]
@[simp] theorem Status.ss_withDelivery : Status.ss (Status.withDelivery w c t) = Status.ss w := by
  simp [Status.withDelivery]
@[simp] theorem Status.cv_withDelivery : Status.cv (Status.withDelivery w c t) = c := by simp [Status.withDelivery]
@[simp] theorem Status.term_withDelivery : Status.term (Status.withDelivery w c t) = t := by simp [Status.withDelivery]
@[simp] theorem Status.hwf_withDelivery : Status.hwf (Status.withDelivery w c t) = Status.hwf w := by
  simp [Status.withDelivery]
@[simp] theorem Status.reserved_withDelivery : Status.reserved (Status.withDelivery w c t) = Status.reserved w := by
  simp [Status.withDelivery]

@[simp] theorem Status.err_withHwf : Status.err (Status.withHwf w) = Status.err w := by simp [Status.withHwf]
@[simp] theorem Status.ss_withHwf : Status.ss (Status.withHwf w) = Status.ss w := by simp [Status.withHwf]
@[simp] theorem Status.cv_withHwf : Status.cv (Status.withHwf w) = Status.cv w := by simp [Status.withHwf]
@[simp] theorem Status.term_withHwf : Status.term (Status.withHwf w) = Status.term w := by simp [Status.withHwf]
@[simp] theorem Status.hwf_withHwf : Status.hwf (Status.withHwf w) = true := by simp [Status.withHwf]
@[simp] theorem Status.reserved_withHwf : Status.reserved (Status.withHwf w) = Status.reserved w := by
  simp [Status.withHwf]

end

end Sys2Proof.Machine
end

