-- ==== Sys2Proof/Laws/Exec.lean ====
section
/-! SUPPORT. What each command can do, said once: if it answers a next state, one of these cases holds. -/

namespace Sys2Proof.Machine

variable {s t : State}

theorem execTnew_cases (h : execTnew s = .next t) :
    (isValid (typeBytes s.type) = true ∧ t = s.succeed) ∨
    (isValid (typeBytes s.type) = false ∧ t = s.raise .invalidChunkType 0#32) := by
  unfold execTnew at h
  split at h <;> rename_i hk <;> cases h
  · obtain ⟨rfl, hv⟩ := constructFromBytes_error hk
    exact .inr ⟨hv, rfl⟩
  · exact .inl ⟨(constructFromBytes_ok hk).2, rfl⟩

theorem execTparse_cases (h : execTparse s = .next t) :
    (s.bufferInside = false ∧ t = s.hwFault .bounds) ∨
    (s.bufferInside = true ∧ (s.avail.toNat ≠ 4 ∨ isValid (quadAt s.buffer 0) = false) ∧
      t = s.raise .invalidChunkType 0#32) ∨
    (s.bufferInside = true ∧ s.avail.toNat = 4 ∧ isValid (quadAt s.buffer 0) = true ∧
      t = { s with type := (quadAt s.buffer 0).toWord }.succeed) := by
  unfold execTparse at h
  split_ifs at h with h1 h2
  · cases h
    exact .inl ⟨h1, rfl⟩
  · cases h
    exact .inr (.inl ⟨by simpa using h1, .inl h2, rfl⟩)
  · split at h <;> rename_i hk <;> cases h
    · obtain ⟨rfl, hv⟩ := constructFromBytes_error hk
      exact .inr (.inl ⟨by simpa using h1, .inr hv, rfl⟩)
    · obtain ⟨rfl, hv⟩ := constructFromBytes_ok hk
      exact .inr (.inr ⟨by simpa using h1, not_not.mp h2, hv, rfl⟩)

theorem execCrci_cases (h : execCrci s = .next t) : t = { s with crcacc := crcOnes }.succeed := by
  cases h; rfl

theorem execCrcb_cases {b : Byte} (h : execCrcb b s = .next t) :
    t = { s with crcacc := crcUpdate s.crcacc b }.succeed := by
  cases h; rfl

theorem execCrct_cases (h : execCrct s = .next t) :
    t = { s with crcacc := crcFeed s.crcacc (typeBytes s.type).bytes }.succeed := by
  cases h; rfl

theorem execCrcm_cases (h : execCrcm s = .next t) :
    (s.payloadInside = false ∧ t = s.hwFault .bounds) ∨
    (s.payloadInside = true ∧ t = { s with crcacc := crcFeed s.crcacc s.payload }.succeed) := by
  unfold execCrcm at h
  split_ifs at h with h1 <;> cases h
  · exact .inl ⟨h1, rfl⟩
  · exact .inr ⟨by simpa using h1, rfl⟩

theorem execCrcf_cases (h : execCrcf s = .next t) : t = { s with crc := s.crcacc ^^^ crcOnes }.succeed := by
  cases h; rfl

theorem execCrcg_cases (h : execCrcg s = .next t) :
    (s.payloadInside = false ∧ t = s.hwFault .bounds) ∨
    (s.payloadInside = true ∧ t = { s with crc := chunkCrc (typeBytes s.type) s.payload }.succeed) := by
  unfold execCrcg at h
  split_ifs at h with h1 <;> cases h
  · exact .inl ⟨h1, rfl⟩
  · exact .inr ⟨by simpa using h1, rfl⟩

theorem execCrcv_cases (h : execCrcv s = .next t) :
    (s.payloadInside = false ∧ t = s.hwFault .bounds) ∨
    (s.payloadInside = true ∧ chunkCrc (typeBytes s.type) s.payload ≠ s.crc ∧ t = s.raise .crcMismatch 0#32) ∨
    (s.payloadInside = true ∧ chunkCrc (typeBytes s.type) s.payload = s.crc ∧ t = s.succeed) := by
  unfold execCrcv at h
  split_ifs at h with h1 h2 <;> cases h
  · exact .inl ⟨h1, rfl⟩
  · exact .inr (.inl ⟨by simpa using h1, h2, rfl⟩)
  · exact .inr (.inr ⟨by simpa using h1, not_not.mp h2, rfl⟩)

theorem execCenc_cases (h : execCenc s = .next t) :
    ((s.payloadInside = false ∨ s.frameInside = false) ∧ t = s.hwFault .bounds) ∨
    (s.payloadInside = true ∧ s.frameInside = true ∧ s.overlapping = true ∧ t = s.hwFault .overlap) ∨
    (s.payloadInside = true ∧ s.frameInside = true ∧ s.overlapping = false ∧
      t = { s with
        mem := s.mem.writeBytes s.dst.toNat (serialize (typeBytes s.type) s.payload)
        crc := chunkCrc (typeBytes s.type) s.payload
        dst := s.dst + 12#32 + s.len }.succeed) := by
  unfold execCenc at h
  split_ifs at h with h1 h2 h3 <;> cases h
  · exact .inl ⟨.inl h1, rfl⟩
  · exact .inl ⟨.inr h2, rfl⟩
  · exact .inr (.inl ⟨by simpa using h1, by simpa using h2, h3, rfl⟩)
  · exact .inr (.inr ⟨by simpa using h1, by simpa using h2, by simpa using h3, rfl⟩)

theorem execCdec_cases (h : execCdec s = .next t) :
    (s.bufferInside = false ∧ t = s.hwFault .bounds) ∨
    (∃ k, s.bufferInside = true ∧ decodeChunk s.buffer = .error k ∧ t = (s.setDelivery false false).raise k 0#32) ∨
    (∃ ch, s.bufferInside = true ∧ decodeChunk s.buffer = .ok ch ∧
      t = ((s.deliver s.src ch).setDelivery true (decide (ch.t = iend))).succeed) := by
  unfold execCdec at h
  split_ifs at h with h1
  · cases h
    exact .inl ⟨h1, rfl⟩
  · split at h <;> rename_i hk <;> cases h
    · exact .inr (.inl ⟨_, by simpa using h1, hk, rfl⟩)
    · exact .inr (.inr ⟨_, by simpa using h1, hk, rfl⟩)

theorem execSigw_cases (h : execSigw s = .next t) :
    (s.sigInside = false ∧ t = s.hwFault .bounds) ∨
    (s.sigInside = true ∧ t = { s with mem := s.mem.writeBytes s.dst.toNat sig, dst := s.dst + 8#32 }.succeed) := by
  unfold execSigw at h
  split_ifs at h with h1 <;> cases h
  · exact .inl ⟨h1, rfl⟩
  · exact .inr ⟨by simpa using h1, rfl⟩

theorem execSopen_cases (h : execSopen s = .next t) :
    (s.bufferInside = false ∧ t = s.hwFault .bounds) ∨
    (s.bufferInside = true ∧ s.signatureAhead = true ∧
      t = ({ s.setDelivery false false with cur := 8#32 }.setStream .loop).succeed) ∨
    (s.bufferInside = true ∧ s.signatureAhead = false ∧
      t = ((s.setDelivery false false).setStream .fail).raise .badSignature 0#32) := by
  unfold execSopen at h
  split_ifs at h with h1 h2 <;> cases h
  · exact .inl ⟨h1, rfl⟩
  · exact .inr (.inl ⟨by simpa using h1, h2, rfl⟩)
  · exact .inr (.inr ⟨by simpa using h1, by simpa using h2, rfl⟩)

theorem execSnext_cases (h : execSnext s = .next t) :
    (Status.ss s.status ≠ streamCode .loop ∧ t = s.hwFault .badState) ∨
    (Status.ss s.status = streamCode .loop ∧ (s.bufferInside = false ∨ s.avail.toNat < s.cur.toNat) ∧
      t = s.hwFault .bounds) ∨
    (Status.ss s.status = streamCode .loop ∧ s.bufferInside = true ∧ s.cur = s.avail ∧
      t = ((s.setStream .done).setDelivery false false).succeed) ∨
    (∃ k, Status.ss s.status = streamCode .loop ∧ s.bufferInside = true ∧ s.cur.toNat < s.avail.toNat ∧
      decodeChunk s.rest = .error k ∧ t = ((s.setStream .fail).setDelivery false false).raise k s.cur) ∨
    (∃ ch, Status.ss s.status = streamCode .loop ∧ s.bufferInside = true ∧ s.cur.toNat < s.avail.toNat ∧
      decodeChunk s.rest = .ok ch ∧
      t = (({ s.deliver (s.src + s.cur) ch with cur := s.cur + 12#32 + ch.n }.setStream (streamAfter ch.t)).setDelivery
        true (decide (ch.t = iend))).succeed) := by
  unfold execSnext at h
  split_ifs at h with h1 h2 h3 h4
  · cases h
    exact .inl ⟨h1, rfl⟩
  · cases h
    exact .inr (.inl ⟨not_not.mp h1, .inl h2, rfl⟩)
  · cases h
    exact .inr (.inl ⟨not_not.mp h1, .inr h3, rfl⟩)
  · cases h
    exact .inr (.inr (.inl ⟨not_not.mp h1, by simpa using h2, h4, rfl⟩))
  · have hlt : s.cur.toNat < s.avail.toNat := by
      have : s.cur.toNat ≠ s.avail.toNat := fun he => h4 (BitVec.eq_of_toNat_eq he)
      omega
    split at h <;> rename_i hk <;> cases h
    · exact .inr (.inr (.inr (.inl ⟨_, not_not.mp h1, by simpa using h2, hlt, hk, rfl⟩)))
    · exact .inr (.inr (.inr (.inr ⟨_, not_not.mp h1, by simpa using h2, hlt, hk, rfl⟩)))

end Sys2Proof.Machine
end

