-- ==== Sys2Proof/Laws/Host.lean ====
section
/-! SUPPORT. Register numbers, host writes as events, runs of events, and the bound in the decode loop. -/

namespace Sys2Proof

@[simp] theorem Reg.ofNumber_number (r : Reg) : Reg.ofNumber r.number = some r := by cases r <;> rfl

/-- A number names a register exactly when it is at most 12 (R10). -/
theorem Reg.ofNumber_eq_none_iff {n : Nat} : Reg.ofNumber n = none ↔ 12 < n := by
  constructor
  · intro h
    by_contra hn
    have hle : n ≤ 12 := by omega
    interval_cases n <;> cases h
  · intro h
    obtain ⟨k, rfl⟩ := Nat.exists_eq_add_of_le' h
    rfl

namespace Machine

/-- A write line for a register other than CMD writes it (R26, R70). -/
theorem perform_asmWr {r : Reg} (v : Word) (s : State) (h : r ≠ .cmd) :
    perform (asmWr r v) s = .next (s.writeReg r v) := by
  simp [perform, asmWr, performHost, hostWriteReg, h]

/-- Events one after the other. -/
theorem performAll_append (es fs : List Event) : ∀ s : State, performAll (es ++ fs) s =
    match performAll es s with
    | .next t => performAll fs t
    | .fault f => .fault f
    | .refused r => .refused r := by
  induction es with
  | nil => intro s; rfl
  | cons e es ih =>
    intro s
    simp only [List.cons_append, performAll]
    cases perform e s <;> simp [ih]

/-- A chunk that decodes takes at least 12 bytes of what was left. -/
theorem length_of_decodeChunk_drop {B : Bytes} {cur : Nat} {ch : Decoded} (h : decodeChunk (B.drop cur) = .ok ch) :
    cur + 12 + ch.n.toNat ≤ B.length := by
  have := (decodeChunk_ok h).1
  simp only [List.length_drop] at this
  omega

/-- The bound on the turns of the decode loop is never reached: any two large enough bounds give the same result. -/
theorem decodeLoop_bound (B : Bytes) : ∀ (k k' cur : Nat) (L : List Chunk), B.length - cur < k → B.length - cur < k' →
    decodeLoop B k cur L = decodeLoop B k' cur L := by
  intro k
  induction k with
  | zero => intro k' cur L h; omega
  | succ k ih =>
    intro k' cur L h h'
    obtain ⟨j, rfl⟩ : ∃ j, k' = j + 1 := ⟨k' - 1, by omega⟩
    simp only [decodeLoop]
    split
    · rfl
    cases hd : decodeChunk (B.drop cur) with
    | error e => rfl
    | ok ch =>
      have := length_of_decodeChunk_drop hd
      simp only
      split
      · rfl
      · exact ih _ _ _ (by omega) (by omega)

end Machine

end Sys2Proof
end

