-- ==== Sys2Proof/Laws/Memory.lean ====
section
/-! SUPPORT. MEM: a read after a write, the canonical form under every operation, and equal contents are equal lists
(R22, R46). -/

namespace Sys2Proof.Machine

/-! ### Canonical lists -/

/-- Every listed address is above `lo`. -/
theorem Memory.lt_of_wfFrom : ∀ {m : Memory} {lo : Nat}, Memory.wfFrom (some lo) m = true → ∀ c ∈ m, lo < c.1
  | [], _, _ => by simp
  | (a, b) :: m, lo, h => by
    simp only [Memory.wfFrom, Bool.and_eq_true, decide_eq_true_eq] at h
    obtain ⟨⟨hlo, -⟩, hm⟩ := h
    intro c hc
    rcases List.mem_cons.mp hc with rfl | hc
    · exact hlo
    · exact lt_trans hlo (Memory.lt_of_wfFrom hm c hc)

/-- A lower bound can be lowered, or dropped. -/
theorem Memory.wfFrom_mono {m : Memory} {lo lo' : Nat} (hl : lo' ≤ lo) (h : Memory.wfFrom (some lo) m = true) :
    Memory.wfFrom (some lo') m = true := by
  cases m with
  | nil => rfl
  | cons c m =>
    obtain ⟨a, b⟩ := c
    simp only [Memory.wfFrom, Bool.and_eq_true, decide_eq_true_eq] at h ⊢
    exact ⟨⟨lt_of_le_of_lt hl h.1.1, h.1.2⟩, h.2⟩

theorem Memory.wf_of_wfFrom {m : Memory} {lo : Nat} (h : Memory.wfFrom (some lo) m = true) : m.wf = true := by
  cases m with
  | nil => rfl
  | cons c m =>
    obtain ⟨a, b⟩ := c
    simp only [Memory.wf, Memory.wfFrom, Bool.and_eq_true, decide_eq_true_eq] at h ⊢
    exact ⟨h.1.2, h.2⟩

theorem Memory.wf_cons {a : Nat} {b : Byte} {m : Memory} :
    Memory.wf ((a, b) :: m) = true ↔ b ≠ Config.unlistedByte ∧ Memory.wfFrom (some a) m = true := by
  simp [Memory.wf, Memory.wfFrom]

@[simp] theorem Memory.wf_nil : Memory.wf [] = true := rfl

/-- An address below every listed one reads as an unlisted one. -/
theorem Memory.read_of_lt : ∀ {m : Memory} {a : Nat}, (∀ c ∈ m, a < c.1) → m.read a = Config.unlistedByte
  | [], _, _ => rfl
  | (a', b) :: m, a, h => by
    have h1 : a' ≠ a := (ne_of_lt (h (a', b) (by simp))).symm
    simp only [Memory.read, if_neg h1]
    exact Memory.read_of_lt (fun c hc => h c (by simp [hc]))

/-! ### Reads after writes -/

/-- A read after a write to the same address gives the byte written. -/
theorem Memory.read_write_same : ∀ {m : Memory} {lo : Option Nat} (a : Nat) (b : Byte),
    Memory.wfFrom lo m = true → (m.write a b).read a = b
  | [], _, a, b, _ => by
    simp only [Memory.write]
    split <;> simp_all [Memory.read]
  | (a', b') :: m, lo, a, b, h => by
    have hm : Memory.wfFrom (some a') m = true := by
      cases lo <;> simp [Memory.wfFrom] at h <;> exact h.2
    simp only [Memory.write]
    split_ifs with h1 h2 h3 h4
    · subst h2
      exact Memory.read_of_lt (by
        intro c hc
        rcases List.mem_cons.mp hc with rfl | hc
        · exact h1
        · exact lt_trans h1 (Memory.lt_of_wfFrom hm c hc))
    · simp [Memory.read]
    · subst h3; subst h4
      exact Memory.read_of_lt (Memory.lt_of_wfFrom hm)
    · simp [Memory.read]
    · simp only [Memory.read, if_neg (Ne.symm h3)]
      exact Memory.read_write_same a b hm

/-- A write leaves every other address alone. -/
theorem Memory.read_write_other : ∀ (m : Memory) {a x : Nat} (b : Byte), x ≠ a → (m.write a b).read x = m.read x
  | [], a, x, b, h => by
    simp only [Memory.write]
    split <;> simp [Memory.read, Ne.symm h]
  | (a', b') :: m, a, x, b, h => by
    simp only [Memory.write]
    split_ifs with h1 h2 h3 h4
    · rfl
    · simp [Memory.read, Ne.symm h]
    · subst h3; simp [Memory.read, Ne.symm h]
    · subst h3; simp [Memory.read, Ne.symm h]
    · simp only [Memory.read]
      split
      · rfl
      · exact Memory.read_write_other m b h

/-! ### The canonical form is kept -/

theorem Memory.wfFrom_write : ∀ {m : Memory} {lo a : Nat} (b : Byte), Memory.wfFrom (some lo) m = true → lo < a →
    Memory.wfFrom (some lo) (m.write a b) = true
  | [], lo, a, b, _, hl => by
    simp only [Memory.write]
    split <;> simp_all [Memory.wfFrom]
  | (a', b') :: m, lo, a, b, h, hl => by
    simp only [Memory.wfFrom, Bool.and_eq_true, decide_eq_true_eq] at h
    obtain ⟨⟨hlo, hb⟩, hm⟩ := h
    simp only [Memory.write]
    split_ifs with h1 h2 h3 h4
    · simp [Memory.wfFrom, hlo, hb, hm]
    · simp [Memory.wfFrom, hl, h1, h2, hb, hm]
    · subst h3
      exact Memory.wfFrom_mono (le_of_lt hlo) hm
    · subst h3
      simp [Memory.wfFrom, hlo, h4, hm]
    · simp only [Memory.wfFrom, Bool.and_eq_true, decide_eq_true_eq]
      exact ⟨⟨hlo, hb⟩, Memory.wfFrom_write b hm (by omega)⟩

/-- A write keeps the canonical form. -/
theorem Memory.wf_write {m : Memory} (a : Nat) (b : Byte) (h : m.wf = true) : (m.write a b).wf = true := by
  cases m with
  | nil =>
    simp only [Memory.write]
    split <;> simp_all [Memory.wf, Memory.wfFrom]
  | cons c m =>
    obtain ⟨a', b'⟩ := c
    obtain ⟨hb, hm⟩ := Memory.wf_cons.mp h
    simp only [Memory.write]
    split_ifs with h1 h2 h3 h4
    · exact h
    · simp [Memory.wf_cons, Memory.wfFrom, h1, h2, hb, hm]
    · exact Memory.wf_of_wfFrom hm
    · subst h3
      exact Memory.wf_cons.mpr ⟨h4, hm⟩
    · exact Memory.wf_cons.mpr ⟨hb, Memory.wfFrom_write b hm (by omega)⟩

theorem Memory.inside_iff {n : Nat} {m : Memory} : m.inside n = true ↔ ∀ c ∈ m, c.1 < n := by
  simp [Memory.inside]

theorem Memory.mem_write : ∀ {m : Memory} {a : Nat} {b : Byte} {c : Host.Cell}, c ∈ m.write a b → c ∈ m ∨ c = (a, b)
  | [], a, b, c, h => by
    simp only [Memory.write] at h
    split at h <;> simp_all
  | (a', b') :: m, a, b, c, h => by
    simp only [Memory.write] at h
    split_ifs at h with h1 h2 h3 h4
    · exact .inl h
    · rcases List.mem_cons.mp h with h | h
      · exact .inr h
      · exact .inl h
    · exact .inl (List.mem_cons_of_mem _ h)
    · rcases List.mem_cons.mp h with h | h
      · exact .inr h
      · exact .inl (List.mem_cons_of_mem _ h)
    · rcases List.mem_cons.mp h with h | h
      · exact .inl (h ▸ List.mem_cons_self ..)
      · rcases Memory.mem_write h with h | h
        · exact .inl (List.mem_cons_of_mem _ h)
        · exact .inr h

/-- A write inside MEM lists nothing outside it. -/
theorem Memory.inside_write {m : Memory} {n a : Nat} (b : Byte) (h : m.inside n = true) (ha : a < n) :
    (m.write a b).inside n = true := by
  rw [Memory.inside_iff] at h ⊢
  intro c hc
  rcases Memory.mem_write hc with hc | rfl
  · exact h c hc
  · exact ha

/-- An address outside a memory of n bytes reads as an unlisted one. -/
theorem Memory.read_outside {m : Memory} {n a : Nat} (h : m.inside n = true) (ha : n ≤ a) :
    m.read a = Config.unlistedByte := by
  rw [Memory.inside_iff] at h
  induction m with
  | nil => rfl
  | cons c m ih =>
    obtain ⟨a', b⟩ := c
    have h1 : a' < n := h (a', b) (by simp)
    simp only [Memory.read, if_neg (show a' ≠ a by omega)]
    exact ih (fun c hc => h c (by simp [hc]))

/-! ### Equal contents are equal lists -/

theorem Memory.read_ne_of_mem : ∀ {m : Memory} {lo : Option Nat}, Memory.wfFrom lo m = true → ∀ c ∈ m,
    m.read c.1 = c.2 ∧ c.2 ≠ Config.unlistedByte
  | [], _, _ => by simp
  | (a', b') :: m, lo, h => by
    have hm : Memory.wfFrom (some a') m = true := by
      cases lo <;> simp [Memory.wfFrom] at h <;> exact h.2
    have hb : b' ≠ Config.unlistedByte := by
      cases lo <;> simp [Memory.wfFrom] at h
      · exact h.1
      · exact h.1.2
    intro c hc
    rcases List.mem_cons.mp hc with rfl | hc
    · simp [Memory.read, hb]
    · have h1 := Memory.lt_of_wfFrom hm c hc
      simp only [Memory.read, if_neg (ne_of_lt h1)]
      exact Memory.read_ne_of_mem hm c hc

/-- Two canonical lists that read alike everywhere are equal. -/
theorem Memory.ext_read : ∀ {m m' : Memory} {lo lo' : Option Nat}, Memory.wfFrom lo m = true →
    Memory.wfFrom lo' m' = true → (∀ a, m.read a = m'.read a) → m = m'
  | [], [], _, _, _, _, _ => rfl
  | [], (a, b) :: m', _, _, _, h', hr => by
    have h1 := Memory.read_ne_of_mem h' (a, b) (by simp)
    have h2 := hr a
    rw [h1.1] at h2
    exact absurd h2.symm h1.2
  | (a, b) :: m, [], _, _, h, _, hr => by
    have h1 := Memory.read_ne_of_mem h (a, b) (by simp)
    have h2 := hr a
    rw [h1.1] at h2
    exact absurd h2 h1.2
  | (a, b) :: m, (a', b') :: m', lo, lo', h, h', hr => by
    have hm : Memory.wfFrom (some a) m = true := by
      cases lo <;> simp [Memory.wfFrom] at h <;> exact h.2
    have hm' : Memory.wfFrom (some a') m' = true := by
      cases lo' <;> simp [Memory.wfFrom] at h' <;> exact h'.2
    have h1 := Memory.read_ne_of_mem h (a, b) (by simp)
    have h1' := Memory.read_ne_of_mem h' (a', b') (by simp)
    have haa : a = a' := by
      rcases lt_trichotomy a a' with hlt | heq | hlt
      · exfalso
        have h2 := hr a
        rw [h1.1, Memory.read_of_lt (m := (a', b') :: m')] at h2
        · exact h1.2 h2
        · intro c hc
          rcases List.mem_cons.mp hc with rfl | hc
          · exact hlt
          · exact lt_trans hlt (Memory.lt_of_wfFrom hm' c hc)
      · exact heq
      · exfalso
        have h2 := (hr a').symm
        rw [h1'.1, Memory.read_of_lt (m := (a, b) :: m)] at h2
        · exact h1'.2 h2
        · intro c hc
          rcases List.mem_cons.mp hc with rfl | hc
          · exact hlt
          · exact lt_trans hlt (Memory.lt_of_wfFrom hm c hc)
    subst haa
    have hbb : b = b' := by
      have h2 := hr a
      rw [h1.1, h1'.1] at h2
      exact h2
    subst hbb
    rw [Memory.ext_read hm hm']
    intro x
    by_cases hx : a = x
    · subst hx
      rw [Memory.read_of_lt (Memory.lt_of_wfFrom hm), Memory.read_of_lt (Memory.lt_of_wfFrom hm')]
    · have h2 := hr x
      simpa only [Memory.read, if_neg hx] using h2

/-! ### Runs of bytes -/

@[simp] theorem Memory.length_readBytes (m : Memory) : ∀ a n, (m.readBytes a n).length = n
  | _, 0 => rfl
  | a, n + 1 => by simp [Memory.readBytes, Memory.length_readBytes m (a + 1) n]

theorem Memory.getElem_readBytes (m : Memory) : ∀ (a n i : Nat) (h : i < (m.readBytes a n).length),
    (m.readBytes a n)[i] = m.read (a + i)
  | _, 0, _, h => by simp at h
  | a, n + 1, 0, _ => rfl
  | a, n + 1, i + 1, h => by
    simp only [Memory.readBytes, List.getElem_cons_succ]
    rw [Memory.getElem_readBytes m (a + 1) n i, Nat.add_assoc, Nat.add_comm 1 i]

/-- The byte at index i of `MemRead(a, n)` is MEM[a+i]. -/
theorem Memory.getD_readBytes (m : Memory) (a n i : Nat) (h : i < n) : (m.readBytes a n).getD i 0#8 = m.read (a + i) := by
  have h' : i < (m.readBytes a n).length := by simpa using h
  rw [List.getD_eq_getElem?_getD, List.getElem?_eq_getElem h', Option.getD_some, Memory.getElem_readBytes]

theorem Memory.readBytes_add (m : Memory) : ∀ a n k, m.readBytes a (n + k) = m.readBytes a n ++ m.readBytes (a + n) k
  | a, 0, k => by simp [Memory.readBytes]
  | a, n + 1, k => by
    rw [show n + 1 + k = (n + k) + 1 by omega]
    simp only [Memory.readBytes, List.cons_append, List.cons.injEq, true_and]
    rw [Memory.readBytes_add m (a + 1) n k, show a + 1 + n = a + (n + 1) by omega]

theorem Memory.drop_readBytes (m : Memory) (a n k : Nat) (h : k ≤ n) :
    (m.readBytes a n).drop k = m.readBytes (a + k) (n - k) := by
  obtain ⟨j, rfl⟩ := Nat.exists_eq_add_of_le h
  rw [Memory.readBytes_add, List.drop_append_of_le_length (by simp), List.drop_of_length_le (by simp)]
  simp

theorem Memory.take_readBytes (m : Memory) (a n k : Nat) (h : k ≤ n) : (m.readBytes a n).take k = m.readBytes a k := by
  obtain ⟨j, rfl⟩ := Nat.exists_eq_add_of_le h
  rw [Memory.readBytes_add, List.take_append_of_le_length (by simp), List.take_of_length_le (by simp)]

/-- Memories that agree on a region read alike there. -/
theorem Memory.readBytes_congr (m m' : Memory) : ∀ a n, (∀ x, a ≤ x → x < a + n → m.read x = m'.read x) →
    m.readBytes a n = m'.readBytes a n
  | _, 0, _ => rfl
  | a, n + 1, h => by
    simp only [Memory.readBytes]
    rw [h a (le_refl a) (by omega), Memory.readBytes_congr m m' (a + 1) n (fun x h1 h2 => h x (by omega) (by omega))]

theorem Memory.wf_writeBytes : ∀ (s : Bytes) {m : Memory} (a : Nat), m.wf = true → (m.writeBytes a s).wf = true
  | [], _, _, h => h
  | b :: s, _, a, h => Memory.wf_writeBytes s (a + 1) (Memory.wf_write a b h)

theorem Memory.inside_writeBytes : ∀ (s : Bytes) {m : Memory} {n : Nat} (a : Nat), m.inside n = true → a + s.length ≤ n →
    (m.writeBytes a s).inside n = true
  | [], _, _, _, h, _ => h
  | b :: s, m, n, a, h, ha => by
    simp only [List.length_cons] at ha
    exact Memory.inside_writeBytes s (a + 1) (Memory.inside_write b h (by omega)) (by omega)

/-- `MemWrite(a, s)` leaves every byte outside `a .. a+|s|-1` alone. -/
theorem Memory.read_writeBytes_outside : ∀ (s : Bytes) (m : Memory) (a x : Nat), x < a ∨ a + s.length ≤ x →
    (m.writeBytes a s).read x = m.read x
  | [], _, _, _, _ => rfl
  | b :: s, m, a, x, h => by
    simp only [List.length_cons] at h
    simp only [Memory.writeBytes]
    rw [Memory.read_writeBytes_outside s _ (a + 1) x (by omega), Memory.read_write_other m b (by omega)]

/-- `MemRead(a, |s|)` after `MemWrite(a, s)` is s. -/
theorem Memory.readBytes_writeBytes_same : ∀ (s : Bytes) {m : Memory} (a : Nat), m.wf = true →
    (m.writeBytes a s).readBytes a s.length = s
  | [], _, _, _ => rfl
  | b :: s, m, a, h => by
    simp only [Memory.writeBytes, List.length_cons, Memory.readBytes]
    rw [Memory.readBytes_writeBytes_same s (a + 1) (Memory.wf_write a b h),
      Memory.read_writeBytes_outside s _ (a + 1) a (by omega), Memory.read_write_same a b h]

/-- A run of bytes that shares none with what is written reads as before. -/
theorem Memory.readBytes_writeBytes_outside (s : Bytes) (m : Memory) (a x n : Nat) (h : x + n ≤ a ∨ a + s.length ≤ x ∨ n = 0) :
    (m.writeBytes a s).readBytes x n = m.readBytes x n := by
  apply Memory.readBytes_congr
  intro y h1 h2
  exact Memory.read_writeBytes_outside s m a y (by omega)

/-- The memory made of listed bytes is canonical and lies inside MEM. -/
theorem Memory.wf_ofCells (n : Nat) (cells : List Host.Cell) :
    (Memory.ofCells n cells).wf = true ∧ (Memory.ofCells n cells).inside n = true := by
  suffices h : ∀ (m : Memory), m.wf = true ∧ m.inside n = true →
      (cells.foldl (fun m c => if c.1 < n then m.write c.1 c.2 else m) m).wf = true ∧
      Memory.inside n (cells.foldl (fun m c => if c.1 < n then m.write c.1 c.2 else m) m) = true from
    h [] ⟨rfl, rfl⟩
  induction cells with
  | nil => exact fun m h => h
  | cons c cells ih =>
    intro m h
    simp only [List.foldl_cons]
    split
    · exact ih _ ⟨Memory.wf_write _ _ h.1, Memory.inside_write _ h.2 ‹_›⟩
    · exact ih m h

end Sys2Proof.Machine
end

