-- ==== Sys2Proof/Laws/Ops.lean ====
section
/-! SUPPORT. What the three ways a command ends leave behind (R183, R184), and the region checks as inequalities (R48). -/

namespace Sys2Proof.Machine

variable (s : State)

/-- `ok` after writes to the registers of `written`. -/
theorem State.succeeded_succeed {s u : State} {written : List Reg} (hs : u.status = s.status)
    (hr : s.regsKept u (.status :: written)) (hw : s.worldKept u) : s.succeeded u.succeed written := by
  refine ⟨⟨?_, ?_, ?_, ?_, ?_, ?_⟩, ?_, hw⟩ <;> try simp [hs]
  intro r h
  have := hr r h
  cases r <;> simp_all

/-- `raise` with no other write. -/
theorem State.raised_raise (k : ErrorKind) (pos : Word) : s.raised (s.raise k pos) (errorCode k) pos := by
  refine ⟨⟨?_, ?_, ?_, ?_, ?_, ?_⟩, rfl, ?_, fun _ => rfl, rfl, rfl, rfl⟩ <;> try simp
  intro r h
  cases r <;> simp_all

/-- `fault`. -/
theorem State.faulted_hwFault (f : HwFault) : s.faulted (s.hwFault f) (faultCode f) := by
  refine ⟨⟨?_, ?_, ?_, ?_, ?_, ?_⟩, ?_, fun _ => rfl, rfl, rfl, rfl⟩ <;> try simp
  intro r h
  cases r <;> simp_all

theorem State.regionInside_iff (base count : Nat) : s.regionInside base count = true ↔ base + count ≤ s.memBytes := by
  simp [State.regionInside]

theorem State.regionInside_false (base count : Nat) :
    s.regionInside base count = false ↔ s.memBytes < base + count := by
  simp [State.regionInside]

theorem State.bufferInside_iff : s.bufferInside = true ↔ s.src.toNat + s.avail.toNat ≤ s.memBytes :=
  s.regionInside_iff _ _

theorem State.bufferInside_false : s.bufferInside = false ↔ s.memBytes < s.src.toNat + s.avail.toNat :=
  s.regionInside_false _ _

theorem State.payloadInside_iff : s.payloadInside = true ↔ s.src.toNat + s.len.toNat ≤ s.memBytes :=
  s.regionInside_iff _ _

theorem State.payloadInside_false : s.payloadInside = false ↔ s.memBytes < s.src.toNat + s.len.toNat :=
  s.regionInside_false _ _

theorem State.frameInside_iff : s.frameInside = true ↔ s.dst.toNat + 12 + s.len.toNat ≤ s.memBytes := by
  rw [State.frameInside, State.regionInside_iff, Nat.add_assoc]

theorem State.frameInside_false : s.frameInside = false ↔ s.memBytes < s.dst.toNat + 12 + s.len.toNat := by
  rw [State.frameInside, State.regionInside_false, Nat.add_assoc]

theorem State.sigInside_iff : s.sigInside = true ↔ s.dst.toNat + 8 ≤ s.memBytes := s.regionInside_iff _ _

theorem State.sigInside_false : s.sigInside = false ↔ s.memBytes < s.dst.toNat + 8 := s.regionInside_false _ _

theorem State.overlapping_iff : s.overlapping = true ↔
    0 < s.len.toNat ∧ s.src.toNat < s.dst.toNat + 12 + s.len.toNat ∧ s.dst.toNat < s.src.toNat + s.len.toNat := by
  simp [State.overlapping, and_assoc]

theorem State.overlapping_false : s.overlapping = false ↔
    s.len.toNat = 0 ∨ s.dst.toNat + 12 + s.len.toNat ≤ s.src.toNat ∨ s.src.toNat + s.len.toNat ≤ s.dst.toNat := by
  have h := State.overlapping_iff s
  cases hb : s.overlapping <;> rw [hb] at h <;> simp at h ⊢ <;> omega

theorem State.signatureAhead_iff :
    s.signatureAhead = true ↔ 8 ≤ s.avail.toNat ∧ s.mem.readBytes s.src.toNat 8 = sig := by
  simp [State.signatureAhead]

theorem State.signatureAhead_false :
    s.signatureAhead = false ↔ s.avail.toNat < 8 ∨ s.mem.readBytes s.src.toNat 8 ≠ sig := by
  simp only [State.signatureAhead, Bool.and_eq_false_iff, decide_eq_false_iff_not, not_le, ne_eq]

theorem State.memoryLegal_iff : s.memoryLegal = true ↔
    1 ≤ s.memBytes ∧ s.memBytes ≤ 2 ^ 32 ∧ s.mem.wf = true ∧ Memory.inside s.memBytes s.mem = true := by
  simp only [State.memoryLegal, Bool.and_eq_true, decide_eq_true_eq, and_assoc]

end Sys2Proof.Machine
end

