-- ==== Sys2Proof/Laws/PerInstr.lean ====
section
/-! SUPPORT. What holds of every command as syntax, one lemma per command: its word is laid out as R64 and R65 say. -/

namespace Sys2Proof.Laws

/-- The word of a command: opcode in bits 31:24, zeros in 23:8, and in 7:0 imm8 or zero (R64, R65). -/
def Encoding.Statement (i : Instr) : Prop :=
  i.wellFormed = true ∧ opField (encode i) = opcodeOf i ∧ (encode i).extractLsb' 8 16 = 0#16 ∧
    immField (encode i) = lowByteOf i

theorem Encoding.tnew : Encoding.Statement .tnew := by unfold Encoding.Statement; decide

theorem Encoding.tparse : Encoding.Statement .tparse := by unfold Encoding.Statement; decide

theorem Encoding.crci : Encoding.Statement .crci := by unfold Encoding.Statement; decide

theorem Encoding.crcb (imm8 : Byte) : Encoding.Statement (.crcb imm8) := by
  revert imm8
  unfold Encoding.Statement
  decide

theorem Encoding.crct : Encoding.Statement .crct := by unfold Encoding.Statement; decide

theorem Encoding.crcm : Encoding.Statement .crcm := by unfold Encoding.Statement; decide

theorem Encoding.crcf : Encoding.Statement .crcf := by unfold Encoding.Statement; decide

theorem Encoding.crcg : Encoding.Statement .crcg := by unfold Encoding.Statement; decide

theorem Encoding.crcv : Encoding.Statement .crcv := by unfold Encoding.Statement; decide

theorem Encoding.cenc : Encoding.Statement .cenc := by unfold Encoding.Statement; decide

theorem Encoding.cdec : Encoding.Statement .cdec := by unfold Encoding.Statement; decide

theorem Encoding.sigw : Encoding.Statement .sigw := by unfold Encoding.Statement; decide

theorem Encoding.sopen : Encoding.Statement .sopen := by unfold Encoding.Statement; decide

theorem Encoding.snext : Encoding.Statement .snext := by unfold Encoding.Statement; decide

end Sys2Proof.Laws
end

