-- ==== Sys2Proof/Tests/Slice0.lean ====
section
/-! SUPPORT. Tests on the vectors of 95_test_vectors.md (their ids stand in the docstrings), the smoke tests of
WellFormed, and for every statement with hypotheses a concrete state that meets them. -/

namespace Sys2Proof.Tests

open Sys2Proof.Machine

/-- The block after reset with `size` bytes of MEM that begin with `bytes`. -/
def small (size : Nat) (bytes : Bytes) : State := State.resetWith size (Memory.writeBytes [] 0 bytes)

/-- The outcome is a next state with a property. -/
def ends (o : Host.Outcome State Fault Refusal) (p : State → Bool) : Bool :=
  match o with
  | .next t => p t
  | .fault _ => false
  | .refused _ => false

theorem exists_next {o : Host.Outcome State Fault Refusal} {p : State → Bool} (h : ends o p = true) :
    ∃ t, o = .next t ∧ p t = true := by
  cases o with
  | next t => exact ⟨t, rfl, h⟩
  | fault f => cases h
  | refused r => cases h

/-- "RuSt" (00_scope.md section 4). -/
def rust : Type4 := ⟨0x52#8, 0x75#8, 0x53#8, 0x74#8⟩

/-- "hi". -/
def hi : Bytes := [0x68#8, 0x69#8]

/-- The frame F of 95_test_vectors.md section 5: "RuSt" with the data "hi". -/
def frameF : Bytes :=
  [0x00#8, 0x00#8, 0x00#8, 0x02#8, 0x52#8, 0x75#8, 0x53#8, 0x74#8, 0x68#8, 0x69#8, 0xD2#8, 0xBC#8, 0x3F#8, 0x73#8]

/-- The IEND frame E (K23). -/
def frameE : Bytes :=
  [0x00#8, 0x00#8, 0x00#8, 0x00#8, 0x49#8, 0x45#8, 0x4E#8, 0x44#8, 0xAE#8, 0x42#8, 0x60#8, 0x82#8]

/-- MSG, the 42 bytes of the source's message. -/
def msg : Bytes :=
  [0x54#8, 0x68#8, 0x69#8, 0x73#8, 0x20#8, 0x69#8, 0x73#8, 0x20#8, 0x77#8, 0x68#8, 0x65#8, 0x72#8, 0x65#8, 0x20#8] ++
  [0x79#8, 0x6F#8, 0x75#8, 0x72#8, 0x20#8, 0x73#8, 0x65#8, 0x63#8, 0x72#8, 0x65#8, 0x74#8, 0x20#8, 0x6D#8, 0x65#8] ++
  [0x73#8, 0x73#8, 0x61#8, 0x67#8, 0x65#8, 0x20#8, 0x77#8, 0x69#8, 0x6C#8, 0x6C#8, 0x20#8, 0x62#8, 0x65#8, 0x21#8]

/-- "123456789". -/
def digits : Bytes := [0x31#8, 0x32#8, 0x33#8, 0x34#8, 0x35#8, 0x36#8, 0x37#8, 0x38#8, 0x39#8]

/-! ### WellFormed -/

theorem test_wf_register_twelve : HostOp.wellFormed 64 (.writeReg 12 0#32) = true := by decide
theorem test_wf_refuses_write_of_register_thirteen : HostOp.wellFormed 64 (.writeReg 13 0#32) = false := by decide
theorem test_wf_refuses_read_of_register_thirteen : HostOp.wellFormed 64 (.readReg 13) = false := by decide
theorem test_wf_last_address : HostOp.wellFormed 64 (.readMem 63) = true := by decide
theorem test_wf_refuses_write_past_mem : HostOp.wellFormed 64 (.writeMem 64 0#8) = false := by decide
theorem test_wf_refuses_read_past_mem : HostOp.wellFormed 64 (.readMem 64) = false := by decide
theorem test_wf_refuses_event : Event.wellFormed 64 (.host (.readMem 64)) = false := by decide

/-! ### Decode, from the match column of R66 written out bit by bit -/

theorem test_decode_tnew : decode 0b00010000000000000000000000000000#32 = .ok .tnew := by rfl
theorem test_decode_tparse : decode 0b00010001000000000000000000000000#32 = .ok .tparse := by rfl
theorem test_decode_crci : decode 0b00100000000000000000000000000000#32 = .ok .crci := by rfl
theorem test_decode_crcb : decode 0b00100001000000000000000001010010#32 = .ok (.crcb 0x52#8) := by rfl
theorem test_decode_crct : decode 0b00100010000000000000000000000000#32 = .ok .crct := by rfl
theorem test_decode_crcm : decode 0b00100011000000000000000000000000#32 = .ok .crcm := by rfl
theorem test_decode_crcf : decode 0b00100100000000000000000000000000#32 = .ok .crcf := by rfl
theorem test_decode_crcg : decode 0b00100101000000000000000000000000#32 = .ok .crcg := by rfl
theorem test_decode_crcv : decode 0b00100110000000000000000000000000#32 = .ok .crcv := by rfl
theorem test_decode_cenc : decode 0b00110000000000000000000000000000#32 = .ok .cenc := by rfl
theorem test_decode_cdec : decode 0b00110001000000000000000000000000#32 = .ok .cdec := by rfl
theorem test_decode_sigw : decode 0b01000000000000000000000000000000#32 = .ok .sigw := by rfl
theorem test_decode_sopen : decode 0b01000001000000000000000000000000#32 = .ok .sopen := by rfl
theorem test_decode_snext : decode 0b01000010000000000000000000000000#32 = .ok .snext := by rfl

/-- E1 to E6, E8. -/
theorem test_decode_illegal :
    decode 0x00000000#32 = .error (.unlistedOpcode 0x00#8) ∧ decode 0xFFFFFFFF#32 = .error (.unlistedOpcode 0xFF#8) ∧
    decode 0x10000001#32 = .error (.nonzeroField 0x10#8) ∧ decode 0x30800000#32 = .error (.nonzeroField 0x30#8) ∧
    decode 0x21000100#32 = .error (.nonzeroField 0x21#8) ∧ decode 0x21FF0000#32 = .error (.nonzeroField 0x21#8) ∧
    decode 0x12000000#32 = .error (.unlistedOpcode 0x12#8) ∧ decode 0x27000000#32 = .error (.unlistedOpcode 0x27#8) ∧
    decode 0x43000000#32 = .error (.unlistedOpcode 0x43#8) := by
  refine ⟨rfl, rfl, rfl, rfl, rfl, rfl, rfl, rfl, rfl⟩

theorem test_decode_table_word :
    decodeTableWord 32 0x210000FF = some (.crcb 0xFF#8) ∧ decodeTableWord 32 0x00000000 = none := by decide

/-! ### Steps and host operations -/

/-- E1: the zero word from reset: STATUS = 0x108. -/
theorem test_step_illegal_word : ends (step (State.reset.withFetchWord 32 0)) (fun t => t.status == 0x108#32) = true := by
  decide

/-- E7: CRCB 0xFF from reset: CRCACC = 0x2D02EF8D. -/
theorem test_step_runs_the_fetched_word :
    ends (step (State.reset.withFetchWord 32 0x210000FF))
      (fun t => t.status == 0x000#32 && t.crcacc == 0x2D02EF8D#32 && t.pending == []) = true := by decide

/-- Section 9: every register reads 0 after reset, FLAGS and CMD too. -/
theorem test_reset_registers :
    [Reg.cmd, .status, .errpos, .flags, .type, .len, .crc, .src, .avail, .dst, .cur, .dptr, .crcacc].all
      (fun r => State.reset.readReg r == 0#32) = true := by decide

theorem test_reset_memory_is_canonical : State.reset.mem.wf = true ∧ State.reset.Inv := by
  refine ⟨by decide, ?_⟩
  unfold State.Inv
  decide

theorem test_reset_event :
    ends (perform (.reset [(1, 0xEE#8), (1, 0x11#8), (99, 0x22#8)]) { small 64 hi with status := 0x108#32, cur := 3#32 })
      (fun t => t.status == 0#32 && t.cur == 0#32 && t.mem == [(1, 0x11#8)] && t.memBytes == 64) = true := by decide

/-- T1 to T3, T5, T9, T13 to T15: FLAGS. -/
theorem test_flags :
    flagsOf 0x52755374#32 = 0x3A#32 ∧ flagsOf 0x52757374#32 = 0x1E#32 ∧ flagsOf 0x49454E44#32 = 0x30#32 ∧
    flagsOf 0x74455874#32 = 0x39#32 ∧ flagsOf 0x407A5A7A#32 = 0x0A#32 ∧ flagsOf 0xC1414141#32 = 0x00#32 ∧
    flagsOf 0x41412041#32 = 0x04#32 ∧ flagsOf 0x52753174#32 = 0x0E#32 := by decide

theorem test_host_write_of_read_only_register :
    [1, 2, 3, 11].all (fun n => ends (hostWriteReg n 0xFFFFFFFF#32 (small 64 [])) (fun t => t == small 64 [])) = true := by
  decide

/-- Writing the byte an unlisted address reads as leaves equal contents equal lists. -/
theorem test_memory_canonical_form :
    Memory.write (Memory.write [] 5 0x01#8) 5 0x00#8 = [] ∧
    Memory.write (Memory.write [] 5 0x01#8) 3 0x02#8 = [(3, 0x02#8), (5, 0x01#8)] ∧
    Memory.wf [(5, 0x01#8), (3, 0x02#8)] = false ∧ Memory.wf [(3, 0x00#8)] = false := by decide

/-- The byte order of R41 and R42. -/
theorem test_byte_order :
    Quad.toWord ⟨0x52#8, 0x75#8, 0x53#8, 0x74#8⟩ = 0x52755374#32 ∧
    Quad.ofWord 0xAE426082#32 = ⟨0xAE#8, 0x42#8, 0x60#8, 0x82#8⟩ := by decide

/-! ### The ChunkType unit -/

/-- T1, T2. -/
theorem test_tnew_rust : ends (exec .tnew { small 64 [] with type := 0x52755374#32 }) (fun t => t.status == 0#32) = true := by
  decide
theorem test_tnew_reserved_bit :
    ends (exec .tnew { small 64 [] with type := 0x52757374#32, errpos := 7#32 })
      (fun t => t.status == 3#32 && t.errpos == 0#32 && t.type == 0x52757374#32) = true := by decide

/-- T19 and T20: four bytes of text are a type, five are not. -/
theorem test_tparse_four_bytes :
    ends (exec .tparse { small 64 (rust.bytes ++ [0x21#8]) with avail := 4#32, type := 0x11111111#32 })
      (fun t => t.status == 0#32 && t.type == 0x52755374#32) = true := by decide
theorem test_tparse_five_bytes :
    ends (exec .tparse { small 64 (rust.bytes ++ [0x21#8]) with avail := 5#32, type := 0x11111111#32 })
      (fun t => t.status == 3#32 && t.type == 0x11111111#32) = true := by decide

/-! ### The CRC unit -/

/-- R101's table entries, and X2. -/
theorem test_crcUpdate :
    crcUpdate 0#32 0x01#8 = 0x77073096#32 ∧ crcUpdate 0#32 0x80#8 = 0xEDB88320#32 ∧
    crcUpdate 0xFFFFFFFF#32 0x00#8 = 0x2DFD1072#32 := by decide

/-- X5, X6, X8, X11. -/
theorem test_crc32 :
    crc32 digits = 0xCBF43926#32 ∧ crc32 iend.bytes = 0xAE426082#32 ∧
    crc32 [0xFF#8, 0xFF#8, 0xFF#8, 0xFF#8] = 0xFFFFFFFF#32 ∧ crc32 (rust.bytes ++ msg) = 0xABD1D84E#32 := by
  decide +kernel

theorem test_crci : ends (exec .crci (small 64 [])) (fun t => t.crcacc == 0xFFFFFFFF#32 && t.status == 0#32) = true := by
  decide

/-- R106's example. -/
theorem test_crcb :
    ends (exec (.crcb 0x52#8) { small 64 [] with crcacc := 0xFFFFFFFF#32 }) (fun t => t.crcacc == 0xA89820AA#32) = true := by
  decide

/-- R107's example. -/
theorem test_crct :
    ends (exec .crct { small 64 [] with crcacc := 0xFFFFFFFF#32, type := 0x52755374#32 })
      (fun t => t.crcacc == 0x2B7BF6C3#32) = true := by decide +kernel

/-- R108's example (the message stands at address 0), and X18. -/
theorem test_crcm :
    ends (exec .crcm { small 64 msg with crcacc := 0x2B7BF6C3#32, len := 42#32 })
      (fun t => t.crcacc == 0x542E27B1#32) = true := by decide +kernel
theorem test_crcm_bounds :
    ends (exec .crcm { small 4096 [] with src := 4000#32, len := 97#32, crcacc := 5#32 })
      (fun t => t.status == 0x109#32 && t.crcacc == 5#32) = true := by decide

/-- R109's example. -/
theorem test_crcf :
    ends (exec .crcf { small 64 [] with crcacc := 0x542E27B1#32 })
      (fun t => t.crc == 0xABD1D84E#32 && t.crcacc == 0x542E27B1#32) = true := by decide

/-- X15. -/
theorem test_crcg :
    ends (exec .crcg { small 64 [] with type := 0x49454E44#32 })
      (fun t => t.crc == 0xAE426082#32 && t.crcacc == 0#32) = true := by decide +kernel

/-- X16, X17. -/
theorem test_crcv :
    ends (exec .crcv { small 64 msg with type := 0x52755374#32, len := 42#32, crc := 0xABD1D84E#32 })
      (fun t => t.status == 0#32) = true := by decide +kernel
theorem test_crcv_mismatch :
    ends (exec .crcv { small 64 msg with type := 0x52755374#32, len := 42#32, crc := 0xABD1D84F#32 })
      (fun t => t.status == 5#32 && t.crc == 0xABD1D84F#32) = true := by decide +kernel

/-! ### The framer -/

/-- K1, K5, K7, K9, K11, K14, K16: one for each step of DecodeChunk. -/
theorem test_decodeChunk :
    decodeChunk frameF = .ok ⟨2#32, rust, hi, 0xD2BC3F73#32⟩ ∧ decodeChunk (frameF.take 12) = .error .tooShort ∧
    decodeChunk (frameF.set 3 0x03#8) = .error .tooShort ∧ decodeChunk (frameF.set 3 0x07#8) = .error .tooShort ∧
    decodeChunk (frameF.set 3 0x01#8) = .error .crcMismatch ∧
    decodeChunk ((frameF.set 2 0x01#8).set 6 0x73#8) = .error .invalidChunkType ∧
    decodeChunk ((frameF.take 11).set 6 0x31#8) = .error .tooShort := by decide +kernel

/-- K31: the frame may begin where the payload ends; K33: it may not begin before. -/
theorem test_cenc_adjacent :
    ends (exec .cenc { small 64 ([0#8, 0#8, 0#8, 0#8, 0#8, 0#8, 0#8, 0#8] ++ hi) with
        type := 0x52755374#32, src := 8#32, len := 2#32, dst := 10#32 })
      (fun t => t.mem.readBytes 10 14 == frameF && t.mem.readBytes 8 2 == hi && t.crc == 0xD2BC3F73#32 &&
        t.dst == 24#32 && t.status == 0#32) = true := by decide +kernel
theorem test_cenc_overlap :
    ends (exec .cenc { small 64 hi with type := 0x52755374#32, src := 8#32, len := 2#32 })
      (fun t => t.status == 0x10A#32 && t.dst == 0#32 && t.mem.readBytes 0 2 == hi) = true := by decide

/-- K25, and a CRC bit flipped (K17). -/
theorem test_cdec :
    ends (exec .cdec { small 64 frameF with avail := 14#32 })
      (fun t => t.len == 2#32 && t.type == 0x52755374#32 && t.crc == 0xD2BC3F73#32 && t.dptr == 8#32 &&
        t.status == 0x040#32) = true := by decide +kernel
theorem test_cdec_crc_mismatch :
    ends (exec .cdec { small 64 (frameF.set 13 0x72#8) with avail := 14#32, status := 0xC0#32 })
      (fun t => t.status == 0x005#32 && t.len == 0#32 && t.dptr == 0#32) = true := by decide +kernel

/-! ### The stream sequencer -/

/-- S20, S19. -/
theorem test_sigw :
    ends (exec .sigw { small 4096 [] with dst := 4088#32 })
      (fun t => t.mem.readBytes 4088 8 == sig && t.dst == 4096#32 && t.status == 0#32) = true := by decide
theorem test_sigw_bounds :
    ends (exec .sigw { small 4096 [] with dst := 4089#32 }) (fun t => t.status == 0x109#32 && t.dst == 4089#32) = true := by
  decide

/-- S14, S18. -/
theorem test_sopen : ends (exec .sopen { small 64 sig with avail := 8#32 })
    (fun t => t.cur == 8#32 && t.status == 0x010#32) = true := by decide
theorem test_sopen_bad_signature :
    ends (exec .sopen { small 64 (sig.set 0 0x88#8) with avail := 8#32, cur := 5#32 })
      (fun t => t.status == 0x031#32 && t.errpos == 0#32 && t.cur == 5#32) = true := by decide

/-- R142's example, and program P4's failing turn (here with the frame F at offset 8). -/
theorem test_snext_terminal :
    ends (exec .snext { small 64 (sig ++ frameE) with avail := 20#32, cur := 8#32, status := 0x010#32 })
      (fun t => t.len == 0#32 && t.type == 0x49454E44#32 && t.crc == 0xAE426082#32 && t.dptr == 16#32 &&
        t.cur == 20#32 && t.status == 0x0E0#32) = true := by decide +kernel
theorem test_snext_crc_mismatch :
    ends (exec .snext { small 64 (sig ++ frameF.set 8 0x69#8) with avail := 22#32, cur := 8#32, status := 0x050#32 })
      (fun t => t.status == 0x035#32 && t.errpos == 8#32 && t.cur == 8#32) = true := by decide +kernel

/-! ### The container -/

/-- S1, S3, S5, S8, S9. -/
theorem test_decodePng :
    decodePng sig = .ok [] ∧ decodePng (sig.take 7) = .error (.badSignature, 0) ∧
    decodePng (sig ++ frameE) = .ok [⟨iend, []⟩] ∧
    decodePng (sig ++ frameF ++ [0#8, 0#8]) = .error (.tooShort, 22) ∧
    decodePng (sig ++ frameE ++ frameF) = .ok [⟨iend, []⟩] := by decide +kernel

/-- L3, L4. -/
theorem test_appendChunk :
    appendChunk [⟨rust, hi⟩, ⟨iend, []⟩] ⟨rust, []⟩ = [⟨rust, hi⟩, ⟨rust, []⟩, ⟨iend, []⟩] ∧
    appendChunk [⟨iend, []⟩, ⟨rust, hi⟩] ⟨rust, []⟩ = [⟨iend, []⟩, ⟨rust, hi⟩, ⟨rust, []⟩] := by decide

/-- L5 to L8, L11. -/
theorem test_container :
    chunkByType [⟨rust, [0x61#8]⟩, ⟨rust, [0x62#8]⟩] rust.bytes = some ⟨rust, [0x61#8]⟩ ∧
    chunkByType [⟨rust, [0x61#8]⟩] [0x52#8, 0x75#8, 0x53#8] = none ∧
    removeFirstChunk [⟨rust, [0x61#8]⟩, ⟨iend, []⟩, ⟨rust, [0x62#8]⟩] rust.bytes =
      .ok ([⟨iend, []⟩, ⟨rust, [0x62#8]⟩], ⟨rust, [0x61#8]⟩) ∧
    removeFirstChunk [⟨iend, []⟩] rust.bytes = .error .chunkNotFound ∧ serializePng [] = sig ∧
    dataAsString (fun d => d == msg) msg = .ok msg := by decide

/-- R144 on the stream of S7 with a terminal chunk after it. -/
theorem test_decodeSequence :
    decodeSequence 0#32 34#32 (small 64 (sig ++ frameF ++ frameE)) = .chunks [⟨rust, hi⟩, ⟨iend, []⟩] := by decide +kernel

/-! ### Witnesses: for every statement with hypotheses, values that meet them, clause by clause, at the ends of their
ranges -/

theorem witness_OpcodeRowsAreDisjoint :
    ∃ i j : Fin opcodeTable.length, 0x210000FF#32 &&& (opcodeTable.get i).mask = (opcodeTable.get i).pattern ∧
      0x210000FF#32 &&& (opcodeTable.get j).mask = (opcodeTable.get j).pattern :=
  ⟨⟨3, by decide⟩, ⟨3, by decide⟩, by decide, by decide⟩

/-- An unlisted opcode, and a listed one with a bit set that its format says is zero. -/
theorem witness_IllegalWordsFaultAndChangeNothingElse :
    (∀ i, 0x12000000#32 ≠ encode i) ∧ (∀ i, 0x21000100#32 ≠ encode i) ∧
    ({ small 64 [] with pending := [.host (.writeReg 0 0x12000000#32)] } : State).pending =
      .host (.writeReg 0 0x12000000#32) :: [] := by
  refine ⟨fun i => ?_, fun i => ?_, rfl⟩ <;> cases i <;> first | decide | (rename_i b; revert b; decide)

theorem witness_StepRunsTheDecodedCommand :
    (State.reset.withFetchWord 32 0x42000000).pending = .host (.writeReg 0 0x42000000#32) :: [] ∧
    decode 0x42000000#32 = .ok .snext ∧ State.reset.pending = [] := ⟨rfl, rfl, rfl⟩

/-- A step with a meaning at the last register and the last address, and one without at the first beyond. -/
theorem witness_StepStopsOnlyOutsideTheInterface :
    (∃ t, step { small 64 [] with pending := [.host (.readReg 12)] } = .next t) ∧
    (∃ t, step { small 64 [] with pending := [.host (.readMem 63)] } = .next t) ∧
    step { small 64 [] with pending := [.host (.readReg 13)] } = .refused (.noSuchRegister 13) ∧
    step { small 64 [] with pending := [.host (.writeMem 64 1#8)] } = .refused (.noSuchAddress 64) :=
  ⟨⟨_, rfl⟩, ⟨_, rfl⟩, rfl, rfl⟩

theorem witness_HostOperationsActAsTheInterfaceSays :
    Reg.crcacc ∈ [Reg.type, .len, .crc, .src, .avail, .dst, .cur, .crcacc] ∧ Reg.len ≠ Reg.type ∧ 11 ∈ [1, 2, 3, 11] ∧
    (small 64 hi).mem.wf = true ∧ 0 < (small 64 hi).memBytes ∧ 63 < (small 64 hi).memBytes ∧ 12 < 13 ∧
    (small 64 hi).memBytes ≤ 64 := by decide

theorem witness_HostReadsReturnTheLatestByteWritten :
    (small 64 hi).mem.wf = true ∧ 63 < (small 64 hi).memBytes ∧
    ∀ c ∈ [((0 : Nat), 0x11#8), (62, 0x22#8)], c.1 < (small 64 hi).memBytes ∧ c.1 ≠ 63 := by decide

/-- A reset clears HWF that was set. -/
theorem witness_ResetZeroesRegistersAndLeavesMemoryOpen :
    ∃ t, step { small 64 [] with status := 0x108#32, pending := [.reset []] } = .next t ∧
      Status.hwf 0x108#32 = true ∧ Status.hwf t.status = false := ⟨_, rfl, by decide, by decide⟩

/-- The invariant and a step, at the least and the greatest size of MEM. -/
theorem witness_StepKeepsTheInvariant :
    (small 1 []).Inv ∧ (State.resetWith (2 ^ 32) []).Inv ∧
    (∃ t, step ((small 1 []).withFetchWord 32 0x42000000) = .next t ∧ t.status = 0x10B#32) := by
  refine ⟨?_, ?_, _, rfl, by decide⟩ <;> unfold State.Inv <;> decide

theorem witness_ResetMeetsTheInvariant :
    (1 ≤ 1 ∧ 1 ≤ 2 ^ 32 ∧ Memory.wf [(0, 0xEE#8)] = true ∧ Memory.inside 1 [(0, 0xEE#8)] = true) ∧
    (1 ≤ 2 ^ 32 ∧ 2 ^ 32 ≤ 2 ^ 32 ∧ Memory.wf [(4294967295, 0xEE#8)] = true ∧
      Memory.inside (2 ^ 32) [(4294967295, 0xEE#8)] = true) := by decide

/-- One event for each row of R143's table: reset, SOPEN to LOOP and to FAIL, and SNEXT to DONE (exhausted), LOOP, DONE
(terminal), FAIL and unchanged. -/
theorem witness_StreamStateChangesOnlyAsTheTableSays :
    ends (perform (.reset []) (small 64 [])) (fun t => Status.ss t.status == 0#2) = true ∧
    ends (perform (asmCmd .sopen) { small 8 sig with avail := 8#32 }) (fun t => Status.ss t.status == 1#2) = true ∧
    ends (perform (asmCmd .sopen) { small 8 sig with avail := 7#32 }) (fun t => Status.ss t.status == 3#2) = true ∧
    ends (perform (asmCmd .snext) { small 8 sig with avail := 8#32, cur := 8#32, status := 0x10#32 })
      (fun t => Status.ss t.status == 2#2) = true ∧
    ends (perform (asmCmd .snext) { small 14 frameF with avail := 14#32, status := 0x10#32 })
      (fun t => Status.ss t.status == 1#2) = true ∧
    ends (perform (asmCmd .snext) { small 12 frameE with avail := 12#32, status := 0x10#32 })
      (fun t => Status.ss t.status == 2#2) = true ∧
    ends (perform (asmCmd .snext) { small 12 frameE with avail := 11#32, status := 0x10#32 })
      (fun t => Status.ss t.status == 3#2) = true ∧
    ends (perform (asmCmd .snext) { small 12 frameE with avail := 12#32, status := 0x30#32 })
      (fun t => Status.ss t.status == 3#2) = true := by decide +kernel

/-- A command that none of the lists names and that succeeds: it must leave every register of them; and the two that
write MEM. -/
theorem witness_RegistersAreWrittenOnlyByTheirCommands :
    (∃ t, exec .crcv { small 64 hi with crc := 0x2144DF1C#32 } = .next t ∧
      decide (Status.err t.status ∉ [1#4, 2#4, 3#4, 5#4]) = true) ∧ Instr.crcv ∉ [Instr.tparse, .cdec, .snext] ∧
    Instr.crcv ∉ [Instr.cdec, .snext] ∧ Instr.crcv ∉ [Instr.crcf, .crcg, .cenc, .cdec, .snext] ∧
    Instr.crcv ∉ [Instr.cenc, .sigw] ∧ Instr.crcv ∉ [Instr.sopen, .snext] ∧
    Instr.crcv ∉ [Instr.crci, .crct, .crcm] ∧ (∀ b, Instr.crcv ≠ .crcb b) ∧
    (∃ t, exec .cenc (small 12 []) = .next t) ∧ (∃ t, exec .sigw (small 8 []) = .next t) := by
  refine ⟨exists_next (by decide +kernel), by decide, by decide, by decide, by decide, by decide, by decide, by decide,
    ⟨_, rfl⟩, ⟨_, rfl⟩⟩

theorem witness_StatusFieldsAreWrittenOnlyByTheirCommands :
    (∃ t, exec .cdec { small 8 [] with avail := 9#32 } = .next t ∧ Status.err t.status ∈ [8#4, 9#4, 10#4, 11#4]) ∧
    Instr.cdec ∉ [Instr.sopen, .snext] := ⟨⟨_, rfl, by decide⟩, by decide⟩

/-- SNEXT with an error, a command that succeeds, and a host operation that is no command. -/
theorem witness_ErrposIsWrittenOnlyByErrors :
    (∃ t, exec .snext { small 12 [] with avail := 12#32, cur := 1#32, status := 0x10#32 } = .next t ∧
      Status.err t.status ∈ [1#4, 2#4, 3#4, 5#4]) ∧
    (∃ t, exec .crci (small 12 []) = .next t) ∧
    (∃ t, performHost (.writeReg 2 5#32) (small 12 []) = .next t) ∧
    ∀ i, HostOp.writeReg 2 5#32 ≠ .writeReg 0 (encode i) := by
  refine ⟨⟨_, rfl, by decide⟩, ⟨_, rfl⟩, ⟨_, rfl⟩, fun i h => ?_⟩
  injection h with h1
  cases h1

/-- One error of a command that touches neither CV nor SS, one of CDEC and one of SOPEN. -/
theorem witness_ErrorsLeaveResultsUnchanged :
    (∃ t, exec .tnew (small 12 []) = .next t ∧ Status.err t.status ∈ [1#4, 2#4, 3#4, 5#4]) ∧
    (∃ t, exec .cdec { small 12 [] with avail := 11#32 } = .next t ∧ Status.err t.status ∈ [1#4, 2#4, 3#4, 5#4]) ∧
    (∃ t, exec .sopen (small 12 []) = .next t ∧ Status.err t.status ∈ [1#4, 2#4, 3#4, 5#4]) :=
  ⟨⟨_, rfl, by decide⟩, ⟨_, rfl, by decide⟩, ⟨_, rfl, by decide⟩⟩

theorem witness_FaultsWriteOnlyErrAndHwf :
    (∃ t, exec .snext (small 12 []) = .next t ∧ Status.err t.status ∈ [8#4, 9#4, 10#4, 11#4]) ∧
    decode 0x12000000#32 = .error (.unlistedOpcode 0x12#8) ∧
    (∃ t, performHost (.writeReg 4 1#32) { small 12 [] with status := 0x108#32 } = .next t ∧
      Status.hwf 0x108#32 = true) := ⟨⟨_, rfl, by decide⟩, rfl, ⟨_, rfl, by decide⟩⟩

theorem witness_CrcaccIsReadOnlyByTheEngine :
    (Instr.crci ∉ [Instr.crct, .crcm, .crcf] ∧ (∀ b, Instr.crci ≠ .crcb b) ∧ ∃ t, exec .crci (small 12 []) = .next t) ∧
    (Instr.cenc ∉ [Instr.crct, .crcm, .crcf] ∧ (∀ b, Instr.cenc ≠ .crcb b) ∧ ∃ t, exec .cenc (small 12 []) = .next t) :=
  ⟨⟨by decide, by decide, _, rfl⟩, ⟨by decide, by decide, _, rfl⟩⟩

theorem witness_CrcRegisterIsReadOnlyByCrcv :
    Instr.cenc ≠ .crcv ∧ ∃ t, exec .cenc { small 12 [] with crc := 5#32 } = .next t := ⟨by decide, _, rfl⟩

/-- Memories that differ just outside the bytes named: TPARSE (4 bytes from SRC on), CDEC on a buffer of 13 bytes that
begins with the 12-byte frame E (its last byte differs), CRCM with AVAIL beyond LEN, and a command that reads none. -/
theorem witness_CommandsReadOnlyTheirInputRegion :
    (bytesRead { small 8 [] with src := 1#32, avail := 4#32 } .tparse = (1, 4) ∧
      (∀ a, 1 ≤ a → a < 1 + 4 → Memory.read [(0, 0xEE#8), (5, 0xEE#8)] a = Memory.read [] a) ∧
      ∃ t, exec .tparse { small 8 [] with src := 1#32, avail := 4#32 } = .next t) ∧
    (bytesRead { small 13 frameE with avail := 13#32 } .cdec = (0, 12) ∧
      (∀ a < 12, Memory.read (Memory.writeBytes [] 0 (frameE ++ [0xEE#8])) a = (small 13 frameE).mem.read a) ∧
      ∃ t, exec .cdec { small 13 frameE with avail := 13#32 } = .next t) ∧
    (bytesRead { small 8 [] with src := 2#32, len := 3#32, avail := 6#32 } .crcm = (2, 3) ∧
      ∃ t, exec .crcm { small 8 [] with src := 2#32, len := 3#32, avail := 6#32 } = .next t) ∧
    (bytesRead (small 8 []) .tnew = (0, 0) ∧ ∃ t, exec .tnew (small 8 []) = .next t) := by
  refine ⟨⟨rfl, fun a h1 h2 => ?_, _, rfl⟩, ⟨by decide, by decide,
    (exists_next (p := fun _ => true) (by decide +kernel)).imp fun _ h => h.1⟩, ⟨rfl, _, rfl⟩,
    rfl, _, rfl⟩
  have : a = 1 ∨ a = 2 ∨ a = 3 ∨ a = 4 := by omega
  rcases this with rfl | rfl | rfl | rfl <;> rfl

theorem witness_BytesBeyondTheFrameAreNotInspected :
    decodeChunk (frameE ++ [0xDE#8]) = .ok ⟨0#32, iend, [], 0xAE426082#32⟩ := by decide +kernel

theorem witness_TypePredicatesReadLettersAndBitFive : allLetters rust = true := by decide

theorem witness_FlagsRegisterDecodesType : 6 ≤ 6 ∧ 6 ≤ 31 := by decide

theorem witness_TypeConstructorsValidate :
    parseFromText (rust.bytes.take 3) = .error .invalidChunkType ∧
    parseFromText [0x52#8, 0x75#8, 0x73#8, 0x74#8] = .error .invalidChunkType ∧
    [0x52#8, 0x75#8, 0x73#8, 0x74#8].length = 4 := by decide

theorem witness_TnewValidatesType :
    isValid (typeBytes 0x7A7A5A7A#32) = true ∧ isValid (typeBytes 0x5B7A5A7A#32) = false := by decide

/-- The buffer one byte too long for MEM; inside it but of another length; a good and a bad type at the end of MEM. -/
theorem witness_TparseLoadsAValidTypeFromMemory :
    (∃ s : State, s.memBytes < s.src.toNat + s.avail.toNat) ∧
    (∃ s : State, s.src.toNat + s.avail.toNat ≤ s.memBytes ∧ s.avail ≠ 4#32) ∧
    (∃ (s : State) (ty : Type4), s.src.toNat + s.avail.toNat ≤ s.memBytes ∧ s.avail = 4#32 ∧
      s.mem.readBytes s.src.toNat 4 = ty.bytes ∧ isValid ty = true) ∧
    (∃ (s : State) (ty : Type4), s.src.toNat + s.avail.toNat ≤ s.memBytes ∧ s.avail = 4#32 ∧
      s.mem.readBytes s.src.toNat 4 = ty.bytes ∧ isValid ty = false) :=
  ⟨⟨{ small 8 [] with src := 5#32, avail := 4#32 }, by decide⟩,
    ⟨{ small 8 [] with src := 5#32, avail := 3#32 }, by decide⟩,
    ⟨{ small 8 ([0#8, 0#8, 0#8, 0#8] ++ rust.bytes) with src := 4#32, avail := 4#32 }, rust, by decide⟩,
    ⟨{ small 8 [] with src := 4#32, avail := 4#32 }, ⟨0#8, 0#8, 0#8, 0#8⟩, by decide⟩⟩

theorem witness_SingleBitErrorsChangeTheCrc : 0 < 8 ∧ 7 < 8 := by decide

/-- A payload that ends one byte past MEM, one that ends with it, and an empty one at its very end. -/
theorem witness_CrcmFeedsThePayload :
    (∃ s : State, s.memBytes < s.src.toNat + s.len.toNat) ∧ (∃ s : State, s.src.toNat + s.len.toNat ≤ s.memBytes) ∧
    (∃ s : State, s.src.toNat + s.len.toNat ≤ s.memBytes) :=
  ⟨⟨{ small 8 [] with src := 5#32, len := 4#32 }, by decide⟩, ⟨{ small 8 [] with src := 4#32, len := 4#32 }, by decide⟩,
    ⟨{ small 8 [] with src := 8#32 }, by decide⟩⟩

theorem witness_CrcgGeneratesAndCrcvVerifies :
    (∃ s : State, s.memBytes < s.src.toNat + s.len.toNat) ∧
    (∃ s : State, s.src.toNat + s.len.toNat ≤ s.memBytes ∧
      s.crc = chunkCrc (typeBytes s.type) (s.mem.readBytes s.src.toNat s.len.toNat)) ∧
    (∃ s : State, s.src.toNat + s.len.toNat ≤ s.memBytes ∧
      s.crc ≠ chunkCrc (typeBytes s.type) (s.mem.readBytes s.src.toNat s.len.toNat)) :=
  ⟨⟨{ small 8 [] with src := 5#32, len := 4#32 }, by decide⟩,
    ⟨{ small 8 [] with src := 8#32, type := 0x49454E44#32, crc := 0xAE426082#32 }, by decide +kernel⟩,
    ⟨{ small 8 [] with src := 8#32, type := 0x49454E44#32, crc := 0xAE426083#32 }, by decide +kernel⟩⟩

theorem witness_EngineComputesTheCrcOfTheBytesFed :
    (4#32).toNat + (4#32).toNat ≤ 8 ∧
    ∀ i ∈ [Instr.crct, .crcb 1#8, .crcm], i = .crct ∨ i = .crcm ∨ ∃ b, i = .crcb b := by
  refine ⟨by decide, fun i hi => ?_⟩
  simp only [List.mem_cons, List.not_mem_nil, or_false] at hi
  rcases hi with rfl | rfl | rfl
  · exact .inl rfl
  · exact .inr (.inr ⟨_, rfl⟩)
  · exact .inr (.inl rfl)

theorem witness_SerializeLaysOutTheFrame : ([] : Bytes).length < 2 ^ 32 ∧ msg.length < 2 ^ 32 := by decide

/-- 11 bytes; 12 with a bad type; a frame one byte short; a frame that just fits. -/
theorem witness_DecodeChunkFollowsTheStepOrder :
    (frameE.take 11).length < 12 ∧ (12 ≤ (frameE.set 6 0x6E#8).length ∧ isValid (quadAt (frameE.set 6 0x6E#8) 4) = false) ∧
    (12 ≤ (frameF.take 13).length ∧ isValid (quadAt (frameF.take 13) 4) = true ∧
      (frameF.take 13).length < 12 + (quadAt (frameF.take 13) 0).toWord.toNat) ∧
    (12 ≤ frameF.length ∧ isValid (quadAt frameF 4) = true ∧ 12 + (quadAt frameF 0).toWord.toNat ≤ frameF.length) := by
  decide

/-- MEM of 16 bytes: the output one byte past MEM; payload and output inside and sharing one byte; adjacent; empty. -/
theorem witness_CencStoresTheFrame :
    (∃ s : State, s.memBytes < s.src.toNat + s.len.toNat ∨ s.memBytes < s.dst.toNat + 12 + s.len.toNat) ∧
    (∃ s : State, s.src.toNat + s.len.toNat ≤ s.memBytes ∧ s.dst.toNat + 12 + s.len.toNat ≤ s.memBytes ∧
      0 < s.len.toNat ∧ s.src.toNat < s.dst.toNat + 12 + s.len.toNat ∧ s.dst.toNat < s.src.toNat + s.len.toNat) ∧
    (∃ s : State, s.src.toNat + s.len.toNat ≤ s.memBytes ∧ s.dst.toNat + 12 + s.len.toNat ≤ s.memBytes ∧
      s.mem.wf = true ∧ s.dst.toNat + 12 + s.len.toNat ≤ s.src.toNat) ∧
    (∃ s : State, s.src.toNat + s.len.toNat ≤ s.memBytes ∧ s.dst.toNat + 12 + s.len.toNat ≤ s.memBytes ∧
      s.mem.wf = true ∧ s.src.toNat + s.len.toNat ≤ s.dst.toNat) ∧
    (∃ s : State, s.src.toNat + s.len.toNat ≤ s.memBytes ∧ s.dst.toNat + 12 + s.len.toNat ≤ s.memBytes ∧
      s.mem.wf = true ∧ s.len.toNat = 0) :=
  ⟨⟨{ small 16 [] with len := 2#32, dst := 3#32 }, by decide⟩,
    ⟨{ small 16 [] with src := 13#32, len := 2#32 }, by decide⟩,
    ⟨{ small 16 [] with src := 14#32, len := 2#32 }, by decide⟩,
    ⟨{ small 16 [] with len := 2#32, dst := 2#32 }, by decide⟩, ⟨{ small 16 [] with src := 16#32, dst := 4#32 }, by decide⟩⟩

theorem witness_CencOverlapMeansASharedByte :
    ∃ s : State, s.src.toNat + s.len.toNat ≤ s.memBytes ∧ s.dst.toNat + 12 + s.len.toNat ≤ s.memBytes :=
  ⟨{ small 16 [] with src := 13#32, len := 2#32 }, by decide⟩

/-- K36 to K38: MEM_BYTES = 4096, 2043 bytes are too many and 2042 are not. -/
theorem witness_CencPayloadIsAtMostHalfOfMemory :
    4096 < 12 + 2 * (2043#32).toNat ∧ 4096 ≤ 2 ^ 32 ∧ 12 + 2 * (2042#32).toNat ≤ 4096 := by decide

theorem witness_CdecDeliversTheChunk :
    (∃ s : State, s.memBytes < s.src.toNat + s.avail.toNat) ∧
    (∃ s : State, s.src.toNat + s.avail.toNat ≤ s.memBytes ∧
      decodeChunk (s.mem.readBytes s.src.toNat s.avail.toNat) = .error .tooShort) ∧
    (∃ s : State, s.src.toNat + s.avail.toNat ≤ s.memBytes ∧ s.memBytes ≤ 2 ^ 32 ∧
      decodeChunk (s.mem.readBytes s.src.toNat s.avail.toNat) = .ok ⟨2#32, rust, hi, 0xD2BC3F73#32⟩) :=
  ⟨⟨{ small 14 frameF with avail := 15#32 }, by decide⟩, ⟨{ small 14 frameF with avail := 13#32 }, by decide⟩,
    ⟨{ small 14 frameF with avail := 14#32 }, by decide +kernel⟩⟩

theorem witness_FramesRoundTrip :
    isValid rust = true ∧ msg.length < 2 ^ 32 ∧ decodeChunk frameF = .ok ⟨2#32, rust, hi, 0xD2BC3F73#32⟩ ∧
    isValid ⟨0x52#8, 0x75#8, 0x73#8, 0x74#8⟩ = false := by decide +kernel

theorem witness_CencThenCdecReturnsTheChunk :
    (small 16 []).mem.wf = true ∧ (small 16 []).memBytes ≤ 2 ^ 32 ∧
    ∃ u, exec .cenc { small 16 [] with type := 0x52755374#32, src := 14#32, len := 2#32 } = .next u ∧
      Status.err u.status = 0#4 := by
  obtain ⟨u, h1, h2⟩ := exists_next (o := exec .cenc { small 16 [] with type := 0x52755374#32, src := 14#32, len := 2#32 })
    (p := fun u => decide (Status.err u.status = 0#4)) (by decide +kernel)
  exact ⟨by decide, by decide, u, h1, by simpa using h2⟩

/-- F: a data bit, the last bit of a field, a length made larger, and a length made smaller whose CRC does not match. -/
theorem witness_SingleBitCorruptionIsDetected :
    isValid rust = true ∧ hi.length < 2 ^ 32 ∧ hi = [0x68#8] ++ 0x69#8 :: [] ∧ 7 < 8 ∧ 31 < 32 ∧
    hi.length < (BitVec.ofNat 32 hi.length ^^^ (1#32 <<< 31)).toNat ∧
    (BitVec.ofNat 32 hi.length ^^^ (1#32 <<< 1)).toNat < hi.length ∧
    chunkCrc rust (hi.take (BitVec.ofNat 32 hi.length ^^^ (1#32 <<< 1)).toNat) ≠
      (quadAt (hi ++ (Quad.ofWord (chunkCrc rust hi)).bytes) (BitVec.ofNat 32 hi.length ^^^ (1#32 <<< 1)).toNat).toWord := by
  decide +kernel

/-- CDEC on F and SNEXT on the IEND frame, each in a MEM that the frame fills. -/
theorem witness_DeliveredChunksHavePassedEveryCheck :
    (14 ≤ 2 ^ 32 ∧ ∃ t, exec .cdec { small 14 frameF with avail := 14#32 } = .next t ∧
      (decide (Status.err t.status = 0#4) && Status.cv t.status) = true) ∧
    (12 ≤ 2 ^ 32 ∧ ∃ t, exec .snext { small 12 frameE with avail := 12#32, status := 0x10#32 } = .next t ∧
      (decide (Status.err t.status = 0#4) && Status.cv t.status) = true) :=
  ⟨⟨by decide, exists_next (by decide +kernel)⟩, by decide, exists_next (by decide +kernel)⟩

theorem witness_SigwStoresTheSignature :
    (∃ s : State, s.memBytes < s.dst.toNat + 8) ∧ (∃ s : State, s.mem.wf = true ∧ s.dst.toNat + 8 ≤ s.memBytes) :=
  ⟨⟨{ small 8 [] with dst := 1#32 }, by decide⟩, ⟨small 8 [], by decide⟩⟩

/-- The buffer past MEM; 7 bytes; 8 bytes that differ; the signature in a MEM it fills. -/
theorem witness_SopenChecksTheSignature :
    (∃ s : State, s.memBytes < s.src.toNat + s.avail.toNat) ∧
    (∃ s : State, s.src.toNat + s.avail.toNat ≤ s.memBytes ∧ s.avail.toNat < 8) ∧
    (∃ s : State, s.src.toNat + s.avail.toNat ≤ s.memBytes ∧ s.mem.readBytes s.src.toNat 8 ≠ sig) ∧
    (∃ s : State, s.src.toNat + s.avail.toNat ≤ s.memBytes ∧ 8 ≤ s.avail.toNat ∧ s.mem.readBytes s.src.toNat 8 = sig) :=
  ⟨⟨{ small 8 sig with src := 1#32, avail := 8#32 }, by decide⟩, ⟨{ small 8 sig with avail := 7#32 }, by decide⟩,
    ⟨{ small 8 (sig.set 7 0x0B#8) with avail := 8#32 }, by decide⟩, ⟨{ small 8 sig with avail := 8#32 }, by decide⟩⟩

/-- Outside LOOP; the buffer past MEM; the cursor past the buffer; the cursor at its end; a bad frame; a good frame. -/
theorem witness_SnextTakesOneTurnOfTheLoop :
    (∃ s : State, Status.ss s.status ≠ 1#2) ∧
    (∃ s : State, Status.ss s.status = 1#2 ∧ s.memBytes < s.src.toNat + s.avail.toNat) ∧
    (∃ s : State, Status.ss s.status = 1#2 ∧ s.avail.toNat < s.cur.toNat) ∧
    (∃ s : State, Status.ss s.status = 1#2 ∧ s.src.toNat + s.avail.toNat ≤ s.memBytes ∧ s.cur = s.avail) ∧
    (∃ s : State, Status.ss s.status = 1#2 ∧ s.src.toNat + s.avail.toNat ≤ s.memBytes ∧ s.cur.toNat < s.avail.toNat ∧
      decodeChunk (s.mem.readBytes (s.src.toNat + s.cur.toNat) (s.avail.toNat - s.cur.toNat)) = .error .tooShort) ∧
    (∃ s : State, Status.ss s.status = 1#2 ∧ s.memBytes ≤ 2 ^ 32 ∧ s.src.toNat + s.avail.toNat ≤ s.memBytes ∧
      s.cur.toNat < s.avail.toNat ∧
      decodeChunk (s.mem.readBytes (s.src.toNat + s.cur.toNat) (s.avail.toNat - s.cur.toNat)) =
        .ok ⟨0#32, iend, [], 0xAE426082#32⟩) :=
  ⟨⟨{ small 12 frameE with status := 0x20#32 }, by decide⟩,
    ⟨{ small 12 frameE with status := 0x10#32, avail := 13#32 }, by decide⟩,
    ⟨{ small 12 frameE with status := 0x10#32, avail := 12#32, cur := 13#32 }, by decide⟩,
    ⟨{ small 12 frameE with status := 0x10#32, avail := 12#32, cur := 12#32 }, by decide⟩,
    ⟨{ small 12 frameE with status := 0x10#32, avail := 12#32, cur := 1#32 }, by decide⟩,
    ⟨{ small 12 frameE with status := 0x10#32, avail := 12#32 }, by decide +kernel⟩⟩

theorem witness_DecodeSequenceEqualsDecodePng : (small 20 (sig ++ frameE)).memBytes ≤ 2 ^ 32 ∧
    (0#32).toNat + (20#32).toNat ≤ (small 20 (sig ++ frameE)).memBytes := by decide

/-- A payload at the start of MEM and the stream right after it, up to the end of MEM. -/
theorem witness_EncodeSequenceWritesSerializePng :
    (small 24 hi).mem.wf = true ∧ (small 24 hi).memBytes ≤ 2 ^ 32 ∧
    22 = 8 + ([PlacedChunk.mk rust 0#32 2#32].map (fun c => 12 + c.len.toNat)).sum ∧
    (2#32).toNat + 22 ≤ (small 24 hi).memBytes ∧
    ∀ c ∈ [PlacedChunk.mk rust 0#32 2#32], c.addr.toNat + c.len.toNat ≤ (small 24 hi).memBytes ∧
      (c.len.toNat = 0 ∨ c.addr.toNat + c.len.toNat ≤ (2#32).toNat ∨ (2#32).toNat + 22 ≤ c.addr.toNat) := by decide

theorem witness_DecodePngRunsTheLoop :
    (sig.take 7).length < 8 ∧ (8 ≤ sig.length ∧ sig.take 8 = sig) ∧ (sig.set 0 0x88#8).take 8 ≠ sig ∧
    8 < (sig ++ frameE).length := by decide

theorem witness_DecodedListsAreValidAndEndAtIend : decodePng (sig ++ frameE) = .ok [⟨iend, []⟩] := by decide +kernel

theorem witness_AppendKeepsTheTerminalChunkLast :
    (Chunk.mk iend []).type = iend ∧ (Chunk.mk rust hi).type ≠ iend ∧
    ∀ x ∈ [⟨rust, msg⟩] ++ [Chunk.mk rust hi, ⟨iend, []⟩], x.data.length < 2 ^ 32 := by decide

theorem witness_LookupAndRemovalTakeTheFirstMatch :
    (Chunk.mk rust hi).type.bytes = rust.bytes ∧ (∀ x ∈ [Chunk.mk iend []], x.type.bytes ≠ rust.bytes) ∧
    (rust.bytes.take 3).length ≠ 4 := by decide

theorem witness_StreamsRoundTrip :
    decodePng (sig ++ frameE) = .ok [⟨iend, []⟩] ∧
    ((∀ c ∈ [Chunk.mk rust hi, ⟨iend, []⟩], isValid c.type = true ∧ c.data.length < 2 ^ 32) ∧
      ∀ c ∈ [Chunk.mk rust hi, ⟨iend, []⟩].dropLast, c.type ≠ iend) ∧
    ((∀ x ∈ [Chunk.mk rust hi], isValid x.type = true ∧ x.type ≠ iend) ∧
      (∀ x ∈ [Chunk.mk rust hi] ++ ⟨iend, []⟩ :: [⟨rust, []⟩], x.data.length < 2 ^ 32) ∧ (Chunk.mk iend []).type = iend) ∧
    ((∀ x ∈ [Chunk.mk rust hi] ++ ⟨⟨0#8, 0#8, 0#8, 0#8⟩, hi⟩ :: [], x.data.length < 2 ^ 32) ∧
      isValid (Chunk.mk ⟨0#8, 0#8, 0#8, 0#8⟩ hi).type = false) := by decide +kernel

end Sys2Proof.Tests
end

/-! ### Proofs of the family 10_state: the FLAGS register, the host operations, reset, ERRPOS -/

namespace Sys2Proof

/-! #### Registers by number, words by command -/

/-- A number names a register exactly when it is that register's number (R10). -/
theorem Reg.ofNumber_eq_some_iff {n : Nat} {r : Reg} : Reg.ofNumber n = some r ↔ n = r.number := by
  constructor
  · intro h
    have hn : n ≤ 12 := by
      by_contra hn
      simp [Reg.ofNumber_eq_none_iff.mpr (by omega : 12 < n)] at h
    interval_cases n <;> cases h <;> rfl
  · rintro rfl
    exact Reg.ofNumber_number r

/-- A word that matches a row of format N is the word of that row's command (R64). -/
theorem eq_encode_of_rowN {w p : Word} {i : Instr} (hp : p = encode i)
    (h : w &&& (rowN p i).mask = (rowN p i).pattern) : w = encode ((rowN p i).build (immField w)) := by
  have hw : w &&& BitVec.allOnes 32 = p := h
  rw [BitVec.and_allOnes] at hw
  exact hw.trans hp

/-- A word that matches a row of format I is the word of that row's command at the word's own imm8 (R65): its bits 31:8
are the pattern's. -/
theorem eq_encode_of_rowI {w p : Word} {build : Byte → Instr} (hp : ∀ b, p.extractLsb' 8 24 ++ b = encode (build b))
    (h : w &&& (rowI p build).mask = (rowI p build).pattern) : w = encode ((rowI p build).build (immField w)) := by
  have htop : w.extractLsb' 8 24 = p.extractLsb' 8 24 := by
    have hw : (w &&& 0xFFFFFF00#32).extractLsb' 8 24 = p.extractLsb' 8 24 := congrArg _ h
    rwa [BitVec.extractLsb'_and, show (0xFFFFFF00#32).extractLsb' 8 24 = BitVec.allOnes 24 from rfl,
      BitVec.and_allOnes] at hw
  have hsplit : w.extractLsb' 8 24 ++ immField w = w := by
    rw [immField, BitVec.extractLsb'_append_extractLsb'_eq_extractLsb' (start₁ := 0) (len₁ := 8)
      (start₂ := 8) rfl]
    simp
  calc w = w.extractLsb' 8 24 ++ immField w := hsplit.symm
    _ = p.extractLsb' 8 24 ++ immField w := by rw [htop]
    _ = encode (build (immField w)) := hp _

/-- A word that matches a row of the table is the encoding of the command the row builds (R63 to R66). -/
theorem eq_encode_of_mem_opcodeTable {w : Word} {r : OpcodeRow} (hr : r ∈ opcodeTable)
    (hw : w &&& r.mask = r.pattern) : w = encode (r.build (immField w)) := by
  simp only [opcodeTable, List.mem_cons, List.not_mem_nil, or_false] at hr
  obtain rfl | rfl | rfl | rfl | rfl | rfl | rfl | rfl | rfl | rfl | rfl | rfl | rfl | rfl := hr
  case inr.inr.inr.inl => exact eq_encode_of_rowI (by decide) hw
  all_goals exact eq_encode_of_rowN (by decide) hw

/-- The decoder answers a command only for that command's own word. -/
theorem eq_encode_of_decode_ok {w : Word} {i : Instr} (h : decode w = .ok i) : w = encode i := by
  unfold decode at h
  cases hrow : selectRow w with
  | none =>
    rw [hrow] at h
    dsimp only at h
    split at h <;> cases h
  | some r =>
    rw [hrow] at h
    cases h
    have hmatch := List.find?_some hrow
    exact eq_encode_of_mem_opcodeTable (List.mem_of_find?_eq_some hrow) (by simpa using hmatch)

namespace Machine

/-! #### The type predicates and FLAGS -/

/-- Masking a byte with FLAG_MASK tests its bit 5. -/
theorem and_flagMask_beq_zero (b : Byte) : (b &&& flagMask == 0#8) = !b.getLsbD 5 := by
  revert b
  decide

theorem isCritical_eq (t : Type4) : isCritical t = !t.b0.getLsbD 5 := and_flagMask_beq_zero t.b0

theorem isPublic_eq (t : Type4) : isPublic t = !t.b1.getLsbD 5 := and_flagMask_beq_zero t.b1

theorem reservedBitValid_eq (t : Type4) : reservedBitValid t = !t.b2.getLsbD 5 := and_flagMask_beq_zero t.b2

theorem isSafeToCopy_eq (t : Type4) : isSafeToCopy t = t.b3.getLsbD 5 := by
  rw [isSafeToCopy, bne, and_flagMask_beq_zero, Bool.not_not]

theorem typeBytes_b0 (w : Word) : (typeBytes w).b0 = w.extractLsb' 24 8 := rfl

theorem typeBytes_b1 (w : Word) : (typeBytes w).b1 = w.extractLsb' 16 8 := rfl

theorem typeBytes_b2 (w : Word) : (typeBytes w).b2 = w.extractLsb' 8 8 := rfl

theorem typeBytes_b3 (w : Word) : (typeBytes w).b3 = w.extractLsb' 0 8 := rfl

/-- FLAGS bit by bit, from the predicates on the type code (R15). -/
theorem getLsbD_flagsOf (w : Word) (k : Nat) : (flagsOf w).getLsbD k =
    match k with
    | 0 => !isCritical (typeBytes w)
    | 1 => !isPublic (typeBytes w)
    | 2 => !reservedBitValid (typeBytes w)
    | 3 => isSafeToCopy (typeBytes w)
    | 4 => allLetters (typeBytes w)
    | 5 => isValid (typeBytes w)
    | _ + 6 => false := by
  rcases k with _ | _ | _ | _ | _ | _ | k <;> simp only [flagsOf, BitVec.getLsbD_append] <;> simp

/-- FLAGS reads 0 after reset: a zero TYPE has upper-case bytes that are no letters. -/
@[simp] theorem flagsOf_zero : flagsOf 0#32 = 0#32 := by decide

/-! #### What a write to a register does -/

section

variable (s : State) (r : Reg) (v : Word)

@[simp] theorem State.status_writeReg : (s.writeReg r v).status = s.status := by cases r <;> rfl

@[simp] theorem State.errpos_writeReg : (s.writeReg r v).errpos = s.errpos := by cases r <;> rfl

theorem State.memKept_writeReg : s.memKept (s.writeReg r v) := by cases r <;> exact fun _ => rfl

theorem State.worldKept_writeReg : s.worldKept (s.writeReg r v) := by cases r <;> exact ⟨rfl, rfl, rfl⟩

/-- A write to one register shows in no other, but for FLAGS, which follows TYPE. -/
theorem State.regsKept_writeReg : s.regsKept (s.writeReg r v) [r, .flags] := by
  intro q hq
  cases r <;> cases q <;> simp at hq ⊢

theorem State.readReg_flags_writeReg (h : r ≠ .type) : (s.writeReg r v).readReg .flags = s.readReg .flags := by
  cases r <;> simp at h ⊢

/-- A read-write register reads as the value written last. -/
theorem State.readReg_writeReg_same (h : r ∈ [Reg.type, .len, .crc, .src, .avail, .dst, .cur, .crcacc]) :
    (s.writeReg r v).readReg r = v := by
  cases r <;> simp at h ⊢

end

/-! #### The host operations, one equation per case -/

section

variable {s t : State}

theorem performHost_writeReg_number {r : Reg} (hr : r ≠ .cmd) (v : Word) (s : State) :
    performHost (.writeReg r.number v) s = .next (s.writeReg r v) :=
  perform_asmWr v s hr

theorem performHost_readReg_number (r : Reg) (s : State) :
    performHost (.readReg r.number) s = .next { s with replies := s.replies ++ [.word (s.readReg r)] } := by
  simp [performHost, hostReadReg]

theorem performHost_writeMem_inside {a : Nat} (b : Byte) (ha : a < s.memBytes) :
    performHost (.writeMem a b) s = .next { s with mem := s.mem.write a b } :=
  if_pos ha

theorem performHost_readMem_inside {a : Nat} (ha : a < s.memBytes) :
    performHost (.readMem a) s = .next { s with replies := s.replies ++ [.byte (s.mem.read a)] } :=
  if_pos ha

theorem performHost_writeReg_refused {n : Nat} (hn : 12 < n) (v : Word) (s : State) :
    performHost (.writeReg n v) s = .refused (.noSuchRegister n) := by
  simp [performHost, hostWriteReg, Reg.ofNumber_eq_none_iff.mpr hn]

theorem performHost_readReg_refused {n : Nat} (hn : 12 < n) (s : State) :
    performHost (.readReg n) s = .refused (.noSuchRegister n) := by
  simp [performHost, hostReadReg, Reg.ofNumber_eq_none_iff.mpr hn]

theorem performHost_writeMem_refused {a : Nat} (b : Byte) (ha : s.memBytes ≤ a) :
    performHost (.writeMem a b) s = .refused (.noSuchAddress a) :=
  if_neg (not_lt.mpr ha)

theorem performHost_readMem_refused {a : Nat} (ha : s.memBytes ≤ a) :
    performHost (.readMem a) s = .refused (.noSuchAddress a) :=
  if_neg (not_lt.mpr ha)

/-! #### What a command word, a host operation and a step can do -/

theorem runWord_cases {w : Word} (h : runWord w s = .next t) :
    (∃ i, decode w = .ok i ∧ exec i s = .next t) ∨ (∃ e, decode w = .error e ∧ t = s.hwFault .illegalCommand) := by
  unfold runWord at h
  split at h
  next i hi => exact .inl ⟨i, hi, h⟩
  next e he =>
    cases h
    exact .inr ⟨e, he, rfl⟩

theorem performHost_cases {op : HostOp} (h : performHost op s = .next t) :
    (∃ w, op = .writeReg 0 w ∧ runWord w s = .next t) ∨
    (∃ r v, op = .writeReg r.number v ∧ r ≠ .cmd ∧ t = s.writeReg r v) ∨
    (∃ r, op = .readReg r.number ∧ t = { s with replies := s.replies ++ [.word (s.readReg r)] }) ∨
    (∃ a b, op = .writeMem a b ∧ a < s.memBytes ∧ t = { s with mem := s.mem.write a b }) ∨
    (∃ a, op = .readMem a ∧ a < s.memBytes ∧ t = { s with replies := s.replies ++ [.byte (s.mem.read a)] }) := by
  cases op with
  | writeReg n v =>
    simp only [performHost, hostWriteReg] at h
    split at h
    · cases h
    next r hr =>
      obtain rfl := Reg.ofNumber_eq_some_iff.mp hr
      split_ifs at h with hc
      · subst hc
        exact .inl ⟨v, rfl, h⟩
      · cases h
        exact .inr (.inl ⟨r, v, rfl, hc, rfl⟩)
  | readReg n =>
    simp only [performHost, hostReadReg] at h
    split at h
    · cases h
    next r hr =>
      obtain rfl := Reg.ofNumber_eq_some_iff.mp hr
      cases h
      exact .inr (.inr (.inl ⟨r, rfl, rfl⟩))
  | writeMem a b =>
    simp only [performHost, hostWriteMem] at h
    split_ifs at h with ha
    cases h
    exact .inr (.inr (.inr (.inl ⟨a, b, rfl, ha, rfl⟩)))
  | readMem a =>
    simp only [performHost, hostReadMem] at h
    split_ifs at h with ha
    cases h
    exact .inr (.inr (.inr (.inr ⟨a, rfl, ha, rfl⟩)))

theorem step_cases (h : step s = .next t) :
    (s.pending = [] ∧ t = s) ∨ (∃ e rest, s.pending = e :: rest ∧ perform e { s with pending := rest } = .next t) := by
  unfold step stepOnce at h
  split at h
  next hp =>
    cases h
    exact .inl ⟨hp, rfl⟩
  next e rest hp => exact .inr ⟨e, rest, hp, h⟩

end

/-! #### How a command ends -/

/-- The position a command gives with an error kind: the offset of the frame for SNEXT, 0 for every other (R13). -/
def errorOffset (i : Instr) (s : State) : Word := if i = .snext then s.cur else 0#32

/-- u is s after writes that leave alone what a command writes only by the way it ends (ERRPOS, HWF) and what no command
writes (STATUS bits 31:9, MEM_BYTES, the events to come, the replies given). -/
structure State.ControlKept (s u : State) : Prop where
  errpos : u.errpos = s.errpos
  hwf : Status.hwf u.status = Status.hwf s.status
  reserved : Status.reserved u.status = Status.reserved s.status
  memBytes : u.memBytes = s.memBytes
  pending : u.pending = s.pending
  replies : u.replies = s.replies

/-- The three ways a command ends (R12, R183, R184): `ok` or `raise` after such writes, or `fault` after none. -/
inductive State.Ends (i : Instr) (s : State) : State → Prop
  | ok {u : State} (hu : s.ControlKept u) : State.Ends i s u.succeed
  | raise {u : State} {k : ErrorKind} (hk : errorCode k ∈ [1#4, 2#4, 3#4, 5#4]) (hu : s.ControlKept u) :
      State.Ends i s (u.raise k (errorOffset i s))
  | fault (f : HwFault) : State.Ends i s (s.hwFault f)

/-- The kinds DecodeChunk fails with are among those a command reports. -/
theorem errorCode_of_decodeChunk_error {B : Bytes} {k : ErrorKind} (h : decodeChunk B = .error k) :
    errorCode k ∈ [1#4, 2#4, 3#4, 5#4] := by
  obtain rfl | rfl | rfl := decodeChunk_error h <;> decide

theorem State.ControlKept.refl (s : State) : s.ControlKept s := ⟨rfl, rfl, rfl, rfl, rfl, rfl⟩

theorem exec_ends {i : Instr} {s t : State} (h : exec i s = .next t) : State.Ends i s t := by
  cases i with
  | tnew =>
    obtain ⟨-, rfl⟩ | ⟨-, rfl⟩ := execTnew_cases h
    · exact .ok (.refl s)
    · exact .raise (by decide) (.refl s)
  | tparse =>
    obtain ⟨-, rfl⟩ | ⟨-, -, rfl⟩ | ⟨-, -, -, rfl⟩ := execTparse_cases h
    · exact .fault .bounds
    · exact .raise (by decide) (.refl s)
    · exact .ok ⟨rfl, rfl, rfl, rfl, rfl, rfl⟩
  | crci =>
    obtain rfl := execCrci_cases h
    exact .ok ⟨rfl, rfl, rfl, rfl, rfl, rfl⟩
  | crcb imm8 =>
    obtain rfl := execCrcb_cases h
    exact .ok ⟨rfl, rfl, rfl, rfl, rfl, rfl⟩
  | crct =>
    obtain rfl := execCrct_cases h
    exact .ok ⟨rfl, rfl, rfl, rfl, rfl, rfl⟩
  | crcm =>
    obtain ⟨-, rfl⟩ | ⟨-, rfl⟩ := execCrcm_cases h
    · exact .fault .bounds
    · exact .ok ⟨rfl, rfl, rfl, rfl, rfl, rfl⟩
  | crcf =>
    obtain rfl := execCrcf_cases h
    exact .ok ⟨rfl, rfl, rfl, rfl, rfl, rfl⟩
  | crcg =>
    obtain ⟨-, rfl⟩ | ⟨-, rfl⟩ := execCrcg_cases h
    · exact .fault .bounds
    · exact .ok ⟨rfl, rfl, rfl, rfl, rfl, rfl⟩
  | crcv =>
    obtain ⟨-, rfl⟩ | ⟨-, -, rfl⟩ | ⟨-, -, rfl⟩ := execCrcv_cases h
    · exact .fault .bounds
    · exact .raise (by decide) (.refl s)
    · exact .ok (.refl s)
  | cenc =>
    obtain ⟨-, rfl⟩ | ⟨-, -, -, rfl⟩ | ⟨-, -, -, rfl⟩ := execCenc_cases h
    · exact .fault .bounds
    · exact .fault .overlap
    · exact .ok ⟨rfl, rfl, rfl, rfl, rfl, rfl⟩
  | cdec =>
    obtain ⟨-, rfl⟩ | ⟨k, -, hk, rfl⟩ | ⟨ch, -, -, rfl⟩ := execCdec_cases h
    · exact .fault .bounds
    · exact .raise (errorCode_of_decodeChunk_error hk) (by constructor <;> simp)
    · exact .ok (by constructor <;> simp)
  | sigw =>
    obtain ⟨-, rfl⟩ | ⟨-, rfl⟩ := execSigw_cases h
    · exact .fault .bounds
    · exact .ok ⟨rfl, rfl, rfl, rfl, rfl, rfl⟩
  | sopen =>
    obtain ⟨-, rfl⟩ | ⟨-, -, rfl⟩ | ⟨-, -, rfl⟩ := execSopen_cases h
    · exact .fault .bounds
    · exact .ok (by constructor <;> simp)
    · exact .raise (by decide) (by constructor <;> simp)
  | snext =>
    obtain ⟨-, rfl⟩ | ⟨-, -, rfl⟩ | ⟨-, -, -, rfl⟩ | ⟨k, -, -, -, hk, rfl⟩ | ⟨ch, -, -, -, -, rfl⟩ := execSnext_cases h
    · exact .fault .badState
    · exact .fault .bounds
    · exact .ok (by constructor <;> simp)
    · exact .raise (errorCode_of_decodeChunk_error hk) (by constructor <;> simp)
    · exact .ok (by constructor <;> simp)

/-- ERRPOS after a command (R13). -/
theorem State.Ends.errpos_eq {i : Instr} {s t : State} (h : State.Ends i s t) :
    t.errpos = if Status.err t.status ∈ [1#4, 2#4, 3#4, 5#4] then errorOffset i s else s.errpos := by
  cases h with
  | ok hu => simpa using hu.errpos
  | raise hk hu => rw [if_pos (by simpa using hk), State.raise_errpos]
  | fault f => cases f <;> simp [faultCode]

/-- No command clears HWF (R184). -/
theorem State.Ends.hwf_of_hwf {i : Instr} {s t : State} (h : State.Ends i s t) (hs : Status.hwf s.status = true) :
    Status.hwf t.status = true := by
  cases h with
  | ok hu => simpa [hs] using hu.hwf
  | raise hk hu => simpa [hs] using hu.hwf
  | fault f => simp

/-- No host operation clears HWF (R184). -/
theorem hwf_of_performHost {op : HostOp} {s t : State} (h : performHost op s = .next t)
    (hs : Status.hwf s.status = true) : Status.hwf t.status = true := by
  obtain ⟨w, -, hw⟩ | ⟨r, v, -, -, rfl⟩ | ⟨r, -, rfl⟩ | ⟨a, b, -, -, rfl⟩ | ⟨a, -, -, rfl⟩ := performHost_cases h
  · obtain ⟨i, -, hi⟩ | ⟨e, -, rfl⟩ := runWord_cases hw
    · exact (exec_ends hi).hwf_of_hwf hs
    · simp
  · simpa using hs
  all_goals exact hs

/-- A host operation that is no command leaves ERRPOS alone, an illegal word included (R13, R67). -/
theorem errpos_of_performHost {op : HostOp} {s t : State} (h : performHost op s = .next t)
    (hop : ∀ i, op ≠ .writeReg 0 (encode i)) : t.errpos = s.errpos := by
  obtain ⟨w, rfl, hw⟩ | ⟨r, v, -, -, rfl⟩ | ⟨r, -, rfl⟩ | ⟨a, b, -, -, rfl⟩ | ⟨a, -, -, rfl⟩ := performHost_cases h
  · obtain ⟨i, hi, -⟩ | ⟨e, -, rfl⟩ := runWord_cases hw
    · exact absurd (congrArg _ (eq_encode_of_decode_ok hi)) (hop i)
    · rfl
  · simp
  all_goals rfl

/-! #### Reset -/

theorem State.readReg_resetWith (n : Nat) (m : Memory) (r : Reg) : (State.resetWith n m).readReg r = 0#32 := by
  cases r <;> simp

theorem State.readReg_afterReset (c : List Host.Cell) (s : State) (r : Reg) : (s.afterReset c).readReg r = 0#32 := by
  rw [← State.readReg_resetWith s.memBytes (Memory.ofCells s.memBytes c) r]
  cases r <;> rfl

theorem Memory.ofCells_append_singleton (size : Nat) (cells : List Host.Cell) {a : Nat} (b : Byte) (ha : a < size) :
    Memory.ofCells size (cells ++ [(a, b)]) = (Memory.ofCells size cells).write a b := by
  simp [Memory.ofCells, List.foldl_append, ha]

/-- The cells that give the first n bytes of MEM the content f. -/
def cellsOf (f : Nat → Byte) (n : Nat) : List Host.Cell := (List.range n).map (fun a => (a, f a))

theorem cellsOf_succ (f : Nat → Byte) (n : Nat) : cellsOf f (n + 1) = cellsOf f n ++ [(n, f n)] := by
  simp [cellsOf, List.range_succ]

/-- Every content of MEM is the content of some list of cells. -/
theorem Memory.read_ofCells_cellsOf (f : Nat → Byte) (size : Nat) : ∀ n ≤ size, ∀ a < n,
    (Memory.ofCells size (cellsOf f n)).read a = f a := by
  intro n
  induction n with
  | zero => intro _ a ha; omega
  | succ n ih =>
    intro hn a ha
    rw [cellsOf_succ, Memory.ofCells_append_singleton size _ _ hn]
    by_cases han : a = n
    · subst han
      exact Memory.read_write_same a (f a) (Memory.wf_ofCells size _).1
    · rw [Memory.read_write_other _ _ han]
      exact ih (by omega) a (by omega)

/-- Only a reset clears HWF. -/
theorem reset_of_step_clears_hwf {s t : State} (h : step s = .next t) (hs : Status.hwf s.status = true)
    (ht : Status.hwf t.status = false) : ∃ c rest, s.pending = .reset c :: rest := by
  obtain ⟨-, rfl⟩ | ⟨e, rest, hp, he⟩ := step_cases h
  · simp [hs] at ht
  · cases e with
    | host op =>
      have hkept : Status.hwf t.status = true := hwf_of_performHost he hs
      simp [hkept] at ht
    | reset c => exact ⟨c, rest, hp⟩

/-! #### The obligations -/

/-- Settles O26, from FLAGS bit by bit and the predicates as bit 5 of the type bytes. -/
theorem flagsRegisterDecodesType : Obligations.FlagsRegisterDecodesType := by
  intro s
  have hcrit := isCritical_eq (typeBytes s.type)
  have hpub := isPublic_eq (typeBytes s.type)
  have hres := reservedBitValid_eq (typeBytes s.type)
  have hsafe := isSafeToCopy_eq (typeBytes s.type)
  simp only [State.readReg_flags, getLsbD_flagsOf]
  refine ⟨?_, ?_, ?_, ?_, trivial, trivial, ?_, toWord_typeBytes s.type, typeBytes_toWord, typeBytes_b0 s.type,
    typeBytes_b1 s.type, typeBytes_b2 s.type, typeBytes_b3 s.type⟩
  · simp [hcrit, typeBytes_b0]
  · simp [hpub, typeBytes_b1]
  · simp [hres, typeBytes_b2]
  · simp [hsafe, typeBytes_b3]
  · intro k hk
    obtain ⟨j, rfl⟩ := Nat.exists_eq_add_of_le' hk
    rfl

/-- Settles O17, by the three ways a command ends, and by what a host operation can do. -/
theorem errposIsWrittenOnlyByErrors : Obligations.ErrposIsWrittenOnlyByErrors :=
  ⟨fun _ _ _ h => (exec_ends h).errpos_eq, fun _ _ _ h hop => errpos_of_performHost h hop⟩

/-- Settles O10: registers, MEM and HWF each by their lemma on reset. -/
theorem resetZeroesRegistersAndLeavesMemoryOpen : Obligations.ResetZeroesRegistersAndLeavesMemoryOpen := by
  refine ⟨fun n m => ⟨State.readReg_resetWith n m, rfl⟩, fun s f => ?_, fun s t c h r => ?_,
    fun s t => reset_of_step_clears_hwf⟩
  · exact ⟨cellsOf f s.memBytes, _, rfl, Memory.read_ofCells_cellsOf f s.memBytes s.memBytes le_rfl⟩
  · cases h
    exact State.readReg_afterReset c s r

/-- Settles O8, clause by clause from the equations of the four operations. -/
theorem hostOperationsActAsTheInterfaceSays : Obligations.HostOperationsActAsTheInterfaceSays := by
  refine ⟨fun s v => rfl, fun s r v hr => ?_, fun s n v hn => ?_, fun s r => ?_, fun s => rfl, fun s a b hwf ha => ?_,
    fun s a ha => ?_, fun s n v hn => ?_, fun s a b ha => ?_⟩
  · have hcmd : r ≠ .cmd := by rintro rfl; simp at hr
    exact ⟨_, performHost_writeReg_number hcmd v s, s.readReg_writeReg_same r v hr, s.regsKept_writeReg r v,
      s.readReg_flags_writeReg r v, s.memKept_writeReg r v, s.worldKept_writeReg r v⟩
  · simp only [List.mem_cons, List.not_mem_nil, or_false] at hn
    obtain rfl | rfl | rfl | rfl := hn <;> rfl
  · exact ⟨_, performHost_readReg_number r s, rfl, by intro q _; cases q <;> rfl, fun _ => rfl, rfl, rfl⟩
  · exact ⟨_, performHost_writeMem_inside b ha, Memory.read_write_same a b hwf,
      fun x hx => Memory.read_write_other s.mem b (by omega), by intro q _; cases q <;> rfl, rfl, rfl, rfl⟩
  · exact ⟨_, performHost_readMem_inside ha, rfl, by intro q _; cases q <;> rfl, fun _ => rfl, rfl, rfl⟩
  · exact ⟨performHost_writeReg_refused hn v s, performHost_readReg_refused hn s⟩
  · exact ⟨performHost_writeMem_refused b ha, performHost_readMem_refused ha⟩

end Machine

end Sys2Proof

/-! ### Proofs of the family 20_memory: the Overlap fault of CENC -/

namespace Sys2Proof.Machine

section

variable {s t : State}

/-- The overlap test compares the bounds of the two regions; it finds a byte both hold (R49). -/
theorem State.overlapping_iff_shared_byte : s.overlapping = true ↔
    ∃ a, s.src.toNat ≤ a ∧ a < s.src.toNat + s.len.toNat ∧ s.dst.toNat ≤ a ∧ a < s.dst.toNat + 12 + s.len.toNat := by
  rw [State.overlapping_iff]
  constructor
  · rintro ⟨hlen, hsrc, hdst⟩
    exact ⟨max s.src.toNat s.dst.toNat, by omega⟩
  · rintro ⟨a, ha⟩
    omega

theorem exec_cenc_of_overlapping (hp : s.payloadInside = true) (hf : s.frameInside = true)
    (ho : s.overlapping = true) : exec .cenc s = .next (s.hwFault .overlap) := by
  change execCenc s = _
  simp [execCenc, hp, hf, ho]

/-- CENC reports code 10 on no other branch: Bounds has code 9 and success code 0. -/
theorem overlapping_of_exec_cenc_err (h : exec .cenc s = .next t) (herr : Status.err t.status = 10#4) :
    s.overlapping = true := by
  obtain ⟨-, rfl⟩ | ⟨-, -, ho, -⟩ | ⟨-, -, -, rfl⟩ := execCenc_cases h
  · simp [faultCode] at herr
  · exact ho
  · simp at herr

end

/-- Settles O42: CENC's Overlap branch is the one that reports code 10, and its test finds a shared byte. -/
theorem cencOverlapMeansASharedByte : Obligations.CencOverlapMeansASharedByte := by
  intro s hsrc hdst
  rw [← State.overlapping_iff_shared_byte]
  constructor
  · rintro ⟨t, h, ⟨-, -, -, -, -, herr⟩, -⟩
    exact overlapping_of_exec_cenc_err h herr
  · intro ho
    exact ⟨_, exec_cenc_of_overlapping (s.payloadInside_iff.mpr hsrc) (s.frameInside_iff.mpr hdst) ho,
      s.faulted_hwFault .overlap⟩

end Sys2Proof.Machine

/-! ### Proofs of the family 30_encoding: the illegal words, the layout of a frame -/

namespace Sys2Proof

/-! #### A command word, field by field -/

/-- Every command's word is laid out as R64 and R65 say. -/
theorem encoding_statement (i : Instr) : Laws.Encoding.Statement i := by
  cases i with
  | tnew => exact Laws.Encoding.tnew
  | tparse => exact Laws.Encoding.tparse
  | crci => exact Laws.Encoding.crci
  | crcb imm8 => exact Laws.Encoding.crcb imm8
  | crct => exact Laws.Encoding.crct
  | crcm => exact Laws.Encoding.crcm
  | crcf => exact Laws.Encoding.crcf
  | crcg => exact Laws.Encoding.crcg
  | crcv => exact Laws.Encoding.crcv
  | cenc => exact Laws.Encoding.cenc
  | cdec => exact Laws.Encoding.cdec
  | sigw => exact Laws.Encoding.sigw
  | sopen => exact Laws.Encoding.sopen
  | snext => exact Laws.Encoding.snext

/-- Bits 23:0, which format N says are zero (R64), are the bits 23:8 that format I says are zero (R65), then imm8. -/
theorem extractLsb'_low24_eq_append (w : Word) : w.extractLsb' 0 24 = w.extractLsb' 8 16 ++ immField w :=
  (BitVec.extractLsb'_append_extractLsb'_eq_extractLsb' (x := w) (start₁ := 0) (len₁ := 8) (start₂ := 8) rfl).symm

/-- A word is its opcode, its bits 23:8 and its imm8. -/
theorem eq_append_fields (w : Word) : w = opField w ++ w.extractLsb' 8 16 ++ immField w := by
  have htop : opField w ++ w.extractLsb' 8 16 = w.extractLsb' 8 24 :=
    BitVec.extractLsb'_append_extractLsb'_eq_extractLsb' (start₁ := 8) (len₁ := 16) (start₂ := 24) rfl
  have hall : w.extractLsb' 8 24 ++ immField w = w.extractLsb' 0 32 :=
    BitVec.extractLsb'_append_extractLsb'_eq_extractLsb' (start₁ := 0) (len₁ := 8) (start₂ := 8) rfl
  rw [htop, hall, BitVec.extractLsb'_eq_self]

/-- A word encodes a command exactly when each of its fields is the command's. -/
theorem eq_encode_iff {w : Word} {i : Instr} :
    w = encode i ↔ opField w = opcodeOf i ∧ w.extractLsb' 8 16 = 0#16 ∧ immField w = lowByteOf i := by
  constructor
  · rintro rfl
    exact (encoding_statement i).2
  · rintro ⟨hop, hmid, himm⟩
    rw [eq_append_fields w, hop, hmid, himm, encode]

/-- The opcodes that R66 lists. -/
def listedOpcodes : List Byte := opcodeTable.map (fun r => opField r.pattern)

/-- What a row builds has the row's opcode, and takes imm8 only in CRCB's row (R64, R65). -/
theorem fields_build_of_mem_opcodeTable {r : OpcodeRow} (hr : r ∈ opcodeTable) (b : Byte) :
    opcodeOf (r.build b) = opField r.pattern ∧
      lowByteOf (r.build b) = if opField r.pattern = 0x21#8 then b else 0#8 := by
  simp only [opcodeTable, List.mem_cons, List.not_mem_nil, or_false] at hr
  obtain rfl | rfl | rfl | rfl | rfl | rfl | rfl | rfl | rfl | rfl | rfl | rfl | rfl | rfl := hr <;> exact ⟨rfl, rfl⟩

theorem opcodeOf_mem_listedOpcodes (i : Instr) : opcodeOf i ∈ listedOpcodes := by
  cases i <;> decide +revert

/-- Only CRCB has an operand in its word (R65). -/
theorem lowByteOf_eq_zero {i : Instr} (h : opcodeOf i ≠ 0x21#8) : lowByteOf i = 0#8 := by
  cases i with
  | crcb imm8 => exact absurd rfl h
  | _ => rfl

/-- The opcode and the low byte of a command: any listed opcode, and a low byte other than zero for CRCB's only. -/
theorem exists_instr_with_fields_iff {op b : Byte} :
    (∃ i, op = opcodeOf i ∧ b = lowByteOf i) ↔ op ∈ listedOpcodes ∧ (op ≠ 0x21#8 → b = 0#8) := by
  constructor
  · rintro ⟨i, rfl, rfl⟩
    exact ⟨opcodeOf_mem_listedOpcodes i, lowByteOf_eq_zero⟩
  · rintro ⟨hop, hb⟩
    obtain ⟨r, hr, rfl⟩ := List.mem_map.mp hop
    obtain ⟨hopcode, hlow⟩ := fields_build_of_mem_opcodeTable hr b
    refine ⟨r.build b, hopcode.symm, ?_⟩
    split_ifs at hlow with hcrcb
    · exact hlow.symm
    · rw [hlow, hb hcrcb]

/-- The legal command words (R64 to R66). -/
theorem exists_eq_encode_iff {w : Word} :
    (∃ i, w = encode i) ↔
      opField w ∈ listedOpcodes ∧ w.extractLsb' 8 16 = 0#16 ∧ (opField w ≠ 0x21#8 → immField w = 0#8) := by
  calc (∃ i, w = encode i)
    _ ↔ w.extractLsb' 8 16 = 0#16 ∧ ∃ i, opField w = opcodeOf i ∧ immField w = lowByteOf i := by
      simp only [eq_encode_iff, ← exists_and_left, and_left_comm]
    _ ↔ _ := by rw [exists_instr_with_fields_iff, and_left_comm]

/-- Concatenations of the same widths are equal only part by part. -/
theorem bitVec_append_eq_append_iff {m n : Nat} {x y : BitVec m} {u v : BitVec n} : x ++ u = y ++ v ↔ x = y ∧ u = v := by
  constructor
  · intro h
    have hleft := congrArg (BitVec.extractLsb' n m) h
    have hright := congrArg (BitVec.extractLsb' 0 n) h
    rw [BitVec.extractLsb'_append_eq_left, BitVec.extractLsb'_append_eq_left] at hleft
    rw [BitVec.extractLsb'_append_eq_right, BitVec.extractLsb'_append_eq_right] at hright
    exact ⟨hleft, hright⟩
  · rintro ⟨rfl, rfl⟩
    rfl

/-- Bits 23:0 are zero exactly when bits 23:8 and bits 7:0 are. -/
theorem extractLsb'_low24_eq_zero_iff (w : Word) :
    w.extractLsb' 0 24 = 0#24 ↔ w.extractLsb' 8 16 = 0#16 ∧ immField w = 0#8 := by
  rw [extractLsb'_low24_eq_append, show 0#24 = 0#16 ++ 0#8 from rfl, bitVec_append_eq_append_iff]

/-- The illegal words, by the format that the opcode gives them (R67). -/
theorem forall_ne_encode_iff {w : Word} :
    (∀ i, w ≠ encode i) ↔
      opField w ∉ listedOpcodes ∨ (opField w ≠ 0x21#8 ∧ w.extractLsb' 0 24 ≠ 0#24) ∨
        (opField w = 0x21#8 ∧ w.extractLsb' 8 16 ≠ 0#16) := by
  rw [← not_exists, exists_eq_encode_iff, ne_eq (w.extractLsb' 0 24), extractLsb'_low24_eq_zero_iff]
  by_cases hop : opField w = 0x21#8 <;> tauto

/-- A word that encodes no command is refused by the decoder. -/
theorem exists_decode_eq_error {w : Word} (hw : ∀ i, w ≠ encode i) : ∃ e, decode w = .error e := by
  cases h : decode w with
  | ok i => exact absurd (eq_encode_of_decode_ok h) (hw i)
  | error e => exact ⟨e, rfl⟩

namespace Machine

/-! #### A write to CMD -/

theorem runWord_of_decode_error {w : Word} {e : IllegalWord} (h : decode w = .error e) (s : State) :
    runWord w s = .next (s.hwFault .illegalCommand) := by
  simp only [runWord, h]

/-- A step whose oldest event is a write to CMD runs the word written (R11). -/
theorem step_of_pending_writeCmd {s : State} {w : Word} {rest : List Event}
    (h : s.pending = .host (.writeReg 0 w) :: rest) : step s = runWord w { s with pending := rest } := by
  rw [step, stepOnce, h]
  rfl

/-! #### A frame, field by field -/

section

variable (t : Type4) (d : Bytes)

/-- The frame with its fields in front, one after the other. -/
theorem serialize_eq_append : serialize t d =
    (Quad.ofWord (BitVec.ofNat 32 d.length)).bytes ++ (t.bytes ++ (d ++ (Quad.ofWord (chunkCrc t d)).bytes)) := by
  simp only [serialize, List.append_assoc]

theorem quadAt_serialize_length : quadAt (serialize t d) 0 = Quad.ofWord (BitVec.ofNat 32 d.length) := by
  rw [serialize_eq_append, quadAt_bytes_append]

theorem quadAt_serialize_type : quadAt (serialize t d) 4 = t := by
  rw [serialize_eq_append]
  exact (quadAt_append _ _ 0).trans (quadAt_bytes_append t _)

/-- Past the length and the type of a frame stand its payload and its CRC. -/
theorem drop_serialize : (serialize t d).drop 8 = d ++ (Quad.ofWord (chunkCrc t d)).bytes := by
  rw [serialize_eq_append]
  rfl

theorem quadAt_serialize_crc : quadAt (serialize t d) (8 + d.length) = Quad.ofWord (chunkCrc t d) := by
  have hprefix : ((Quad.ofWord (BitVec.ofNat 32 d.length)).bytes ++ t.bytes ++ d).length = 8 + d.length := by
    simp only [List.length_append, Quad.length_bytes]
  rw [serialize, ← hprefix]
  exact (quadAt_append _ _ 0).trans (quadAt_bytes _)

end

/-! #### The obligations -/

/-- Settles O3: the illegal words field by field; the decoder answers a command only for its own word, and a step on any
other is the fault. -/
theorem illegalWordsFaultAndChangeNothingElse : Obligations.IllegalWordsFaultAndChangeNothingElse := by
  refine ⟨fun w => forall_ne_encode_iff, forall_ne_encode_iff.mpr (.inl (by decide)),
    forall_ne_encode_iff.mpr (.inl (by decide)), fun w s rest hw hp => ?_⟩
  obtain ⟨e, he⟩ := exists_decode_eq_error hw
  exact ⟨⟨e, he⟩, _, (step_of_pending_writeCmd hp).trans (runWord_of_decode_error he _), State.faulted_hwFault _ _⟩

/-- Settles O39, field by field; the length field holds the length because it is below 2^32. -/
theorem serializeLaysOutTheFrame : Obligations.SerializeLaysOutTheFrame := by
  intro t d hd
  refine ⟨length_serialize t d, ?_, quadAt_serialize_type t d, ?_, ?_⟩
  · rw [quadAt_serialize_length, Quad.toWord_ofWord, BitVec.toNat_ofNat, Nat.mod_eq_of_lt hd]
  · rw [drop_serialize, List.take_left]
  · rw [quadAt_serialize_crc, Quad.toWord_ofWord]

end Machine

end Sys2Proof

/-! ### Proofs of the family 40_chunktype: the predicates on a type code, its constructors, TNEW and TPARSE -/

namespace Sys2Proof.Machine

/-! #### Letters and valid type codes -/

theorem isLetter_iff (b : Byte) :
    isLetter b = true ↔ (0x41#8 ≤ b ∧ b ≤ 0x5A#8) ∨ (0x61#8 ≤ b ∧ b ≤ 0x7A#8) := by
  simp [isLetter, BitVec.le_def]

theorem allLetters_iff (t : Type4) : allLetters t = true ↔ ∀ b ∈ t.bytes, isLetter b = true := by
  simp [allLetters, Quad.bytes, and_assoc]

theorem isValid_iff (t : Type4) : isValid t = true ↔ allLetters t = true ∧ reservedBitValid t = true := by
  rw [isValid, Bool.and_eq_true]

/-- In ASCII the upper-case letters are the letters with bit 5 clear. -/
theorem bit5_clear_iff_upper_of_isLetter {b : Byte} (h : isLetter b = true) :
    (!b.getLsbD 5) = true ↔ 0x41#8 ≤ b ∧ b ≤ 0x5A#8 := by
  revert b
  decide

theorem isValid_iff_upper_of_allLetters {t : Type4} (h : allLetters t = true) :
    isValid t = true ↔ 0x41#8 ≤ t.b2 ∧ t.b2 ≤ 0x5A#8 := by
  have hletter : isLetter t.b2 = true := (allLetters_iff t).mp h t.b2 (by simp [Quad.bytes])
  rw [isValid_iff, and_iff_right h, reservedBitValid_eq, bit5_clear_iff_upper_of_isLetter hletter]

/-! #### The constructor from text -/

theorem parseFromText_of_length_eq {s : Bytes} (h : s.length = 4) :
    parseFromText s = constructFromBytes (quadAt s 0) := if_pos h

theorem parseFromText_of_length_ne {s : Bytes} (h : s.length ≠ 4) :
    parseFromText s = .error .invalidChunkType := if_neg h

/-- On four bytes the two constructors agree. -/
theorem parseFromText_bytes (t : Type4) : parseFromText t.bytes = constructFromBytes t :=
  (parseFromText_of_length_eq t.length_bytes).trans (congrArg _ (quadAt_bytes t))

theorem parseFromText_ok_iff {s : Bytes} {t : Type4} :
    parseFromText s = .ok t ↔ s = t.bytes ∧ isValid t = true := by
  constructor
  · intro h
    have hlen : s.length = 4 := by
      by_contra hlen
      rw [parseFromText_of_length_ne hlen] at h
      cases h
    rw [parseFromText_of_length_eq hlen] at h
    obtain ⟨rfl, hvalid⟩ := constructFromBytes_ok h
    exact ⟨(bytes_quadAt s hlen).symm, hvalid⟩
  · rintro ⟨rfl, hvalid⟩
    rw [parseFromText_bytes, constructFromBytes_valid hvalid]

theorem parseFromText_error {s : Bytes} {k : ErrorKind} (h : parseFromText s = .error k) :
    k = .invalidChunkType ∧ (s.length = 4 → isValid (quadAt s 0) = false) := by
  by_cases hlen : s.length = 4
  · rw [parseFromText_of_length_eq hlen] at h
    obtain ⟨hk, hinvalid⟩ := constructFromBytes_error h
    exact ⟨hk, fun _ => hinvalid⟩
  · rw [parseFromText_of_length_ne hlen] at h
    cases h
    exact ⟨rfl, fun h4 => absurd h4 hlen⟩

/-! #### TNEW and TPARSE, one equation per ending -/

section

variable {s : State}

theorem exec_tnew_of_valid (h : isValid (typeBytes s.type) = true) : exec .tnew s = .next s.succeed := by
  change execTnew s = _
  rw [execTnew, constructFromBytes_valid h]

theorem exec_tnew_of_invalid (h : isValid (typeBytes s.type) = false) :
    exec .tnew s = .next (s.raise .invalidChunkType 0#32) := by
  change execTnew s = _
  rw [execTnew, constructFromBytes_invalid h]

theorem exec_tparse_of_bufferInside_false (h : s.bufferInside = false) :
    exec .tparse s = .next (s.hwFault .bounds) := if_pos h

theorem State.length_buffer (s : State) : s.buffer.length = s.avail.toNat :=
  Memory.length_readBytes s.mem s.src.toNat s.avail.toNat

/-- Past the bounds check TPARSE is ParseFromText on the buffer (R91): an error kind goes to STATUS. -/
theorem exec_tparse_of_parse_error {k : ErrorKind} (h : s.bufferInside = true)
    (hparse : parseFromText s.buffer = .error k) : exec .tparse s = .next (s.raise k 0#32) := by
  change execTparse s = _
  by_cases hlen : s.avail.toNat = 4
  · rw [parseFromText_of_length_eq (s.length_buffer.trans hlen)] at hparse
    simp [execTparse, h, hlen, hparse]
  · rw [parseFromText_of_length_ne (s.length_buffer.trans_ne hlen)] at hparse
    cases hparse
    simp [execTparse, h, hlen]

/-- Past the bounds check TPARSE is ParseFromText on the buffer (R91): a type code goes to TYPE. -/
theorem exec_tparse_of_parse_ok {ty : Type4} (h : s.bufferInside = true) (hparse : parseFromText s.buffer = .ok ty) :
    exec .tparse s = .next { s with type := ty.toWord }.succeed := by
  obtain ⟨hbuf, hvalid⟩ := parseFromText_ok_iff.mp hparse
  have hlen : s.avail.toNat = 4 := by rw [← s.length_buffer, hbuf, Quad.length_bytes]
  change execTparse s = _
  simp [execTparse, h, hlen, hbuf, constructFromBytes_valid hvalid]

end

/-! #### How `ok` leaves the registers -/

section

variable (s : State)

/-- `ok` with nothing else written. -/
theorem State.succeeded_succeed_self : s.succeeded s.succeed [] :=
  State.succeeded_succeed rfl (fun _ _ => rfl) ⟨rfl, rfl, rfl⟩

/-- `ok` after a write to TYPE, which FLAGS follows. -/
theorem State.succeeded_succeed_type (w : Word) : s.succeeded { s with type := w }.succeed [.type, .flags] :=
  State.succeeded_succeed rfl (fun r hr => s.regsKept_writeReg .type w r (fun h => hr (.tail _ h))) ⟨rfl, rfl, rfl⟩

end

/-! #### The obligations -/

/-- Settles O24: the letters as ranges of bytes, every property bit as bit 5 of its byte. -/
theorem typePredicatesReadLettersAndBitFive : Obligations.TypePredicatesReadLettersAndBitFive :=
  ⟨isLetter_iff, allLetters_iff, isCritical_eq, isPublic_eq, reservedBitValid_eq, isSafeToCopy_eq, isValid_iff,
    fun _ => isValid_iff_upper_of_allLetters⟩

/-- Settles O27, by the length of the text and the check that both constructors share. -/
theorem typeConstructorsValidate : Obligations.TypeConstructorsValidate :=
  ⟨fun _ => rfl, fun _ _ => parseFromText_ok_iff, fun _ _ => parseFromText_error⟩

/-- Settles O28: TNEW ends by the validity of TYPE, which is bit 5 of FLAGS. -/
theorem tnewValidatesType : Obligations.TnewValidatesType := by
  refine ⟨by decide, fun s => ⟨fun hvalid => ?_, fun hinvalid => ?_, getLsbD_flagsOf s.type 5⟩⟩
  · exact ⟨_, exec_tnew_of_valid hvalid, s.succeeded_succeed_self, fun _ => rfl⟩
  · exact ⟨_, exec_tnew_of_invalid hinvalid, s.raised_raise .invalidChunkType 0#32⟩

/-- Settles O29: past the bounds check TPARSE ends as ParseFromText does on the buffer. -/
theorem tparseLoadsAValidTypeFromMemory : Obligations.TparseLoadsAValidTypeFromMemory := by
  refine ⟨by decide, fun s => ⟨fun hout => ?_, fun hin hne => ?_, fun ty hin havail hmem => ?_⟩⟩
  · exact ⟨_, exec_tparse_of_bufferInside_false (s.bufferInside_false.mpr hout), s.faulted_hwFault .bounds⟩
  · have hlen : s.buffer.length ≠ 4 := s.length_buffer.trans_ne (fun h => hne (BitVec.eq_of_toNat_eq h))
    exact ⟨_, exec_tparse_of_parse_error (s.bufferInside_iff.mpr hin) (parseFromText_of_length_ne hlen),
      s.raised_raise .invalidChunkType 0#32⟩
  · have hinside := s.bufferInside_iff.mpr hin
    have hbuf : s.buffer = ty.bytes := by rw [State.buffer, havail]; exact hmem
    refine ⟨fun hinvalid => ?_, fun hvalid => ?_⟩
    · have hparse : parseFromText s.buffer = .error .invalidChunkType := by
        rw [hbuf, parseFromText_bytes, constructFromBytes_invalid hinvalid]
      exact ⟨_, exec_tparse_of_parse_error hinside hparse, s.raised_raise .invalidChunkType 0#32⟩
    · exact ⟨_, exec_tparse_of_parse_ok hinside (parseFromText_ok_iff.mpr ⟨hbuf, hvalid⟩), rfl,
        s.succeeded_succeed_type ty.toWord, fun _ => rfl⟩

end Sys2Proof.Machine

/-! ### Proofs of the family 41_crc: CrcUpdate, the CRC of a sequence, the engine, the generator and the verifier -/

namespace Sys2Proof.Machine

/-! #### CrcUpdate -/

/-- The bit loop of the model is one turn, iterated. -/
theorem crcShifts_eq_iterate (n : Nat) (r : Word) : crcShifts n r = crcShift^[n] r := by
  induction n generalizing r with
  | zero => rfl
  | succ n ih => exact ih (crcShift r)

/-- CrcUpdate is linear in the Word and the Byte together (R101). -/
theorem crcUpdate_xor (r r' : Word) (b b' : Byte) :
    crcUpdate (r ^^^ r') (b ^^^ b') = crcUpdate r b ^^^ crcUpdate r' b' := by
  have hsplit : r ^^^ r' ^^^ (b ^^^ b').setWidth 32 = (r ^^^ b.setWidth 32) ^^^ (r' ^^^ b'.setWidth 32) := by
    rw [BitVec.setWidth_xor]
    ac_rfl
  simp only [crcUpdate, hsplit, crcShifts_xor]

/-- A Word's own low byte clears the bits that the eight turns test, so they only shift. -/
theorem crcUpdate_self_lowByte (r : Word) : crcUpdate r (r.setWidth 8) = r >>> 8 := by
  have hlow : ∀ i < 8, (r ^^^ (r.setWidth 8).setWidth 32).getLsbD i = false := by
    intro i hi
    simp [hi, show i < 32 by omega]
  have hshift : (r ^^^ (r.setWidth 8).setWidth 32) >>> 8 = r >>> 8 := by
    ext i hi
    simp
  rw [crcUpdate, crcShifts_of_low_zero 8 _ hlow, hshift]

/-- One table lookup does eight turns (R101): split off the part that only shifts. -/
theorem crcUpdate_eq_table (r : Word) (b : Byte) :
    crcUpdate r b = crcUpdate 0#32 (r.setWidth 8 ^^^ b) ^^^ (r >>> 8) := by
  have hb : r.setWidth 8 ^^^ b ^^^ r.setWidth 8 = b := by
    rw [BitVec.xor_comm, ← BitVec.xor_assoc, BitVec.xor_self, BitVec.zero_xor]
  rw [← crcUpdate_self_lowByte, ← crcUpdate_xor, BitVec.zero_xor, hb]

theorem crcUpdate_injective (b : Byte) : Function.Injective (fun r => crcUpdate r b) := fun _ _ h =>
  (BitVec.xor_left_inj _).mp (crcShifts_injective 8 h)

theorem crcUpdate_injective_byte (r : Word) : Function.Injective (crcUpdate r) := by
  intro b b' h
  have hwide : b.setWidth 32 = b'.setWidth 32 := (BitVec.xor_right_inj r).mp (crcShifts_injective 8 h)
  simpa using congrArg (BitVec.setWidth 8) hwide

/-! #### The CRC of a sequence -/

/-- R100's final complement. -/
theorem xor_crcOnes (r : Word) : r ^^^ crcOnes = ~~~r := BitVec.xor_allOnes

theorem crc32_eq_not_foldl (s : Bytes) : crc32 s = ~~~(s.foldl crcUpdate 0xFFFFFFFF#32) := by
  rw [crc32, xor_crcOnes, crcFeed_eq_foldl, crcOnes]

theorem crcFeed_injective (s : Bytes) : Function.Injective (fun r => crcFeed r s) := by
  induction s with
  | nil => exact fun _ _ h => h
  | cons b s ih =>
    intro r r' h
    simp only [crcFeed_cons] at h
    exact crcUpdate_injective b (ih h)

/-- Sequences that differ in one byte have different CRCs: feeding the differing byte leaves different remainders, and
feeding the common rest keeps them different. -/
theorem eq_of_crc32_append_cons_eq {p q : Bytes} {b b' : Byte} (h : crc32 (p ++ b :: q) = crc32 (p ++ b' :: q)) :
    b = b' := by
  simp only [crc32, BitVec.xor_left_inj, crcFeed_append, crcFeed_cons] at h
  exact crcUpdate_injective_byte _ (crcFeed_injective q h)

theorem one_shiftLeft_ne_zero {k : Nat} (hk : k < 8) : 1#8 <<< k ≠ 0#8 := by
  decide +revert

/-! #### The endings of the commands -/

section

variable (s : State)

/-- `ok` after a write to a register that FLAGS does not follow. -/
theorem State.succeeded_succeed_writeReg {r : Reg} (hr : r ≠ .type) (v : Word) :
    s.succeeded (s.writeReg r v).succeed [r] := by
  refine State.succeeded_succeed (s.status_writeReg r v) (fun q hq => ?_) (s.worldKept_writeReg r v)
  by_cases hflags : q = .flags
  · rw [hflags, s.readReg_flags_writeReg r v hr]
  · exact s.regsKept_writeReg r v q (by simp_all)

theorem State.succeeded_succeed_crcacc (v : Word) : s.succeeded { s with crcacc := v }.succeed [.crcacc] :=
  s.succeeded_succeed_writeReg (r := .crcacc) (by decide) v

theorem State.succeeded_succeed_crc (v : Word) : s.succeeded { s with crc := v }.succeed [.crc] :=
  s.succeeded_succeed_writeReg (r := .crc) (by decide) v

variable {s}

theorem exec_crcm_of_payloadInside_false (h : s.payloadInside = false) : exec .crcm s = .next (s.hwFault .bounds) :=
  if_pos h

theorem exec_crcm_of_payloadInside (h : s.payloadInside = true) :
    exec .crcm s = .next { s with crcacc := crcFeed s.crcacc s.payload }.succeed :=
  if_neg (ne_false_of_eq_true h)

theorem exec_crcg_of_payloadInside_false (h : s.payloadInside = false) : exec .crcg s = .next (s.hwFault .bounds) :=
  if_pos h

theorem exec_crcg_of_payloadInside (h : s.payloadInside = true) :
    exec .crcg s = .next { s with crc := chunkCrc (typeBytes s.type) s.payload }.succeed :=
  if_neg (ne_false_of_eq_true h)

theorem exec_crcv_of_payloadInside_false (h : s.payloadInside = false) : exec .crcv s = .next (s.hwFault .bounds) :=
  if_pos h

theorem exec_crcv_of_crc_ne (h : s.payloadInside = true) (hcrc : chunkCrc (typeBytes s.type) s.payload ≠ s.crc) :
    exec .crcv s = .next (s.raise .crcMismatch 0#32) :=
  (if_neg (ne_false_of_eq_true h)).trans (if_pos hcrc)

theorem exec_crcv_of_crc_eq (h : s.payloadInside = true) (hcrc : chunkCrc (typeBytes s.type) s.payload = s.crc) :
    exec .crcv s = .next s.succeed :=
  (if_neg (ne_false_of_eq_true h)).trans (if_neg (not_not_intro hcrc))

end

theorem encode_crcb (b : Byte) : encode (.crcb b) = 0x21000000#32 ||| b.setWidth 32 := by
  have hop : (0x21#8 ++ 0#16).shiftLeftZeroExtend 8 = 0x21000000#32 := by decide
  rw [encode, opcodeOf, lowByteOf, BitVec.append_def, BitVec.setWidth'_eq, hop]

/-! #### The obligations -/

/-- Settles O30: one turn is linear and injective, so eight are; a Word's own low byte leaves only the shift. -/
theorem crcUpdateIsATableLookupAndLinear : Obligations.CrcUpdateIsATableLookupAndLinear := by
  refine ⟨fun r b => crcShifts_eq_iterate 8 _, crcUpdate_eq_table, by decide, by decide, by decide, by decide,
    fun b => (crcUpdate_injective b).bijective_of_finite, fun r r' b => ?_⟩
  rw [← crcUpdate_xor, BitVec.xor_self]

/-- Settles O32: a flipped bit changes its byte, and one changed byte changes the CRC. -/
theorem singleBitErrorsChangeTheCrc : Obligations.SingleBitErrorsChangeTheCrc := by
  intro p q b k hk h
  have hbyte : b ^^^ 1#8 <<< k = b := eq_of_crc32_append_cons_eq h
  exact one_shiftLeft_ne_zero hk (xor_left_eq_self_iff.mp hbyte)

/-- Settles O35: past the bounds check CRCM folds CrcUpdate over the payload. -/
theorem crcmFeedsThePayload : Obligations.CrcmFeedsThePayload := by
  refine ⟨by decide, fun s => ⟨fun hout => ?_, fun hin => ?_⟩⟩
  · exact ⟨_, exec_crcm_of_payloadInside_false (s.payloadInside_false.mpr hout), s.faulted_hwFault .bounds⟩
  · exact ⟨_, exec_crcm_of_payloadInside (s.payloadInside_iff.mpr hin), crcFeed_eq_foldl s.crcacc s.payload,
      s.succeeded_succeed_crcacc _, fun _ => rfl⟩

/-- Settles O37: the two commands share the bounds check and the CRC; CRCV compares where CRCG stores. -/
theorem crcgGeneratesAndCrcvVerifies : Obligations.CrcgGeneratesAndCrcvVerifies := by
  refine ⟨by decide, by decide, fun s => ⟨fun hout => ?_, fun hin => ?_⟩⟩
  · have houtside := s.payloadInside_false.mpr hout
    exact ⟨⟨_, exec_crcg_of_payloadInside_false houtside, s.faulted_hwFault .bounds⟩,
      ⟨_, exec_crcv_of_payloadInside_false houtside, s.faulted_hwFault .bounds⟩⟩
  · have hinside := s.payloadInside_iff.mpr hin
    refine ⟨?_, fun heq => ?_, fun hne => ?_⟩
    · exact ⟨_, exec_crcg_of_payloadInside hinside, rfl, s.succeeded_succeed_crc _, fun _ => rfl⟩
    · exact ⟨_, exec_crcv_of_crc_eq hinside heq.symm, s.succeeded_succeed_self, fun _ => rfl⟩
    · exact ⟨_, exec_crcv_of_crc_ne hinside hne.symm, s.raised_raise .crcMismatch 0#32⟩

/-- Settles O31: a CRC is the complement of the fold of CrcUpdate, and a chunk's is that of its type, then its data. -/
theorem chunkCrcCoversTypeThenData : Obligations.ChunkCrcCoversTypeThenData :=
  ⟨crc32_eq_not_foldl, fun t d => crc32_eq_not_foldl (t.bytes ++ d), by decide +kernel, by decide⟩

/-- Settles O33: CRCI writes only CRCACC. -/
theorem crciStartsTheEngine : Obligations.CrciStartsTheEngine :=
  ⟨by decide, fun s => ⟨_, rfl, rfl, s.succeeded_succeed_crcacc crcOnes, fun _ => rfl⟩⟩

/-- Settles O34: CRCB and CRCT write only CRCACC; CRCT folds over the four type bytes. -/
theorem crcbAndCrctFeedTheEngine : Obligations.CrcbAndCrctFeedTheEngine := by
  refine ⟨by decide, encode_crcb, fun s => ⟨fun b => ?_, ?_⟩⟩
  · exact ⟨_, rfl, rfl, s.succeeded_succeed_crcacc _, fun _ => rfl⟩
  · exact ⟨_, rfl, crcFeed_eq_foldl s.crcacc (typeBytes s.type).bytes, s.succeeded_succeed_crcacc _, fun _ => rfl⟩

/-- Settles O36: CRCF writes only CRC, and XOR with all ones is the complement. -/
theorem crcfDeliversTheComplement : Obligations.CrcfDeliversTheComplement :=
  ⟨by decide, fun s => ⟨_, rfl, xor_crcOnes s.crcacc, s.succeeded_succeed_crc _, fun _ => rfl⟩⟩

end Sys2Proof.Machine

/-! ### Proofs of the family 42_chunk: DecodeChunk, CENC, CDEC -/

namespace Sys2Proof.Machine

/-! #### DecodeChunk, one equation per ending -/

section

variable {B : Bytes} {n : Word} {t : Type4}

/-- One of steps 4 and 6 fails when the buffer ends before the frame does. -/
theorem decodePayload_of_lt (h : B.length < 12 + n.toNat) :
    decodePayload B n t = .error .tooShort := by
  unfold decodePayload
  by_cases hpayload : B.length - 8 < n.toNat
  · exact if_pos hpayload
  · rw [if_neg hpayload, if_pos (by omega)]

/-- On a buffer that holds the whole frame the CRC decides (steps 7 and 8). -/
theorem decodePayload_of_le (h : 12 + n.toNat ≤ B.length) :
    decodePayload B n t =
      if chunkCrc t ((B.drop 8).take n.toNat) = (quadAt B (8 + n.toNat)).toWord then
        .ok ⟨n, t, (B.drop 8).take n.toNat, (quadAt B (8 + n.toNat)).toWord⟩
      else .error .crcMismatch := by
  rw [decodePayload, if_neg (by omega), if_neg (by omega)]
  exact ite_not ..

theorem decodeChunk_of_length_lt (h : B.length < 12) : decodeChunk B = .error .tooShort := if_pos h

theorem decodeChunk_of_invalid (h12 : 12 ≤ B.length) (h : isValid (quadAt B 4) = false) :
    decodeChunk B = .error .invalidChunkType := by
  rw [decodeChunk, if_neg (by omega), constructFromBytes_invalid h]

theorem decodeChunk_of_valid (h12 : 12 ≤ B.length) (h : isValid (quadAt B 4) = true) :
    decodeChunk B = decodePayload B (quadAt B 0).toWord (quadAt B 4) := by
  rw [decodeChunk, if_neg (by omega), constructFromBytes_valid h]

end

/-! #### CENC, one equation per ending -/

section

variable {s : State}

theorem exec_cenc_of_outside (h : s.payloadInside = false ∨ s.frameInside = false) :
    exec .cenc s = .next (s.hwFault .bounds) := by
  change execCenc s = _
  unfold execCenc
  obtain hp | hf := h
  · exact if_pos hp
  · rw [if_pos hf, ite_self]

theorem exec_cenc_of_apart (hp : s.payloadInside = true) (hf : s.frameInside = true) (ho : s.overlapping = false) :
    exec .cenc s = .next { s with
      mem := s.mem.writeBytes s.dst.toNat (serialize (typeBytes s.type) s.payload)
      crc := chunkCrc (typeBytes s.type) s.payload
      dst := s.dst + 12#32 + s.len }.succeed := by
  change execCenc s = _
  simp [execCenc, hp, hf, ho]

variable (s)

theorem State.length_serialize_payload :
    (serialize (typeBytes s.type) s.payload).length = 12 + s.len.toNat := by
  rw [length_serialize, State.payload, Memory.length_readBytes]

/-- `ok` after writes to MEM, CRC and DST. -/
theorem State.succeeded_succeed_mem_crc_dst (m : Memory) (c d : Word) :
    s.succeeded { s with mem := m, crc := c, dst := d }.succeed [.crc, .dst] :=
  State.succeeded_succeed rfl (fun r hr => by cases r <;> simp at hr ⊢) ⟨rfl, rfl, rfl⟩

end

/-! #### CDEC, one equation per ending -/

section

variable {s : State}

theorem exec_cdec_of_bufferInside_false (h : s.bufferInside = false) : exec .cdec s = .next (s.hwFault .bounds) :=
  if_pos h

theorem exec_cdec_of_decodeChunk_error {k : ErrorKind} (h : s.bufferInside = true)
    (hd : decodeChunk s.buffer = .error k) : exec .cdec s = .next ((s.setDelivery false false).raise k 0#32) := by
  change execCdec s = _
  simp [execCdec, h, hd]

theorem exec_cdec_of_decodeChunk_ok {ch : Decoded} (h : s.bufferInside = true) (hd : decodeChunk s.buffer = .ok ch) :
    exec .cdec s = .next ((s.deliver s.src ch).setDelivery true (decide (ch.t = iend))).succeed := by
  change execCdec s = _
  simp [execCdec, h, hd]

/-- STATUS after writes to CV and TERM and then to ERR. -/
theorem Status.reads_withErr_withDelivery (w : Word) (cv term : Bool) (err : BitVec 4) :
    Status.reads w (Status.withErr (Status.withDelivery w cv term) err) (Status.hwf w) term cv (Status.ss w) err := by
  simp [Status.reads]

/-- A buffer inside MEM that holds a chunk has its payload's address below MEM_BYTES (R6). -/
theorem State.src_add_eight_lt {ch : Decoded} (h : s.bufferInside = true) (hd : decodeChunk s.buffer = .ok ch) :
    s.src.toNat + 8 < s.memBytes := by
  have hin := s.bufferInside_iff.mp h
  have hframe := (decodeChunk_ok hd).1
  rw [s.length_buffer] at hframe
  omega

variable (s)

theorem State.regsKept_setDelivery_raise (cv term : Bool) (k : ErrorKind) (pos : Word) :
    s.regsKept ((s.setDelivery cv term).raise k pos) [.status, .errpos] := by
  intro r hr
  cases r <;> simp at hr ⊢

theorem State.regsKept_deliver_setDelivery_succeed (frame : Word) (ch : Decoded) (cv term : Bool) :
    s.regsKept ((s.deliver frame ch).setDelivery cv term).succeed [.status, .len, .type, .flags, .crc, .dptr] := by
  intro r hr
  cases r <;> simp at hr ⊢

end

/-! #### The obligations -/

/-- Settles O40, by the equations of DecodeChunk and of its steps 4 to 8. -/
theorem decodeChunkFollowsTheStepOrder : Obligations.DecodeChunkFollowsTheStepOrder := by
  refine fun B => ⟨decodeChunk_of_length_lt, decodeChunk_of_invalid, fun h12 hvalid => ⟨fun hlt => ?_, fun hle => ?_⟩⟩
  · exact (decodeChunk_of_valid h12 hvalid).trans (decodePayload_of_lt hlt)
  · exact (decodeChunk_of_valid h12 hvalid).trans (decodePayload_of_le hle)

/-- Settles O41: CENC's three endings; on success MEM reads as the frame in its region and as before outside. -/
theorem cencStoresTheFrame : Obligations.CencStoresTheFrame := by
  refine ⟨by decide, fun s => ⟨fun hout => ?_, fun hsrc hdst => ?_⟩⟩
  · exact ⟨_, exec_cenc_of_outside (hout.imp s.payloadInside_false.mpr s.frameInside_false.mpr),
      s.faulted_hwFault .bounds⟩
  have hp := s.payloadInside_iff.mpr hsrc
  have hf := s.frameInside_iff.mpr hdst
  refine ⟨fun hoverlap => ?_, fun hwf hapart => ?_⟩
  · exact ⟨_, exec_cenc_of_overlapping hp hf (s.overlapping_iff.mpr hoverlap), s.faulted_hwFault .overlap⟩
  · have hlen := s.length_serialize_payload
    refine ⟨_, exec_cenc_of_apart hp hf (s.overlapping_false.mpr hapart), ?_, fun a ha => ?_, rfl, ?_,
      s.succeeded_succeed_mem_crc_dst _ _ _⟩
    · rw [← hlen]
      exact Memory.readBytes_writeBytes_same _ _ hwf
    · exact Memory.read_writeBytes_outside _ _ _ a (hlen ▸ ha)
    · simp [BitVec.toNat_add]

/-- Settles O44: CDEC ends as DecodeChunk does on the buffer; a delivered chunk's payload starts inside MEM, so DPTR does
not wrap. -/
theorem cdecDeliversTheChunk : Obligations.CdecDeliversTheChunk := by
  refine ⟨by decide, fun s => ⟨fun hout => ?_, fun hin => ?_⟩⟩
  · exact ⟨_, exec_cdec_of_bufferInside_false (s.bufferInside_false.mpr hout), s.faulted_hwFault .bounds⟩
  have hinside := s.bufferInside_iff.mpr hin
  refine ⟨fun k hd => ?_, fun ch hd => ?_⟩
  · exact ⟨_, exec_cdec_of_decodeChunk_error hinside hd, Status.reads_withErr_withDelivery _ _ _ _, rfl,
      s.regsKept_setDelivery_raise _ _ _ _, fun _ => rfl, rfl, rfl, rfl⟩
  · refine ⟨_, exec_cdec_of_decodeChunk_ok hinside hd, rfl, rfl, rfl, rfl, fun hsize => ?_,
      Status.reads_withErr_withDelivery _ _ _ _, s.regsKept_deliver_setDelivery_succeed _ _ _ _, fun _ => rfl,
      rfl, rfl, rfl⟩
    have hlt := State.src_add_eight_lt hinside hd
    exact BitVec.toNat_add_of_lt (show s.src.toNat + 8 < 2 ^ 32 by omega)

end Sys2Proof.Machine

/-! ### Proofs of the family 43_stream: SIGW, SOPEN, SNEXT, the stream state -/

namespace Sys2Proof

/-- The decoder gives back the command whose word it is (R63). -/
theorem decode_encode (i : Instr) : decode (encode i) = .ok i := by
  cases i with
  | crcb imm8 => decide +revert
  | _ => rfl

theorem encode_injective : Function.Injective encode := fun i j h =>
  Except.ok.inj ((decode_encode i).symm.trans ((congrArg decode h).trans (decode_encode j)))

namespace Machine

/-! #### STATUS and the stream state -/

/-- STATUS after writes to CV and TERM, then to SS, then to ERR: SOPEN's order. -/
theorem Status.reads_withErr_withSs_withDelivery (w : Word) (cv term : Bool) (ss : BitVec 2) (err : BitVec 4) :
    Status.reads w (Status.withErr (Status.withSs (Status.withDelivery w cv term) ss) err)
      (Status.hwf w) term cv ss err := by
  simp [Status.reads]

/-- STATUS after writes to SS, then to CV and TERM, then to ERR: SNEXT's order. -/
theorem Status.reads_withErr_withDelivery_withSs (w : Word) (cv term : Bool) (ss : BitVec 2) (err : BitVec 4) :
    Status.reads w (Status.withErr (Status.withDelivery (Status.withSs w ss) cv term) err)
      (Status.hwf w) term cv ss err := by
  simp [Status.reads]

theorem streamCode_streamAfter (t : Type4) : streamCode (streamAfter t) = if t = iend then 2#2 else 1#2 :=
  apply_ite streamCode ..

/-- The stream state is IDLE after reset (R27). -/
theorem ss_resetWith (n : Nat) (m : Memory) : Status.ss (State.resetWith n m).status = 0#2 := by
  rw [State.resetWith_status]
  decide

/-! #### SIGW, one equation per ending -/

section

variable {s : State}

theorem exec_sigw_of_sigInside_false (h : s.sigInside = false) : exec .sigw s = .next (s.hwFault .bounds) :=
  if_pos h

theorem exec_sigw_of_sigInside (h : s.sigInside = true) :
    exec .sigw s = .next { s with mem := s.mem.writeBytes s.dst.toNat sig, dst := s.dst + 8#32 }.succeed :=
  if_neg (ne_false_of_eq_true h)

/-- `ok` after writes to MEM and DST. -/
theorem State.succeeded_succeed_mem_dst (s : State) (m : Memory) (d : Word) :
    s.succeeded { s with mem := m, dst := d }.succeed [.dst] :=
  State.succeeded_succeed rfl (fun r hr => by cases r <;> simp at hr ⊢) ⟨rfl, rfl, rfl⟩

/-! #### SOPEN, one equation per ending -/

theorem exec_sopen_of_bufferInside_false (h : s.bufferInside = false) : exec .sopen s = .next (s.hwFault .bounds) :=
  if_pos h

theorem exec_sopen_of_signatureAhead (h : s.bufferInside = true) (hsig : s.signatureAhead = true) :
    exec .sopen s = .next ({ s.setDelivery false false with cur := 8#32 }.setStream .loop).succeed :=
  (if_neg (ne_false_of_eq_true h)).trans (if_pos hsig)

theorem exec_sopen_of_signatureAhead_false (h : s.bufferInside = true) (hsig : s.signatureAhead = false) :
    exec .sopen s = .next (((s.setDelivery false false).setStream .fail).raise .badSignature 0#32) :=
  (if_neg (ne_false_of_eq_true h)).trans (if_neg (ne_true_of_eq_false hsig))

/-! #### SNEXT, one equation per ending -/

theorem exec_snext_of_ss_ne_loop (h : Status.ss s.status ≠ streamCode .loop) :
    exec .snext s = .next (s.hwFault .badState) :=
  if_pos h

theorem exec_snext_of_outside (hss : Status.ss s.status = streamCode .loop)
    (h : s.bufferInside = false ∨ s.avail.toNat < s.cur.toNat) : exec .snext s = .next (s.hwFault .bounds) := by
  change execSnext s = _
  rw [execSnext, if_neg (not_not_intro hss)]
  obtain hbuf | hcur := h
  · exact if_pos hbuf
  · rw [if_pos hcur, ite_self]

theorem exec_snext_of_exhausted (hss : Status.ss s.status = streamCode .loop) (h : s.bufferInside = true)
    (hcur : s.cur = s.avail) :
    exec .snext s = .next ((s.setStream .done).setDelivery false false).succeed := by
  change execSnext s = _
  simp [execSnext, hss, h, hcur]

/-- With bytes left past the cursor SNEXT ends as DecodeChunk does on them. -/
theorem exec_snext_of_decodeChunk_error {k : ErrorKind} (hss : Status.ss s.status = streamCode .loop)
    (h : s.bufferInside = true) (hcur : s.cur.toNat < s.avail.toNat) (hd : decodeChunk s.rest = .error k) :
    exec .snext s = .next (((s.setStream .fail).setDelivery false false).raise k s.cur) := by
  have hne : s.cur ≠ s.avail := ne_of_apply_ne BitVec.toNat hcur.ne
  change execSnext s = _
  simp [execSnext, hss, h, hcur.not_gt, hne, hd]

theorem exec_snext_of_decodeChunk_ok {ch : Decoded} (hss : Status.ss s.status = streamCode .loop)
    (h : s.bufferInside = true) (hcur : s.cur.toNat < s.avail.toNat) (hd : decodeChunk s.rest = .ok ch) :
    exec .snext s = .next
      (({ s.deliver (s.src + s.cur) ch with cur := s.cur + 12#32 + ch.n }.setStream (streamAfter ch.t)).setDelivery
        true (decide (ch.t = iend))).succeed := by
  have hne : s.cur ≠ s.avail := ne_of_apply_ne BitVec.toNat hcur.ne
  change execSnext s = _
  simp [execSnext, hss, h, hcur.not_gt, hne, hd]

/-- A chunk at the cursor ends at or before the end of the buffer. -/
theorem State.cur_add_frame_le_avail {ch : Decoded} (hcur : s.cur.toNat < s.avail.toNat)
    (hd : decodeChunk s.rest = .ok ch) : s.cur.toNat + 12 + ch.n.toNat ≤ s.avail.toNat := by
  have hframe := (decodeChunk_ok hd).1
  rw [State.rest, Memory.length_readBytes] at hframe
  omega

/-- CUR moves past a delivered chunk without wrapping (R6). -/
theorem State.toNat_cur_add_frame {ch : Decoded} (h : s.cur.toNat + 12 + ch.n.toNat ≤ s.avail.toNat) :
    (s.cur + 12#32 + ch.n).toNat = s.cur.toNat + 12 + ch.n.toNat := by
  have := s.avail.isLt
  have h12 : (s.cur + 12#32).toNat = s.cur.toNat + 12 :=
    BitVec.toNat_add_of_lt (show s.cur.toNat + 12 < 2 ^ 32 by omega)
  rw [BitVec.toNat_add_of_lt (by omega), h12]

/-- The payload's address of a chunk inside the buffer does not wrap (R6). -/
theorem State.toNat_src_add_cur_add_eight (h : s.src.toNat + s.cur.toNat + 8 < 2 ^ 32) :
    (s.src + s.cur + 8#32).toNat = s.src.toNat + s.cur.toNat + 8 := by
  have hframe : (s.src + s.cur).toNat = s.src.toNat + s.cur.toNat := BitVec.toNat_add_of_lt (by omega)
  rw [← hframe] at h ⊢
  exact BitVec.toNat_add_of_lt h

end

/-! #### What a write to STATUS and the registers written with it keep -/

section

variable (s : State) (w : Word)

theorem State.regsKept_status : s.regsKept { s with status := w } [.status] := by
  intro r hr
  cases r <;> simp at hr ⊢

theorem State.regsKept_status_errpos (pos : Word) :
    s.regsKept { s with status := w, errpos := pos } [.status, .errpos] := by
  intro r hr
  cases r <;> simp at hr ⊢

theorem State.regsKept_status_cur (c : Word) : s.regsKept { s with status := w, cur := c } [.status, .cur] := by
  intro r hr
  cases r <;> simp at hr ⊢

theorem State.regsKept_deliver_status_cur (frame c : Word) (ch : Decoded) :
    s.regsKept { s.deliver frame ch with status := w, cur := c }
      [.status, .len, .type, .flags, .crc, .dptr, .cur] := by
  intro r hr
  cases r <;> simp at hr ⊢

end

/-! #### The stream state after an event -/

section

variable {s t : State}

/-- Every command but SOPEN and SNEXT leaves SS alone (R12). -/
theorem ss_of_exec_of_ne {i : Instr} (hsopen : i ≠ .sopen) (hsnext : i ≠ .snext) (h : exec i s = .next t) :
    Status.ss t.status = Status.ss s.status := by
  cases i with
  | tnew => obtain ⟨-, rfl⟩ | ⟨-, rfl⟩ := execTnew_cases h <;> simp
  | tparse => obtain ⟨-, rfl⟩ | ⟨-, -, rfl⟩ | ⟨-, -, -, rfl⟩ := execTparse_cases h <;> simp
  | crci => simp [execCrci_cases h]
  | crcb imm8 => simp [execCrcb_cases h]
  | crct => simp [execCrct_cases h]
  | crcm => obtain ⟨-, rfl⟩ | ⟨-, rfl⟩ := execCrcm_cases h <;> simp
  | crcf => simp [execCrcf_cases h]
  | crcg => obtain ⟨-, rfl⟩ | ⟨-, rfl⟩ := execCrcg_cases h <;> simp
  | crcv => obtain ⟨-, rfl⟩ | ⟨-, -, rfl⟩ | ⟨-, -, rfl⟩ := execCrcv_cases h <;> simp
  | cenc => obtain ⟨-, rfl⟩ | ⟨-, -, -, rfl⟩ | ⟨-, -, -, rfl⟩ := execCenc_cases h <;> simp
  | cdec => obtain ⟨-, rfl⟩ | ⟨k, -, -, rfl⟩ | ⟨ch, -, -, rfl⟩ := execCdec_cases h <;> simp
  | sigw => obtain ⟨-, rfl⟩ | ⟨-, rfl⟩ := execSigw_cases h <;> simp
  | sopen => exact absurd rfl hsopen
  | snext => exact absurd rfl hsnext

/-- R143's table has no row for a host operation that runs neither SOPEN nor SNEXT. -/
theorem streamStateAfter_of_ne {op : HostOp} (hsopen : op ≠ .writeReg 0 (encode .sopen))
    (hsnext : op ≠ .writeReg 0 (encode .snext)) : streamStateAfter (.host op) s = Status.ss s.status := by
  simp [streamStateAfter, hsopen, hsnext]

theorem ss_of_exec_sopen (h : exec .sopen s = .next t) :
    Status.ss t.status = streamStateAfter (.host (.writeReg 0 (encode .sopen))) s := by
  have hop : encode .sopen ≠ encode .snext := by decide
  obtain ⟨hbuf, rfl⟩ | ⟨hbuf, hsig, rfl⟩ | ⟨hbuf, hsig, rfl⟩ := execSopen_cases h
  · rw [State.bufferInside_false] at hbuf
    simp [streamStateAfter, hop, hbuf]
  · rw [State.bufferInside_iff] at hbuf
    rw [State.signatureAhead_iff] at hsig
    simp [streamStateAfter, hbuf, hsig, streamCode]
  · rw [State.bufferInside_iff] at hbuf
    have hsig' := s.signatureAhead_iff.not.mp (ne_true_of_eq_false hsig)
    simp [streamStateAfter, hbuf, hsig', streamCode]

theorem ss_of_exec_snext (h : exec .snext s = .next t) :
    Status.ss t.status = streamStateAfter (.host (.writeReg 0 (encode .snext))) s := by
  have hop : encode .snext ≠ encode .sopen := by decide
  obtain ⟨hss, rfl⟩ | ⟨hss, hout, rfl⟩ | ⟨hss, hbuf, hcur, rfl⟩ | ⟨k, hss, hbuf, hcur, hd, rfl⟩ |
    ⟨ch, hss, hbuf, hcur, hd, rfl⟩ := execSnext_cases h
  · rw [streamCode] at hss
    simp [streamStateAfter, hop, hss]
  · obtain hbuf | hcur := hout
    · rw [State.bufferInside_false] at hbuf
      simp [streamStateAfter, hop, hbuf.not_ge]
    · simp [streamStateAfter, hop, hcur.not_ge]
  · rw [State.bufferInside_iff] at hbuf
    simp [streamStateAfter, hop, hss, hbuf, hcur, streamCode]
  · rw [State.bufferInside_iff] at hbuf
    have hne : s.cur ≠ s.avail := ne_of_apply_ne BitVec.toNat hcur.ne
    rw [State.rest] at hd
    simp [streamStateAfter, hop, hss, hbuf, hcur.le, hne, hd, streamCode]
  · rw [State.bufferInside_iff] at hbuf
    have hne : s.cur ≠ s.avail := ne_of_apply_ne BitVec.toNat hcur.ne
    have hloop : Status.ss s.status = 1#2 := hss
    rw [State.rest] at hd
    simp [streamStateAfter, hop, hloop, hbuf, hcur.le, hne, hd, streamCode_streamAfter]

/-- A write to CMD of the command's own word moves SS as R143's table says. -/
theorem ss_of_exec {i : Instr} (h : exec i s = .next t) :
    Status.ss t.status = streamStateAfter (.host (.writeReg 0 (encode i))) s := by
  by_cases hsopen : i = .sopen
  · subst hsopen
    exact ss_of_exec_sopen h
  by_cases hsnext : i = .snext
  · subst hsnext
    exact ss_of_exec_snext h
  have hne : ∀ {j : Instr}, i ≠ j → HostOp.writeReg 0 (encode i) ≠ .writeReg 0 (encode j) := fun hij hop =>
    hij (encode_injective (HostOp.writeReg.inj hop).2)
  exact (ss_of_exec_of_ne hsopen hsnext h).trans (streamStateAfter_of_ne (hne hsopen) (hne hsnext)).symm

theorem ss_of_performHost {op : HostOp} (h : performHost op s = .next t) :
    Status.ss t.status = streamStateAfter (.host op) s := by
  obtain ⟨w, rfl, hw⟩ | ⟨r, v, rfl, hr, rfl⟩ | ⟨r, rfl, rfl⟩ | ⟨a, b, rfl, -, rfl⟩ | ⟨a, rfl, -, rfl⟩ :=
    performHost_cases h
  · obtain ⟨i, hi, hexec⟩ | ⟨e, he, rfl⟩ := runWord_cases hw
    · rw [eq_encode_of_decode_ok hi]
      exact ss_of_exec hexec
    · have hne : ∀ i, w ≠ encode i := by
        rintro i rfl
        simp [decode_encode] at he
      rw [streamStateAfter_of_ne (by simp [hne]) (by simp [hne])]
      simp
  · have hnumber : r.number ≠ 0 := by cases r <;> simp [Reg.number] at hr ⊢
    rw [streamStateAfter_of_ne (by simp [hnumber]) (by simp [hnumber]), State.status_writeReg]
  all_goals rw [streamStateAfter_of_ne (by simp) (by simp)]

end

/-! #### The obligations -/

/-- Settles O14: a reset zeroes STATUS, a host operation moves SS only through SOPEN and SNEXT. -/
theorem streamStateChangesOnlyAsTheTableSays : Obligations.StreamStateChangesOnlyAsTheTableSays := by
  intro s t e h
  cases e with
  | host op => exact ss_of_performHost h
  | reset c =>
    cases h
    exact ss_resetWith s.memBytes (Memory.ofCells s.memBytes c)

/-- Settles O49: past the bounds check SIGW writes the signature at DST, and DST moves past it. -/
theorem sigwStoresTheSignature : Obligations.SigwStoresTheSignature := by
  refine ⟨by decide, fun s => ⟨fun hout => ?_, fun hwf hin => ?_⟩⟩
  · exact ⟨_, exec_sigw_of_sigInside_false (s.sigInside_false.mpr hout), s.faulted_hwFault .bounds⟩
  · exact ⟨_, exec_sigw_of_sigInside (s.sigInside_iff.mpr hin), Memory.readBytes_writeBytes_same sig _ hwf,
      Memory.read_writeBytes_outside sig _ _, BitVec.toNat_add .., s.succeeded_succeed_mem_dst _ _⟩

/-- Settles O50: past the bounds check SOPEN ends by whether the signature stands ahead. -/
theorem sopenChecksTheSignature : Obligations.SopenChecksTheSignature := by
  refine ⟨by decide, fun s => ⟨fun hout => ?_, fun hin => ⟨fun hbad => ?_, fun havail hsig => ?_⟩⟩⟩
  · exact ⟨_, exec_sopen_of_bufferInside_false (s.bufferInside_false.mpr hout), s.faulted_hwFault .bounds⟩
  · exact ⟨_, exec_sopen_of_signatureAhead_false (s.bufferInside_iff.mpr hin) (s.signatureAhead_false.mpr hbad),
      Status.reads_withErr_withSs_withDelivery _ _ _ _ _, rfl, s.regsKept_status_errpos _ _, fun _ => rfl, rfl,
      rfl, rfl⟩
  · exact ⟨_, exec_sopen_of_signatureAhead (s.bufferInside_iff.mpr hin) (s.signatureAhead_iff.mpr ⟨havail, hsig⟩), rfl,
      Status.reads_withErr_withSs_withDelivery _ _ _ _ _, s.regsKept_status_cur _ _, fun _ => rfl, rfl, rfl, rfl⟩

/-- Settles O51, by SNEXT's five endings; a delivered chunk ends inside the buffer, so neither DPTR nor CUR wraps. -/
theorem snextTakesOneTurnOfTheLoop : Obligations.SnextTakesOneTurnOfTheLoop := by
  refine ⟨by decide, fun s => ⟨fun hss => ?_, fun hss => ⟨fun hout => ?_, fun hin hcur => ?_, fun k hin hcur hd => ?_,
    fun ch hsize hin hcur hd => ?_⟩⟩⟩
  · exact ⟨_, exec_snext_of_ss_ne_loop hss, s.faulted_hwFault .badState⟩
  · exact ⟨_, exec_snext_of_outside hss (hout.imp_left s.bufferInside_false.mpr), s.faulted_hwFault .bounds⟩
  · exact ⟨_, exec_snext_of_exhausted hss (s.bufferInside_iff.mpr hin) hcur,
      Status.reads_withErr_withDelivery_withSs _ _ _ _ _, s.regsKept_status _, fun _ => rfl, rfl, rfl, rfl⟩
  · exact ⟨_, exec_snext_of_decodeChunk_error hss (s.bufferInside_iff.mpr hin) hcur hd,
      Status.reads_withErr_withDelivery_withSs _ _ _ _ _, rfl, s.regsKept_status_errpos _ _, fun _ => rfl, rfl,
      rfl, rfl⟩
  · have hframe := State.cur_add_frame_le_avail hcur hd
    have hcur' := State.toNat_cur_add_frame hframe
    refine ⟨_, exec_snext_of_decodeChunk_ok hss (s.bufferInside_iff.mpr hin) hcur hd, rfl, rfl, rfl,
      State.toNat_src_add_cur_add_eight (by omega), hcur', hcur'.trans_le hframe, ?_,
      s.regsKept_deliver_status_cur _ _ _ _, fun _ => rfl, rfl, rfl, rfl⟩
    rw [← streamCode_streamAfter]
    exact Status.reads_withErr_withDelivery_withSs _ _ _ _ _

end Machine

end Sys2Proof

/-! ### Proofs of the family 44_container: DecodePng, AppendChunk, ChunkByType, RemoveFirstChunk -/

namespace Sys2Proof.Machine

/-! #### DecodePng, one equation per ending of a turn -/

section
variable {B : Bytes} {cur : Nat} {L : List Chunk}

theorem decodePng_of_bad_signature (h : B.length < 8 ∨ B.take 8 ≠ sig) : decodePng B = .error (.badSignature, 0) := by
  by_cases hlen : B.length < 8
  · exact if_pos hlen
  · exact (if_neg hlen).trans (if_pos (h.resolve_left hlen))

theorem decodePng_of_signature (hlen : 8 ≤ B.length) (hsig : B.take 8 = sig) : decodePng B = decodeFrom B 8 [] :=
  (if_neg (by omega)).trans (if_neg (not_not.mpr hsig))

theorem decodeFrom_length (B : Bytes) (L : List Chunk) : decodeFrom B B.length L = .ok L := if_pos rfl

theorem decodeFrom_of_decodeChunk_error {kind : ErrorKind} (hcur : cur < B.length)
    (hd : decodeChunk (B.drop cur) = .error kind) : decodeFrom B cur L = .error (kind, cur) := by
  rw [decodeFrom, decodeLoop, if_neg hcur.ne, hd]

theorem decodeFrom_of_iend {ch : Decoded} (hcur : cur < B.length) (hd : decodeChunk (B.drop cur) = .ok ch)
    (ht : ch.t = iend) : decodeFrom B cur L = .ok (L ++ [⟨ch.t, ch.d⟩]) := by
  rw [decodeFrom, decodeLoop, if_neg hcur.ne, hd]
  exact if_pos ht

/-- The turns left over from this cursor's bound are enough for the next cursor. -/
theorem decodeFrom_of_ne_iend {ch : Decoded} (hcur : cur < B.length) (hd : decodeChunk (B.drop cur) = .ok ch)
    (ht : ch.t ≠ iend) : decodeFrom B cur L = decodeFrom B (cur + 12 + ch.n.toNat) (L ++ [⟨ch.t, ch.d⟩]) := by
  have hturn : decodeFrom B cur L = decodeLoop B (B.length - cur) (cur + 12 + ch.n.toNat) (L ++ [⟨ch.t, ch.d⟩]) := by
    rw [decodeFrom, decodeLoop, if_neg hcur.ne, hd]
    exact if_neg ht
  rw [hturn]
  exact decodeLoop_bound B _ _ _ _ (by omega) (by omega)

end

/-! #### AppendChunk and SerializePng -/

section
variable {L : List Chunk} {last : Chunk} (c : Chunk)

theorem appendChunk_of_last_iend (h : last.type = iend) : appendChunk (L ++ [last]) c = L ++ [c, last] := by
  simp [appendChunk, h]

theorem appendChunk_of_last_ne_iend (h : last.type ≠ iend) : appendChunk (L ++ [last]) c = L ++ [last, c] := by
  simp [appendChunk, h]

theorem serializePng_append_singleton (L : List Chunk) : serializePng (L ++ [c]) = serializePng L ++ c.frame := by
  simp [serializePng]

end

/-! #### ChunkByType and RemoveFirstChunk -/

section
variable {p q L : List Chunk} {c : Chunk} {code : Bytes}

theorem chunkByType_of_first_match (hc : c.type.bytes = code) (hp : ∀ x ∈ p, x.type.bytes ≠ code) :
    chunkByType (p ++ c :: q) code = some c :=
  List.find?_eq_some_iff_append.mpr ⟨beq_iff_eq.mpr hc, p, q, rfl, by simpa using hp⟩

theorem chunkByType_of_no_match (h : ∀ x ∈ L, x.type.bytes ≠ code) : chunkByType L code = none := by
  simpa [chunkByType] using h

theorem removeFirstChunk_cons_of_eq (hc : c.type.bytes = code) : removeFirstChunk (c :: q) code = .ok (q, c) :=
  if_pos hc

/-- A chunk that does not match stays in front of what the rest answers. -/
theorem removeFirstChunk_cons_of_ne (hc : c.type.bytes ≠ code) :
    removeFirstChunk (c :: q) code = (removeFirstChunk q code).map (fun r => (c :: r.1, r.2)) := by
  rw [removeFirstChunk, if_neg hc]
  cases removeFirstChunk q code <;> rfl

theorem removeFirstChunk_of_first_match (hc : c.type.bytes = code) (hp : ∀ x ∈ p, x.type.bytes ≠ code) :
    removeFirstChunk (p ++ c :: q) code = .ok (p ++ q, c) := by
  induction p with
  | nil => exact removeFirstChunk_cons_of_eq hc
  | cons x p ih =>
    obtain ⟨hx, hp⟩ := List.forall_mem_cons.mp hp
    rw [List.cons_append, removeFirstChunk_cons_of_ne hx, ih hp]
    rfl

theorem removeFirstChunk_of_no_match (h : ∀ x ∈ L, x.type.bytes ≠ code) :
    removeFirstChunk L code = .error .chunkNotFound := by
  induction L with
  | nil => rfl
  | cons x L ih =>
    obtain ⟨hx, hL⟩ := List.forall_mem_cons.mp h
    rw [removeFirstChunk_cons_of_ne hx, ih hL]
    rfl

theorem Chunk.type_bytes_ne_of_length_ne (h : code.length ≠ 4) (c : Chunk) : c.type.bytes ≠ code :=
  fun hc => h (hc ▸ c.type.length_bytes)

end

/-! #### The obligations -/

/-- Settles O54, by the three endings of a turn: a failing frame, the terminal chunk, any other chunk. -/
theorem decodePngRunsTheLoop : Obligations.DecodePngRunsTheLoop := by
  refine ⟨fun _ => decodePng_of_bad_signature, fun _ => decodePng_of_signature, decodeFrom_length,
    fun B cur L hcur => ?_⟩
  cases hd : decodeChunk (B.drop cur) with
  | error kind => exact decodeFrom_of_decodeChunk_error hcur hd
  | ok ch =>
    by_cases ht : ch.t = iend
    · exact (decodeFrom_of_iend hcur hd ht).trans (if_pos ht).symm
    · exact (decodeFrom_of_ne_iend hcur hd ht).trans (if_neg ht).symm

/-- Settles O57; a code that is not 4 bytes long is a miss, as type bytes are 4. -/
theorem lookupAndRemovalTakeTheFirstMatch : Obligations.LookupAndRemovalTakeTheFirstMatch := by
  have hmiss : ∀ (L : List Chunk) (code : Bytes), (∀ x ∈ L, x.type.bytes ≠ code) →
      chunkByType L code = none ∧ removeFirstChunk L code = .error .chunkNotFound :=
    fun _ _ h => ⟨chunkByType_of_no_match h, removeFirstChunk_of_no_match h⟩
  exact ⟨fun _ _ _ _ hc hp => ⟨chunkByType_of_first_match hc hp, removeFirstChunk_of_first_match hc hp⟩, hmiss,
    fun L code hlen => hmiss L code fun x _ => x.type_bytes_ne_of_length_ne hlen⟩

/-- Settles O56; the stream before the terminal frame is that of the list with the new chunk at its end. -/
theorem appendKeepsTheTerminalChunkLast : Obligations.AppendKeepsTheTerminalChunkLast := by
  refine ⟨fun _ => rfl, fun _ _ c => appendChunk_of_last_iend c, fun _ _ c => appendChunk_of_last_ne_iend c,
    fun L last c hlast _ => ⟨serializePng (L ++ [c]), ?_⟩⟩
  calc serializePng (appendChunk (L ++ [last]) c)
    _ = serializePng (L ++ [c] ++ [last]) := by rw [appendChunk_of_last_iend c hlast, List.append_assoc]; rfl
    _ = serializePng (L ++ [c]) ++ last.frame := serializePng_append_singleton last _

end Sys2Proof.Machine

/-! ### Proofs of the family 60_exceptions: what an error kind and a hardware fault leave behind -/

namespace Sys2Proof.Machine

/-! #### A hardware fault -/

/-- `fault` is the one ending that reports a fault's code, and no other write comes before it (R184). -/
theorem State.Ends.faulted {i : Instr} {s t : State} (h : State.Ends i s t)
    (herr : Status.err t.status ∈ [8#4, 9#4, 10#4, 11#4]) : s.faulted t (Status.err t.status) := by
  cases h with
  | ok hu => simp at herr
  | @raise u k hk hu =>
    rw [State.raise_status, Status.err_withErr] at herr
    cases k <;> simp [errorCode] at herr
  | fault f =>
    have hcode : Status.err (s.hwFault f).status = faultCode f := by simp
    rw [hcode]
    exact s.faulted_hwFault f

/-! #### An error kind -/

/-- STATUS as a command that is about to raise an error kind has left it (R183): CDEC, SOPEN and SNEXT have cleared CV and
TERM, and SOPEN and SNEXT have set SS to FAIL. -/
def Status.beforeRaise (i : Instr) (w : Word) : Word :=
  match i with
  | .cdec => Status.withDelivery w false false
  | .sopen => Status.withSs (Status.withDelivery w false false) (streamCode .fail)
  | .snext => Status.withDelivery (Status.withSs w (streamCode .fail)) false false
  | _ => w

theorem Status.reads_withErr_beforeRaise (i : Instr) (w : Word) (err : BitVec 4) :
    Status.reads w (Status.withErr (Status.beforeRaise i w) err) (Status.hwf w)
      (if i ∈ [Instr.cdec, .sopen, .snext] then false else Status.term w)
      (if i ∈ [Instr.cdec, .sopen, .snext] then false else Status.cv w)
      (if i ∈ [Instr.sopen, .snext] then 3#2 else Status.ss w) err := by
  cases i with
  | cdec => exact Status.reads_withErr_withDelivery w false false err
  | sopen => exact Status.reads_withErr_withSs_withDelivery w false false 3#2 err
  | snext => exact Status.reads_withErr_withDelivery_withSs w false false 3#2 err
  | _ => simp [Status.reads, Status.beforeRaise]

/-- A command that reports the code of an error kind has ended with `raise`, after the writes to STATUS and no other. -/
theorem eq_raise_of_exec_err {i : Instr} {s t : State} (h : exec i s = .next t)
    (herr : Status.err t.status ∈ [1#4, 2#4, 3#4, 5#4]) :
    ∃ k, t = { s with status := Status.beforeRaise i s.status }.raise k (errorOffset i s) := by
  cases i with
  | tnew =>
    obtain ⟨-, rfl⟩ | ⟨-, rfl⟩ := execTnew_cases h
    · simp at herr
    · exact ⟨_, rfl⟩
  | tparse =>
    obtain ⟨-, rfl⟩ | ⟨-, -, rfl⟩ | ⟨-, -, -, rfl⟩ := execTparse_cases h
    · simp [faultCode] at herr
    · exact ⟨_, rfl⟩
    · simp at herr
  | crci => simp [execCrci_cases h] at herr
  | crcb imm8 => simp [execCrcb_cases h] at herr
  | crct => simp [execCrct_cases h] at herr
  | crcm => obtain ⟨-, rfl⟩ | ⟨-, rfl⟩ := execCrcm_cases h <;> simp [faultCode] at herr
  | crcf => simp [execCrcf_cases h] at herr
  | crcg => obtain ⟨-, rfl⟩ | ⟨-, rfl⟩ := execCrcg_cases h <;> simp [faultCode] at herr
  | crcv =>
    obtain ⟨-, rfl⟩ | ⟨-, -, rfl⟩ | ⟨-, -, rfl⟩ := execCrcv_cases h
    · simp [faultCode] at herr
    · exact ⟨_, rfl⟩
    · simp at herr
  | cenc => obtain ⟨-, rfl⟩ | ⟨-, -, -, rfl⟩ | ⟨-, -, -, rfl⟩ := execCenc_cases h <;> simp [faultCode] at herr
  | cdec =>
    obtain ⟨-, rfl⟩ | ⟨k, -, -, rfl⟩ | ⟨ch, -, -, rfl⟩ := execCdec_cases h
    · simp [faultCode] at herr
    · exact ⟨k, rfl⟩
    · simp at herr
  | sigw => obtain ⟨-, rfl⟩ | ⟨-, rfl⟩ := execSigw_cases h <;> simp [faultCode] at herr
  | sopen =>
    obtain ⟨-, rfl⟩ | ⟨-, -, rfl⟩ | ⟨-, -, rfl⟩ := execSopen_cases h
    · simp [faultCode] at herr
    · simp at herr
    · exact ⟨_, rfl⟩
  | snext =>
    obtain ⟨-, rfl⟩ | ⟨-, -, rfl⟩ | ⟨-, -, -, rfl⟩ | ⟨k, -, -, -, -, rfl⟩ | ⟨ch, -, -, -, -, rfl⟩ := execSnext_cases h
    · simp [faultCode] at herr
    · simp [faultCode] at herr
    · simp at herr
    · exact ⟨k, rfl⟩
    · simp at herr

/-! #### The obligations -/

/-- Settles O18: the state such a command answers is a `raise` on s with only STATUS rewritten before it. -/
theorem errorsLeaveResultsUnchanged : Obligations.ErrorsLeaveResultsUnchanged := by
  intro i s t h herr
  obtain ⟨k, rfl⟩ := eq_raise_of_exec_err h herr
  refine ⟨?_, rfl, s.regsKept_status_errpos _ _, fun _ => rfl, rfl, rfl, rfl⟩
  rw [State.raise_status, Status.err_withErr]
  exact Status.reads_withErr_beforeRaise i s.status (errorCode k)

/-- Settles O19: commands by the three ways they end, illegal words and host operations by what each can do. -/
theorem faultsWriteOnlyErrAndHwf : Obligations.FaultsWriteOnlyErrAndHwf :=
  ⟨fun _ _ _ h => (exec_ends h).faulted,
    fun _ _ s he => ⟨_, runWord_of_decode_error he s, s.faulted_hwFault .illegalCommand⟩,
    fun _ _ _ => hwf_of_performHost⟩

end Sys2Proof.Machine

/-! ### Proofs of the family other: decoder and encoder, the count of the command words -/

namespace Sys2Proof

/-! #### The rows of the opcode table -/

/-- A word that matches a row has the row's opcode. -/
theorem opField_eq_of_mem_opcodeTable {w : Word} {r : OpcodeRow} (hr : r ∈ opcodeTable)
    (hw : w &&& r.mask = r.pattern) : opField w = opField r.pattern := by
  obtain ⟨hop, -, -⟩ := eq_encode_iff.mp (eq_encode_of_mem_opcodeTable hr hw)
  exact hop.trans (fields_build_of_mem_opcodeTable hr (immField w)).1

/-- No two rows of the table have the same opcode (R66). -/
theorem opField_pattern_injective :
    Function.Injective (fun i : Fin opcodeTable.length => opField (opcodeTable.get i).pattern) := by
  decide

/-! #### The legal command words -/

theorem setOf_decode_ok_eq_range : { w : Word | ∃ i, decode w = .ok i } = Set.range encode := by
  ext w
  constructor
  · rintro ⟨i, hi⟩
    exact ⟨i, (eq_encode_of_decode_ok hi).symm⟩
  · rintro ⟨i, rfl⟩
    exact ⟨i, decode_encode i⟩

/-- The commands without an operand in their word (R64). -/
def formatNCommands : Finset Instr :=
  {.tnew, .tparse, .crci, .crct, .crcm, .crcf, .crcg, .crcv, .cenc, .cdec, .sigw, .sopen, .snext}

/-- The commands are those of format N and CRCB with each imm8 (R65). -/
theorem formatNCommands_union_range_crcb : (formatNCommands : Set Instr) ∪ Set.range Instr.crcb = Set.univ := by
  ext i
  cases i <;> simp [formatNCommands]

theorem disjoint_formatNCommands_range_crcb : Disjoint (formatNCommands : Set Instr) (Set.range Instr.crcb) := by
  rw [Set.disjoint_right]
  rintro _ ⟨b, rfl⟩
  simp [formatNCommands]

theorem card_byte : Nat.card Byte = 256 := by
  rw [Nat.card_congr BitVec.equivFin.toEquiv, Nat.card_eq_fintype_card, Fintype.card_fin]
  norm_num

/-- There are 13 commands of format N and 256 of format I. -/
theorem card_instr : (Set.univ : Set Instr).ncard = 269 := by
  have hcrcb : (Set.range Instr.crcb).ncard = 256 := by
    rw [← Set.image_univ, Set.ncard_image_of_injective _ (fun _ _ => Instr.crcb.inj), Set.ncard_univ, card_byte]
  rw [← formatNCommands_union_range_crcb, Set.ncard_union_eq disjoint_formatNCommands_range_crcb
    (Finset.finite_toSet _) (Set.finite_range _), Set.ncard_coe_finset, hcrcb]
  rfl

/-! #### The obligations -/

/-- Settles O1: the decoder answers a command only for its own word, and for that word it does. -/
theorem decodeInvertsEncode : Obligations.DecodeInvertsEncode := by
  intro w i
  constructor
  · exact eq_encode_of_decode_ok
  · rintro rfl
    exact decode_encode i

/-- Settles O2: a word that matches two rows has the opcode of both, and each row has its own. -/
theorem opcodeRowsAreDisjoint : Obligations.OpcodeRowsAreDisjoint := by
  intro w i j hi hj
  apply opField_pattern_injective
  exact (opField_eq_of_mem_opcodeTable (List.get_mem ..) hi).symm.trans
    (opField_eq_of_mem_opcodeTable (List.get_mem ..) hj)

/-- Settles O4: the legal words are the images of the commands under the encoder, which is injective. -/
theorem legalCommandWordsNumber269 : Obligations.LegalCommandWordsNumber269 := by
  unfold Obligations.LegalCommandWordsNumber269
  rw [setOf_decode_ok_eq_range, ← Set.image_univ, Set.ncard_image_of_injective _ encode_injective, card_instr]

/-- Settles O5: each word of the match column is the encoding of its row's command. -/
theorem tableWordsDecodeToTheirCommands : Obligations.TableWordsDecodeToTheirCommands :=
  ⟨decode_encode .tnew, decode_encode .tparse, decode_encode .crci, decode_encode (.crcb 0x00#8),
    decode_encode (.crcb 0xFF#8), decode_encode .crct, decode_encode .crcm, decode_encode .crcf, decode_encode .crcg,
    decode_encode .crcv, decode_encode .cenc, decode_encode .cdec, decode_encode .sigw, decode_encode .sopen,
    decode_encode .snext⟩

end Sys2Proof

/-! ### Proofs of the family other: steps, host reads, the invariant at reset -/

namespace Sys2Proof.Machine

/-- Every number up to 12 is a register's (R10). -/
theorem exists_number_of_le {n : Nat} (h : n ≤ 12) : ∃ r : Reg, n = r.number := by
  cases hr : Reg.ofNumber n with
  | none => exact absurd (Reg.ofNumber_eq_none_iff.mp hr) (by omega)
  | some r => exact ⟨r, Reg.ofNumber_eq_some_iff.mp hr⟩

/-! #### One step -/

section

variable {s : State}

theorem step_of_pending_nil (h : s.pending = []) : step s = .next s := by
  rw [step, stepOnce, h]

theorem step_of_pending_cons {e : Event} {rest : List Event} (h : s.pending = e :: rest) :
    step s = perform e { s with pending := rest } := by
  rw [step, stepOnce, h]

theorem runWord_of_decode_ok {w : Word} {i : Instr} (h : decode w = .ok i) (s : State) : runWord w s = exec i s := by
  simp only [runWord, h]

/-! #### Every command ends, and every operation of the interface -/

/-- A branch that answers a next state leaves the others to be shown. -/
theorem exists_next_ite {c : Prop} [Decidable c] {t : State} {o : Host.Outcome State Fault Refusal}
    (h : ∃ u, o = .next u) : ∃ u, (if c then .next t else o) = .next u := by
  by_cases hc : c
  · exact ⟨t, if_pos hc⟩
  · rwa [if_neg hc]

/-- Every branch of every command answers a next state. -/
theorem exec_total (i : Instr) (s : State) : ∃ t, exec i s = .next t := by
  cases i with
  | tnew =>
    change ∃ t, execTnew s = .next t
    unfold execTnew
    split <;> exact ⟨_, rfl⟩
  | tparse => exact exists_next_ite (exists_next_ite (by split <;> exact ⟨_, rfl⟩))
  | crcm => exact exists_next_ite ⟨_, rfl⟩
  | crcg => exact exists_next_ite ⟨_, rfl⟩
  | crcv => exact exists_next_ite (exists_next_ite ⟨_, rfl⟩)
  | cenc => exact exists_next_ite (exists_next_ite (exists_next_ite ⟨_, rfl⟩))
  | cdec => exact exists_next_ite (by split <;> exact ⟨_, rfl⟩)
  | sigw => exact exists_next_ite ⟨_, rfl⟩
  | sopen => exact exists_next_ite (exists_next_ite ⟨_, rfl⟩)
  | snext =>
    exact exists_next_ite (exists_next_ite (exists_next_ite (exists_next_ite (by split <;> exact ⟨_, rfl⟩))))
  | _ => exact ⟨_, rfl⟩

theorem runWord_total (w : Word) (s : State) : ∃ t, runWord w s = .next t := by
  cases h : decode w with
  | ok i => rw [runWord_of_decode_ok h]; exact exec_total i s
  | error e => exact ⟨_, runWord_of_decode_error h s⟩

/-- A host operation has a meaning exactly inside the interface (R26). -/
theorem performHost_next_iff {op : HostOp} : (∃ t, performHost op s = .next t) ↔ op.wellFormed s.memBytes = true := by
  constructor
  · rintro ⟨t, h⟩
    obtain ⟨w, rfl, -⟩ | ⟨r, v, rfl, -, -⟩ | ⟨r, rfl, -⟩ | ⟨a, b, rfl, ha, -⟩ | ⟨a, rfl, ha, -⟩ := performHost_cases h
    · rfl
    · cases r <;> rfl
    · cases r <;> rfl
    · exact decide_eq_true ha
    · exact decide_eq_true ha
  · intro h
    cases op with
    | writeReg n v =>
      obtain ⟨r, rfl⟩ := exists_number_of_le (of_decide_eq_true h)
      by_cases hr : r = .cmd
      · subst hr
        exact runWord_total v s
      · exact ⟨_, performHost_writeReg_number hr v s⟩
    | readReg n =>
      obtain ⟨r, rfl⟩ := exists_number_of_le (of_decide_eq_true h)
      exact ⟨_, performHost_readReg_number r s⟩
    | writeMem a b => exact ⟨_, performHost_writeMem_inside b (of_decide_eq_true h)⟩
    | readMem a => exact ⟨_, performHost_readMem_inside (of_decide_eq_true h)⟩

theorem perform_next_iff {e : Event} : (∃ t, perform e s = .next t) ↔ e.wellFormed s.memBytes = true := by
  cases e with
  | host op => exact performHost_next_iff
  | reset c => exact ⟨fun _ => rfl, fun _ => ⟨_, rfl⟩⟩

/-! #### Runs of host writes -/

theorem performAll_cons_of_next {e : Event} {es : List Event} {t : State} (h : perform e s = .next t) :
    performAll (e :: es) s = performAll es t := by
  rw [performAll, h]

theorem performAll_host_cons {op : HostOp} {es : List Event} {t : State} (h : performHost op s = .next t) :
    performAll (.host op :: es) s = performAll es t :=
  performAll_cons_of_next (e := .host op) h

/-- A read inside MEM answers with the byte that stands there. -/
theorem performAll_readMem_singleton {m : Memory} {a : Nat} {b : Byte} (ha : a < s.memBytes) (hb : m.read a = b) :
    performAll [.host (.readMem a)] { s with mem := m } =
      .next { s with mem := m, replies := s.replies ++ [.byte b] } := by
  subst hb
  exact performAll_host_cons (performHost_readMem_inside (s := { s with mem := m }) ha)

/-- Writes inside MEM are performed one after the other. -/
theorem performAll_writeMem_append (cells : List Host.Cell) (es : List Event) (h : ∀ c ∈ cells, c.1 < s.memBytes)
    (m : Memory) : performAll (cells.map (fun c => Event.host (.writeMem c.1 c.2)) ++ es) { s with mem := m } =
      performAll es { s with mem := cells.foldl (fun m c => m.write c.1 c.2) m } := by
  induction cells generalizing m with
  | nil => rfl
  | cons c cells ih =>
    obtain ⟨hc, hcells⟩ := List.forall_mem_cons.mp h
    exact (performAll_host_cons (performHost_writeMem_inside (s := { s with mem := m }) c.2 hc)).trans (ih hcells _)

/-- Writes elsewhere leave a byte alone. -/
theorem Memory.read_foldl_write_other {a : Nat} (cells : List Host.Cell) (h : ∀ c ∈ cells, c.1 ≠ a) (m : Memory) :
    (cells.foldl (fun m c => m.write c.1 c.2) m).read a = m.read a := by
  induction cells generalizing m with
  | nil => rfl
  | cons c cells ih =>
    obtain ⟨hc, hcells⟩ := List.forall_mem_cons.mp h
    exact (ih hcells _).trans (Memory.read_write_other m c.2 hc.symm)

end

/-- The invariant right after reset: STATUS is zero, MEM as given. -/
theorem State.inv_resetWith {n : Nat} {m : Memory} (h1 : 1 ≤ n) (h2 : n ≤ 2 ^ 32) (hwf : m.wf = true)
    (hin : Memory.inside n m = true) : (State.resetWith n m).Inv :=
  ⟨(State.memoryLegal_iff _).mpr ⟨h1, h2, hwf, hin⟩, by rw [State.resetWith_status]; decide⟩

/-! #### The obligations -/

/-- Settles O6: a write to CMD is the performing of that event, and runs the word. -/
theorem stepRunsTheDecodedCommand : Obligations.StepRunsTheDecodedCommand :=
  ⟨fun _ _ _ _ hp hi => (step_of_pending_writeCmd hp).trans (runWord_of_decode_ok hi _), fun _ => step_of_pending_nil,
    fun _ _ _ => step_of_pending_cons⟩

/-- Settles O7: commands always end, and an event has a meaning exactly when it is well formed. -/
theorem stepStopsOnlyOutsideTheInterface : Obligations.StepStopsOnlyOutsideTheInterface := by
  refine ⟨exec_total, fun s => ?_⟩
  cases hp : s.pending with
  | nil => exact ⟨fun _ _ _ h => (List.cons_ne_nil _ _ h.symm).elim, fun _ => ⟨s, step_of_pending_nil hp⟩⟩
  | cons e rest =>
    rw [step_of_pending_cons hp, perform_next_iff]
    exact ⟨fun h _ _ he => (List.cons.inj he).1 ▸ h, fun h => h e rest rfl⟩

/-- Settles O9: the writes in between leave the byte as it was written, and no register follows MEM. -/
theorem hostReadsReturnTheLatestByteWritten : Obligations.HostReadsReturnTheLatestByteWritten := by
  intro s a b between hwf ha hbetween
  have hread : (between.foldl (fun m c => m.write c.1 c.2) (s.mem.write a b)).read a = b :=
    (Memory.read_foldl_write_other between (fun c hc => (hbetween c hc).2) _).trans (Memory.read_write_same a b hwf)
  refine ⟨{ s with mem := between.foldl (fun m c => m.write c.1 c.2) (s.mem.write a b), replies := s.replies ++ [.byte b] },
    ?_, rfl, fun r _ => by cases r <;> rfl⟩
  rw [performAll_host_cons (performHost_writeMem_inside b ha),
    performAll_writeMem_append between _ (fun c hc => (hbetween c hc).1), performAll_readMem_singleton ha hread]

/-- Settles O12: every size and content in R4's range, the model's own reset state among them. -/
theorem resetMeetsTheInvariant : Obligations.ResetMeetsTheInvariant :=
  ⟨State.inv_resetWith (by decide) (by decide) rfl rfl, fun _ _ => State.inv_resetWith⟩

end Sys2Proof.Machine

/-! ### Proofs of the family other: what each command writes, and how it can end -/

namespace Sys2Proof.Machine

/-! #### A command that ends with success -/

/-- CENC's writes (R123): the frame into MEM, its CRC, and DST past it. -/
@[simp] def State.storeFrame (s : State) : State :=
  { s with
    mem := s.mem.writeBytes s.dst.toNat (serialize (typeBytes s.type) s.payload)
    crc := chunkCrc (typeBytes s.type) s.payload
    dst := s.dst + 12#32 + s.len }

/-- SIGW's writes (R140): the signature into MEM, and DST past it. -/
@[simp] def State.storeSignature (s : State) : State :=
  { s with mem := s.mem.writeBytes s.dst.toNat sig, dst := s.dst + 8#32 }

/-- SNEXT's writes when it delivers a chunk (R142): the result registers, CUR past the frame, SS, CV and TERM. -/
@[simp] def State.advance (s : State) (ch : Decoded) : State :=
  ({ s.deliver (s.src + s.cur) ch with cur := s.cur + 12#32 + ch.n }.setStream (streamAfter ch.t)).setDelivery true
    (decide (ch.t = iend))

/-- What stands in the state when a command ends with `ok`: the writes that come before ERR is set to 0, command by
command. -/
inductive State.Succeeds (s : State) : Instr → State → Prop
  | tnew : s.Succeeds .tnew s
  | tparse (v : Word) : s.Succeeds .tparse { s with type := v }
  | crci : s.Succeeds .crci { s with crcacc := crcOnes }
  | crcb (b : Byte) : s.Succeeds (.crcb b) { s with crcacc := crcUpdate s.crcacc b }
  | crct : s.Succeeds .crct { s with crcacc := crcFeed s.crcacc (typeBytes s.type).bytes }
  | crcm : s.Succeeds .crcm { s with crcacc := crcFeed s.crcacc s.payload }
  | crcf : s.Succeeds .crcf { s with crc := s.crcacc ^^^ crcOnes }
  | crcg : s.Succeeds .crcg { s with crc := chunkCrc (typeBytes s.type) s.payload }
  | crcv : s.Succeeds .crcv s
  | cenc (hpayload : s.payloadInside = true) (hframe : s.frameInside = true) (hapart : s.overlapping = false) :
      s.Succeeds .cenc s.storeFrame
  | cdec {ch : Decoded} (hbuf : s.bufferInside = true) (hd : decodeChunk s.buffer = .ok ch) :
      s.Succeeds .cdec ((s.deliver s.src ch).setDelivery true (decide (ch.t = iend)))
  | sigw (hsig : s.sigInside = true) : s.Succeeds .sigw s.storeSignature
  | sopen : s.Succeeds .sopen ({ s.setDelivery false false with cur := 8#32 }.setStream .loop)
  | snextExhausted : s.Succeeds .snext ((s.setStream .done).setDelivery false false)
  | snextChunk {ch : Decoded} (hbuf : s.bufferInside = true) (hcur : s.cur.toNat < s.avail.toNat)
      (hd : decodeChunk s.rest = .ok ch) : s.Succeeds .snext (s.advance ch)

/-- A command that reports code 0 has ended with `ok`: every other ending reports another code. -/
theorem succeeds_of_exec_err {i : Instr} {s t : State} (h : exec i s = .next t) (herr : Status.err t.status = 0#4) :
    ∃ u, s.Succeeds i u ∧ t = u.succeed := by
  cases i with
  | tnew =>
    obtain ⟨-, rfl⟩ | ⟨-, rfl⟩ := execTnew_cases h
    · exact ⟨_, .tnew, rfl⟩
    · simp [errorCode] at herr
  | tparse =>
    obtain ⟨-, rfl⟩ | ⟨-, -, rfl⟩ | ⟨-, -, -, rfl⟩ := execTparse_cases h
    · simp [faultCode] at herr
    · simp [errorCode] at herr
    · exact ⟨_, .tparse _, rfl⟩
  | crci => exact ⟨_, .crci, execCrci_cases h⟩
  | crcb imm8 => exact ⟨_, .crcb imm8, execCrcb_cases h⟩
  | crct => exact ⟨_, .crct, execCrct_cases h⟩
  | crcm =>
    obtain ⟨-, rfl⟩ | ⟨-, rfl⟩ := execCrcm_cases h
    · simp [faultCode] at herr
    · exact ⟨_, .crcm, rfl⟩
  | crcf => exact ⟨_, .crcf, execCrcf_cases h⟩
  | crcg =>
    obtain ⟨-, rfl⟩ | ⟨-, rfl⟩ := execCrcg_cases h
    · simp [faultCode] at herr
    · exact ⟨_, .crcg, rfl⟩
  | crcv =>
    obtain ⟨-, rfl⟩ | ⟨-, -, rfl⟩ | ⟨-, -, rfl⟩ := execCrcv_cases h
    · simp [faultCode] at herr
    · simp [errorCode] at herr
    · exact ⟨_, .crcv, rfl⟩
  | cenc =>
    obtain ⟨-, rfl⟩ | ⟨-, -, -, rfl⟩ | ⟨hpayload, hframe, hapart, rfl⟩ := execCenc_cases h
    · simp [faultCode] at herr
    · simp [faultCode] at herr
    · exact ⟨_, .cenc hpayload hframe hapart, rfl⟩
  | cdec =>
    obtain ⟨-, rfl⟩ | ⟨k, -, -, rfl⟩ | ⟨ch, hbuf, hd, rfl⟩ := execCdec_cases h
    · simp [faultCode] at herr
    · cases k <;> simp [errorCode] at herr
    · exact ⟨_, .cdec hbuf hd, rfl⟩
  | sigw =>
    obtain ⟨-, rfl⟩ | ⟨hsig, rfl⟩ := execSigw_cases h
    · simp [faultCode] at herr
    · exact ⟨_, .sigw hsig, rfl⟩
  | sopen =>
    obtain ⟨-, rfl⟩ | ⟨-, -, rfl⟩ | ⟨-, -, rfl⟩ := execSopen_cases h
    · simp [faultCode] at herr
    · exact ⟨_, .sopen, rfl⟩
    · simp [errorCode] at herr
  | snext =>
    obtain ⟨-, rfl⟩ | ⟨-, -, rfl⟩ | ⟨-, -, -, rfl⟩ | ⟨k, -, -, -, -, rfl⟩ | ⟨ch, -, hbuf, hcur, hd, rfl⟩ :=
      execSnext_cases h
    · simp [faultCode] at herr
    · simp [faultCode] at herr
    · exact ⟨_, .snextExhausted, rfl⟩
    · cases k <;> simp [errorCode] at herr
    · exact ⟨_, .snextChunk hbuf hcur hd, rfl⟩

/-- The three endings of a command, with all that it writes. -/
theorem exec_cases {i : Instr} {s t : State} (h : exec i s = .next t) :
    (∃ u, s.Succeeds i u ∧ t = u.succeed) ∨
    (∃ k, errorCode k ∈ [1#4, 2#4, 3#4, 5#4] ∧
      t = { s with status := Status.beforeRaise i s.status }.raise k (errorOffset i s)) ∨
    (∃ f, t = s.hwFault f) := by
  cases exec_ends h with
  | ok hu => exact .inl (succeeds_of_exec_err h (by simp))
  | raise hk hu =>
    obtain ⟨k, hraise⟩ := eq_raise_of_exec_err h (by simpa using hk)
    have hcode := congrArg (fun x => Status.err x.status) hraise
    simp only [State.raise_status, Status.err_withErr] at hcode
    exact .inr (.inl ⟨k, hcode ▸ hk, hraise⟩)
  | fault f => exact .inr (.inr ⟨f, rfl⟩)

/-! #### Registers -/

/-- The registers besides STATUS that a command writes when it ends with success (R10), FLAGS with TYPE. -/
def writtenBy : Instr → List Reg
  | .tnew | .crcv => []
  | .tparse => [.type, .flags]
  | .crci | .crcb _ | .crct | .crcm => [.crcacc]
  | .crcf | .crcg => [.crc]
  | .cenc => [.crc, .dst]
  | .cdec => [.len, .type, .flags, .crc, .dptr]
  | .sigw => [.dst]
  | .sopen => [.cur]
  | .snext => [.len, .type, .flags, .crc, .dptr, .cur]

section

variable {i : Instr} {s t u : State}

theorem State.Succeeds.regsKept (h : s.Succeeds i u) : s.regsKept u (.status :: writtenBy i) := by
  intro r hr
  cases h <;> cases r <;> simp [writtenBy] at hr ⊢

/-- No command writes a register outside its own, STATUS and ERRPOS. -/
theorem regsKept_of_exec (h : exec i s = .next t) : s.regsKept t (.status :: .errpos :: writtenBy i) := by
  intro r hr
  obtain ⟨hstatus, herrpos, hr⟩ : r ≠ .status ∧ r ≠ .errpos ∧ r ∉ writtenBy i := by simpa using hr
  obtain ⟨u, hu, rfl⟩ | ⟨k, -, rfl⟩ | ⟨f, rfl⟩ := exec_cases h
  · rw [← hu.regsKept r (by simp [hstatus, hr])]
    cases r <;> simp at hstatus ⊢
  · exact s.regsKept_status_errpos _ _ r (by simp [hstatus, herrpos])
  · exact s.regsKept_status _ r (by simp [hstatus])

/-! #### MEM -/

/-- The bytes of MEM a command can write (R44): first address and number of bytes. -/
def regionWritten (s : State) : Instr → Nat × Nat
  | .cenc => (s.dst.toNat, 12 + s.len.toNat)
  | .sigw => (s.dst.toNat, 8)
  | _ => (0, 0)

/-- No command writes a byte outside its own region, on success or otherwise. -/
theorem memKeptOutside_of_exec (h : exec i s = .next t) :
    s.memKeptOutside t (regionWritten s i).1 (regionWritten s i).2 := by
  intro a ha
  obtain ⟨u, hu, rfl⟩ | ⟨k, -, rfl⟩ | ⟨f, rfl⟩ := exec_cases h
  · cases hu with
    | cenc => exact Memory.read_writeBytes_outside _ _ _ a (by rwa [s.length_serialize_payload])
    | sigw => exact Memory.read_writeBytes_outside sig _ _ a ha
    | _ => rfl
  · rfl
  · rfl

theorem memKept_of_exec (hcenc : i ≠ .cenc) (hsigw : i ≠ .sigw) (h : exec i s = .next t) : s.memKept t := by
  have hkept := memKeptOutside_of_exec h
  cases i with
  | cenc => exact absurd rfl hcenc
  | sigw => exact absurd rfl hsigw
  | _ => exact fun a => hkept a (.inr (Nat.zero_le a))

theorem worldKept_of_exec (h : exec i s = .next t) : s.worldKept t := by
  cases exec_ends h with
  | ok hu => exact ⟨hu.memBytes, hu.pending, hu.replies⟩
  | raise hk hu => exact ⟨hu.memBytes, hu.pending, hu.replies⟩
  | fault f => exact ⟨rfl, rfl, rfl⟩

/-- MEM stays canonical and inside MEM_BYTES: the regions written lie inside. -/
theorem memoryLegal_of_exec (h : exec i s = .next t) (hs : s.memoryLegal = true) : t.memoryLegal = true := by
  obtain ⟨u, hu, rfl⟩ | ⟨k, -, rfl⟩ | ⟨f, rfl⟩ := exec_cases h
  · rw [State.memoryLegal_iff] at hs
    obtain ⟨h1, h2, hwf, hin⟩ := hs
    refine (State.memoryLegal_iff _).mpr ?_
    cases hu with
    | cenc hpayload hframe hapart =>
      refine ⟨h1, h2, Memory.wf_writeBytes _ _ hwf, Memory.inside_writeBytes _ _ hin ?_⟩
      rw [s.length_serialize_payload, ← Nat.add_assoc]
      exact s.frameInside_iff.mp hframe
    | sigw hsig =>
      exact ⟨h1, h2, Memory.wf_writeBytes _ _ hwf, Memory.inside_writeBytes sig _ hin (s.sigInside_iff.mp hsig)⟩
    | _ => exact ⟨h1, h2, hwf, hin⟩
  · exact hs
  · exact hs

/-! #### The fields of STATUS -/

/-- Only CDEC, SOPEN and SNEXT write CV and TERM. -/
theorem State.Succeeds.delivery_kept (h : s.Succeeds i u) (hi : i ∉ [Instr.cdec, .sopen, .snext]) :
    Status.cv u.status = Status.cv s.status ∧ Status.term u.status = Status.term s.status := by
  cases h <;> simp at hi ⊢

/-- TERM is set only with CV. -/
theorem State.Succeeds.cv_of_term (h : s.Succeeds i u) (hs : Status.term s.status = true → Status.cv s.status = true) :
    Status.term u.status = true → Status.cv u.status = true := by
  cases h with
  | cdec => simp
  | sopen => simp
  | snextExhausted => simp
  | snextChunk => simp
  | _ => exact hs

/-- CV and TERM after a command that does not write them, or that ends with a hardware fault (R12). -/
theorem delivery_kept_of_exec (h : exec i s = .next t)
    (hi : i ∉ [Instr.cdec, .sopen, .snext] ∨ Status.err t.status ∈ [8#4, 9#4, 10#4, 11#4]) :
    Status.cv t.status = Status.cv s.status ∧ Status.term t.status = Status.term s.status := by
  by_cases hfault : Status.err t.status ∈ [8#4, 9#4, 10#4, 11#4]
  · obtain ⟨⟨-, -, hterm, hcv, -, -⟩, -⟩ := (exec_ends h).faulted hfault
    exact ⟨hcv, hterm⟩
  · replace hi := hi.resolve_right hfault
    obtain ⟨u, hu, rfl⟩ | ⟨k, -, rfl⟩ | ⟨f, rfl⟩ := exec_cases h
    · simpa using hu.delivery_kept hi
    · obtain ⟨-, -, hterm, hcv, -, -⟩ := Status.reads_withErr_beforeRaise i s.status (errorCode k)
      rw [if_neg hi] at hterm hcv
      exact ⟨hcv, hterm⟩
    · simp

/-- HWF after a command: set by a hardware fault, and by nothing else (R12). -/
theorem State.Ends.hwf_iff (h : State.Ends i s t) :
    Status.hwf t.status = true ↔ Status.hwf s.status = true ∨ Status.err t.status ∈ [8#4, 9#4, 10#4, 11#4] := by
  cases h with
  | ok hu => simp [hu.hwf]
  | @raise u k hk hu => cases k <;> simp [hu.hwf, errorCode]
  | fault f => cases f <;> simp [faultCode]

theorem State.Ends.reserved_eq (h : State.Ends i s t) : Status.reserved t.status = Status.reserved s.status := by
  cases h with
  | ok hu => simpa using hu.reserved
  | raise hk hu => simpa using hu.reserved
  | fault f => simp

theorem State.Ends.errReported (h : State.Ends i s t) : errReported (Status.err t.status) = true := by
  cases h with
  | ok hu => simp [Machine.errReported]
  | @raise u k hk hu => cases k <;> simp [errorCode, Machine.errReported] at hk ⊢
  | fault f => cases f <;> simp [faultCode, Machine.errReported]

theorem cv_of_term_of_exec (h : exec i s = .next t) (hs : Status.term s.status = true → Status.cv s.status = true) :
    Status.term t.status = true → Status.cv t.status = true := by
  obtain ⟨u, hu, rfl⟩ | ⟨k, -, rfl⟩ | ⟨f, rfl⟩ := exec_cases h
  · simpa using hu.cv_of_term hs
  · obtain ⟨-, -, hterm, hcv, -, -⟩ := Status.reads_withErr_beforeRaise i s.status (errorCode k)
    rw [State.raise_status, hterm, hcv]
    split
    · exact id
    · exact hs
  · simpa using hs

theorem Status.legal_iff {w : Word} : Status.legal w = true ↔
    Status.reserved w = 0#23 ∧ Machine.errReported (Status.err w) = true ∧
      (Status.term w = true → Status.cv w = true) := by
  simp only [Status.legal, Bool.and_eq_true, beq_iff_eq, Bool.or_eq_true, Bool.not_eq_true', and_assoc]
  cases Status.term w <;> simp

/-! #### The invariant -/

theorem inv_of_exec (h : exec i s = .next t) (hs : s.Inv) : t.Inv := by
  obtain ⟨hmem, hstatus⟩ := hs
  obtain ⟨hres, -, hterm⟩ := Status.legal_iff.mp hstatus
  exact ⟨memoryLegal_of_exec h hmem, Status.legal_iff.mpr ⟨(exec_ends h).reserved_eq.trans hres,
    (exec_ends h).errReported, cv_of_term_of_exec h hterm⟩⟩

/-- An illegal word writes ERR and HWF, and 8 is a code that a command can report (R181). -/
theorem State.inv_hwFault (f : HwFault) (hs : s.Inv) : (s.hwFault f).Inv := by
  obtain ⟨hmem, hstatus⟩ := hs
  obtain ⟨hres, -, hterm⟩ := Status.legal_iff.mp hstatus
  refine ⟨hmem, Status.legal_iff.mpr ⟨by simpa using hres, ?_, by simpa using hterm⟩⟩
  exact (State.Ends.fault (i := .tnew) (s := s) f).errReported

theorem inv_of_performHost {op : HostOp} (h : performHost op s = .next t) (hs : s.Inv) : t.Inv := by
  obtain ⟨w, -, hw⟩ | ⟨r, v, -, -, rfl⟩ | ⟨r, -, rfl⟩ | ⟨a, b, -, ha, rfl⟩ | ⟨a, -, -, rfl⟩ := performHost_cases h
  · obtain ⟨i, -, hexec⟩ | ⟨e, -, rfl⟩ := runWord_cases hw
    · exact inv_of_exec hexec hs
    · exact s.inv_hwFault .illegalCommand hs
  · cases r <;> exact hs
  · exact hs
  · obtain ⟨hmem, hstatus⟩ := hs
    obtain ⟨h1, h2, hwf, hin⟩ := s.memoryLegal_iff.mp hmem
    exact ⟨(State.memoryLegal_iff _).mpr ⟨h1, h2, Memory.wf_write a b hwf, Memory.inside_write b hin ha⟩, hstatus⟩
  · exact hs

theorem inv_of_perform {e : Event} (h : perform e s = .next t) (hs : s.Inv) : t.Inv := by
  cases e with
  | host op => exact inv_of_performHost h hs
  | reset c =>
    cases h
    obtain ⟨h1, h2, -, -⟩ := s.memoryLegal_iff.mp hs.1
    obtain ⟨hwf, hin⟩ := Memory.wf_ofCells s.memBytes c
    exact State.inv_resetWith h1 h2 hwf hin

end

/-! #### The endings that R182's table lists -/

/-- A command reports only codes of its row. -/
theorem err_mem_endingsOf {i : Instr} {s t : State} (h : exec i s = .next t) : Status.err t.status ∈ endingsOf i := by
  cases i with
  | tnew => obtain ⟨-, rfl⟩ | ⟨-, rfl⟩ := execTnew_cases h <;> simp [endingsOf, errorCode]
  | tparse =>
    obtain ⟨-, rfl⟩ | ⟨-, -, rfl⟩ | ⟨-, -, -, rfl⟩ := execTparse_cases h <;> simp [endingsOf, errorCode, faultCode]
  | crci => simp [execCrci_cases h, endingsOf]
  | crcb imm8 => simp [execCrcb_cases h, endingsOf]
  | crct => simp [execCrct_cases h, endingsOf]
  | crcm => obtain ⟨-, rfl⟩ | ⟨-, rfl⟩ := execCrcm_cases h <;> simp [endingsOf, faultCode]
  | crcf => simp [execCrcf_cases h, endingsOf]
  | crcg => obtain ⟨-, rfl⟩ | ⟨-, rfl⟩ := execCrcg_cases h <;> simp [endingsOf, faultCode]
  | crcv =>
    obtain ⟨-, rfl⟩ | ⟨-, -, rfl⟩ | ⟨-, -, rfl⟩ := execCrcv_cases h <;> simp [endingsOf, errorCode, faultCode]
  | cenc => obtain ⟨-, rfl⟩ | ⟨-, -, -, rfl⟩ | ⟨-, -, -, rfl⟩ := execCenc_cases h <;> simp [endingsOf, faultCode]
  | cdec =>
    obtain ⟨-, rfl⟩ | ⟨k, -, hk, rfl⟩ | ⟨ch, -, -, rfl⟩ := execCdec_cases h
    · simp [endingsOf, faultCode]
    · obtain rfl | rfl | rfl := decodeChunk_error hk <;> simp [endingsOf, errorCode]
    · simp [endingsOf]
  | sigw => obtain ⟨-, rfl⟩ | ⟨-, rfl⟩ := execSigw_cases h <;> simp [endingsOf, faultCode]
  | sopen =>
    obtain ⟨-, rfl⟩ | ⟨-, -, rfl⟩ | ⟨-, -, rfl⟩ := execSopen_cases h <;> simp [endingsOf, errorCode, faultCode]
  | snext =>
    obtain ⟨-, rfl⟩ | ⟨-, -, rfl⟩ | ⟨-, -, -, rfl⟩ | ⟨k, -, -, -, hk, rfl⟩ | ⟨ch, -, -, -, -, rfl⟩ := execSnext_cases h
    · simp [endingsOf, faultCode]
    · simp [endingsOf, faultCode]
    · simp [endingsOf]
    · obtain rfl | rfl | rfl := decodeChunk_error hk <;> simp [endingsOf, errorCode]
    · simp [endingsOf]

/-- The code in ERR when an outcome is a next state. -/
def errAfter : Host.Outcome State Fault Refusal → Option (BitVec 4)
  | .next t => some (Status.err t.status)
  | .fault _ => none
  | .refused _ => none

theorem exists_next_of_errAfter {o : Host.Outcome State Fault Refusal} {c : BitVec 4} (h : errAfter o = some c) :
    ∃ t, o = .next t ∧ Status.err t.status = c := by
  cases o with
  | next t => exact ⟨t, rfl, Option.some.inj h⟩
  | fault f => cases h
  | refused r => cases h

/-- The signature, then a frame of type IEND without data whose CRC field is `crc`. -/
def streamMemory (crc : Word) : Memory :=
  Memory.writeBytes [] 0 (sig ++ [0#8, 0#8, 0#8, 0#8] ++ iend.bytes ++ (Quad.ofWord crc).bytes)

/-- A stream in the course of being decoded, with the chunk of its frame in the registers, in 64 bytes of MEM. -/
def streamState : State :=
  { State.resetWith 64 (streamMemory 0xAE426082#32) with
    status := Status.withSs 0#32 (streamCode .loop), type := iend.toWord, crc := 0xAE426082#32, dst := 32#32 }

/-- A state on which a command ends with a code of its row. -/
def endingState (i : Instr) (c : BitVec 4) : State :=
  match c.toNat, i with
  | 0, .tparse => { streamState with src := 12#32, avail := 4#32 }
  | 0, .sopen => { streamState with avail := 8#32 }
  | 0, _ => { streamState with src := 8#32, avail := 12#32 }
  | 1, _ => streamState
  | 2, _ => { streamState with avail := 1#32 }
  | 3, _ => { streamState with type := 0#32, avail := 12#32 }
  | 5, _ => { streamState with mem := streamMemory 0#32, src := 8#32, avail := 12#32, crc := 0#32 }
  | 10, _ => { streamState with dst := 0#32, len := 1#32 }
  | 11, _ => State.reset
  | _, _ => { streamState with memBytes := 0, avail := 1#32, len := 1#32 }

/-- CRCB ends in one way, every other command on its states with each code of its row. -/
theorem exists_exec_err_of_mem_endingsOf {i : Instr} {c : BitVec 4} (hc : c ∈ endingsOf i) :
    ∃ s t, exec i s = .next t ∧ Status.err t.status = c := by
  have hformatN : ∀ i ∈ formatNCommands, ∀ c ∈ endingsOf i, errAfter (exec i (endingState i c)) = some c := by
    decide +kernel
  by_cases hi : i ∈ formatNCommands
  · exact ⟨endingState i c, exists_next_of_errAfter (hformatN i hi c hc)⟩
  · obtain ⟨b, rfl⟩ : ∃ b, i = .crcb b := by
      cases i <;> simp [formatNCommands] at hi ⊢
    obtain rfl : c = 0#4 := by simpa [endingsOf] using hc
    exact ⟨State.reset, _, rfl, by simp⟩

/-! #### The obligations -/

/-- Settles O11: commands, the other host operations and reset each keep the invariant. -/
theorem stepKeepsTheInvariant : Obligations.StepKeepsTheInvariant := by
  intro s t hs h
  obtain ⟨-, rfl⟩ | ⟨e, rest, -, he⟩ := step_cases h
  · exact hs
  · exact inv_of_perform he hs

/-- Settles O13: each ending of a command is in its row, and each code of a row has a state that leads to it. -/
theorem commandsEndAsTheirRowSays : Obligations.CommandsEndAsTheirRowSays := by
  intro i c
  constructor
  · rintro ⟨s, t, h, rfl⟩
    exact err_mem_endingsOf h
  · exact exists_exec_err_of_mem_endingsOf

/-- Settles O15, register by register from what a command can write. -/
theorem registersAreWrittenOnlyByTheirCommands : Obligations.RegistersAreWrittenOnlyByTheirCommands := by
  intro i s t h
  have hkept := regsKept_of_exec h
  refine ⟨fun herr => ?_, hkept .src ?_, hkept .avail ?_, fun hi => ⟨hkept .type ?_, hkept .flags ?_⟩,
    fun hi => ⟨hkept .len ?_, hkept .dptr ?_⟩, fun hi => hkept .crc ?_,
    fun hi => ⟨hkept .dst ?_, memKept_of_exec (by simp_all) (by simp_all) h⟩,
    by rintro rfl; exact memKeptOutside_of_exec h, by rintro rfl; exact memKeptOutside_of_exec h,
    fun hi => hkept .cur ?_, fun hi hb => hkept .crcacc ?_, worldKept_of_exec h⟩
  · rw [(exec_ends h).errpos_eq, if_neg herr]
  all_goals
    clear h hkept
    cases i <;> simp [writtenBy] at *

/-- Settles O16: SS by its own lemma, CV and TERM, HWF and the zeros by the way the command ends. -/
theorem statusFieldsAreWrittenOnlyByTheirCommands : Obligations.StatusFieldsAreWrittenOnlyByTheirCommands := by
  refine fun i s t h => ⟨fun hi => ?_, delivery_kept_of_exec h, (exec_ends h).hwf_iff, (exec_ends h).reserved_eq⟩
  obtain ⟨hsopen, hsnext⟩ : i ≠ .sopen ∧ i ≠ .snext := by simpa using hi
  exact ss_of_exec_of_ne hsopen hsnext h

end Sys2Proof.Machine

/-! ### Proofs of the family other: type codes counted, frames and their checks -/

namespace Sys2Proof.Machine

/-! #### The valid type codes -/

/-- The letters, and the upper-case ones among them (R80, R84). -/
def letters : Finset Byte := Finset.univ.filter (fun b => isLetter b = true)

def upperLetters : Finset Byte := Finset.univ.filter (fun b => isLetter b = true ∧ b.getLsbD 5 = false)

theorem card_letters : letters.card = 52 := by decide +kernel

theorem card_upperLetters : upperLetters.card = 26 := by decide +kernel

/-- The type code of four bytes. -/
def quadOfBytes (x : Byte × Byte × Byte × Byte) : Type4 := ⟨x.1, x.2.1, x.2.2.1, x.2.2.2⟩

theorem quadOfBytes_injective : Function.Injective quadOfBytes := by
  rintro ⟨a, b, c, d⟩ ⟨a', b', c', d'⟩ h
  simpa [quadOfBytes] using h

/-- Four letters, the third of them upper-case (R81). -/
def validBytes : Finset (Byte × Byte × Byte × Byte) := letters ×ˢ letters ×ˢ upperLetters ×ˢ letters

theorem mem_validBytes_iff {x : Byte × Byte × Byte × Byte} : x ∈ validBytes ↔ isValid (quadOfBytes x) = true := by
  rw [isValid_iff, reservedBitValid_eq, Bool.not_eq_true']
  simp only [allLetters, quadOfBytes, validBytes, letters, upperLetters, Finset.mem_product, Finset.mem_filter_univ,
    Bool.and_eq_true]
  tauto

theorem setOf_isValid_eq_image : { t : Type4 | isValid t = true } = quadOfBytes '' validBytes := by
  ext t
  simp only [Set.mem_ofPred_eq, Set.mem_image, Finset.mem_coe, mem_validBytes_iff]
  constructor
  · intro h
    exact ⟨(t.b0, t.b1, t.b2, t.b3), h, rfl⟩
  · rintro ⟨x, hx, rfl⟩
    exact hx

/-! #### DecodeChunk on a buffer that is given field by field -/

section

variable {t : Type4} (n : Quad) {R : Bytes}

theorem quadAt_fields_type : quadAt (n.bytes ++ (t.bytes ++ R)) 4 = t :=
  (quadAt_append n.bytes _ 0).trans (quadAt_bytes_append t R)

theorem quadAt_fields_crc (k : Nat) : quadAt (n.bytes ++ (t.bytes ++ R)) (8 + k) = quadAt R k := by
  rw [← List.append_assoc]
  exact quadAt_append (n.bytes ++ t.bytes) R k

theorem length_fields : (n.bytes ++ (t.bytes ++ R)).length = 8 + R.length := by
  simp only [List.length_append, Quad.length_bytes]
  omega

theorem decodeChunk_fields_of_invalid (hR : 4 ≤ R.length) (ht : isValid t = false) :
    decodeChunk (n.bytes ++ (t.bytes ++ R)) = .error .invalidChunkType := by
  apply decodeChunk_of_invalid
  · rw [length_fields]
    omega
  · rwa [quadAt_fields_type]

theorem decodeChunk_fields_of_valid (hR : 4 ≤ R.length) (ht : isValid t = true) :
    decodeChunk (n.bytes ++ (t.bytes ++ R)) = decodePayload (n.bytes ++ (t.bytes ++ R)) n.toWord t := by
  rw [decodeChunk_of_valid, quadAt_fields_type, quadAt_bytes_append]
  · rw [length_fields]
    omega
  · rwa [quadAt_fields_type]

theorem decodeChunk_fields_of_lt (hR : 4 ≤ R.length) (ht : isValid t = true) (hn : R.length < n.toWord.toNat + 4) :
    decodeChunk (n.bytes ++ (t.bytes ++ R)) = .error .tooShort := by
  rw [decodeChunk_fields_of_valid n hR ht]
  apply decodePayload_of_lt
  rw [length_fields]
  omega

/-- With the whole frame there the CRC decides; DecodeChunk looks at the payload and the CRC field alone. -/
theorem decodeChunk_fields_of_le (ht : isValid t = true) (hn : n.toWord.toNat + 4 ≤ R.length) :
    decodeChunk (n.bytes ++ (t.bytes ++ R)) =
      if chunkCrc t (R.take n.toWord.toNat) = (quadAt R n.toWord.toNat).toWord then
        .ok ⟨n.toWord, t, R.take n.toWord.toNat, (quadAt R n.toWord.toNat).toWord⟩
      else .error .crcMismatch := by
  have hdrop : (n.bytes ++ (t.bytes ++ R)).drop 8 = R := rfl
  rw [decodeChunk_fields_of_valid n (by omega) ht, decodePayload_of_le, hdrop, quadAt_fields_crc]
  rw [length_fields]
  omega

end

/-- A buffer of at least eight bytes is its length field, its type field and the rest. -/
theorem eq_fields_of_length {B : Bytes} (h : 8 ≤ B.length) :
    B = (quadAt B 0).bytes ++ ((quadAt B 4).bytes ++ B.drop 8) := by
  rw [bytes_quadAt_drop B 0 (by omega), bytes_quadAt_drop B 4 (by omega), List.drop_zero]
  have h4 : (B.drop 4).take 4 ++ B.drop 8 = B.drop 4 := by
    rw [show B.drop 8 = (B.drop 4).drop 4 by rw [List.drop_drop], List.take_append_drop]
  rw [h4, List.take_append_drop]

/-- DecodeChunk looks at no byte after the frame, whether the CRC matches or not (R121). -/
theorem decodeChunk_append {F : Bytes} (u : Bytes) (h : 12 + (quadAt F 0).toWord.toNat ≤ F.length) :
    decodeChunk (F ++ u) = decodeChunk F := by
  have hF := eq_fields_of_length (B := F) (by omega)
  have hR : (quadAt F 0).toWord.toNat + 4 ≤ (F.drop 8).length := by
    rw [List.length_drop]
    omega
  generalize F.drop 8 = R, quadAt F 0 = n, quadAt F 4 = t at hF hR
  subst hF
  have hRu : n.toWord.toNat + 4 ≤ (R ++ u).length := by
    rw [List.length_append]
    omega
  rw [List.append_assoc, List.append_assoc]
  cases ht : isValid t with
  | false => rw [decodeChunk_fields_of_invalid n (by omega) ht, decodeChunk_fields_of_invalid n (by omega) ht]
  | true =>
    rw [decodeChunk_fields_of_le n ht hRu, decodeChunk_fields_of_le n ht hR, quadAt_append_left R u _ hR,
      List.take_append_of_le_length (by omega)]

/-! #### Frames -/

/-- A frame of a valid type, whatever its CRC field holds and whatever follows it. -/
theorem decodeChunk_frame {t : Type4} {d : Bytes} (ht : isValid t = true) (hd : d.length < 2 ^ 32) (c : Quad) (u : Bytes) :
    decodeChunk ((Quad.ofWord (BitVec.ofNat 32 d.length)).bytes ++ (t.bytes ++ (d ++ (c.bytes ++ u)))) =
      if chunkCrc t d = c.toWord then .ok ⟨BitVec.ofNat 32 d.length, t, d, c.toWord⟩ else .error .crcMismatch := by
  have hlen : (BitVec.ofNat 32 d.length).toNat = d.length := by rw [BitVec.toNat_ofNat, Nat.mod_eq_of_lt hd]
  have hcrc : quadAt (d ++ (c.bytes ++ u)) d.length = c :=
    (quadAt_append d _ 0).trans (quadAt_bytes_append c u)
  rw [decodeChunk_fields_of_le _ ht]
  · rw [Quad.toWord_ofWord, hlen, List.take_left, hcrc]
  · rw [Quad.toWord_ofWord, hlen]
    simp

theorem decodeChunk_serialize_append {t : Type4} {d : Bytes} (ht : isValid t = true) (hd : d.length < 2 ^ 32) (u : Bytes) :
    decodeChunk (serialize t d ++ u) = .ok ⟨BitVec.ofNat 32 d.length, t, d, chunkCrc t d⟩ := by
  simp only [serialize, List.append_assoc]
  rw [decodeChunk_frame ht hd, Quad.toWord_ofWord, if_pos rfl]

theorem decodeChunk_serialize_append_of_invalid {t : Type4} (ht : isValid t = false) (d u : Bytes) :
    decodeChunk (serialize t d ++ u) = .error .invalidChunkType := by
  simp only [serialize, List.append_assoc]
  exact decodeChunk_fields_of_invalid _ (by simp; omega) ht

/-- Re-encoding a decoded chunk gives back the bytes of its frame. -/
theorem serialize_of_decodeChunk_ok {B : Bytes} {ch : Decoded} (h : decodeChunk B = .ok ch) :
    serialize ch.t ch.d = B.take (12 + ch.n.toNat) := by
  obtain ⟨hlen, hn, ht, -, hd, hc, hcrc⟩ := decodeChunk_ok h
  have hdlen : ch.d.length = ch.n.toNat := by
    rw [hd, List.length_take, List.length_drop]
    omega
  have hfields := eq_fields_of_length (B := B) (by omega)
  have hrest : (B.drop 8).take (ch.n.toNat + 4) = ch.d ++ (Quad.ofWord ch.c).bytes := by
    rw [hc, Quad.ofWord_toWord, bytes_quadAt_drop B _ (by omega), List.take_add, ← hd, List.drop_drop]
  calc serialize ch.t ch.d
    _ = (quadAt B 0).bytes ++ ((quadAt B 4).bytes ++ (ch.d ++ (Quad.ofWord ch.c).bytes)) := by
      rw [serialize_eq_append, ← hcrc, hdlen, BitVec.ofNat_toNat, BitVec.setWidth_eq, hn, Quad.ofWord_toWord, ht]
    _ = ((quadAt B 0).bytes ++ ((quadAt B 4).bytes ++ B.drop 8)).take (12 + ch.n.toNat) := by
      rw [← hrest, ← List.append_assoc, ← List.append_assoc,
        show 12 + ch.n.toNat = ((quadAt B 0).bytes ++ (quadAt B 4).bytes).length + (ch.n.toNat + 4) by simp; omega,
        List.take_length_add_append]
    _ = B.take (12 + ch.n.toNat) := by rw [← hfields]

/-! #### A flipped bit -/

/-- One flipped bit of a field flips one bit of one of its bytes. -/
theorem ofWord_one_shiftLeft {k : Nat} (hk : k < 32) :
    ∃ x : Byte, x ≠ 0#8 ∧ (Quad.ofWord (1#32 <<< k) = ⟨x, 0#8, 0#8, 0#8⟩ ∨ Quad.ofWord (1#32 <<< k) = ⟨0#8, x, 0#8, 0#8⟩ ∨
      Quad.ofWord (1#32 <<< k) = ⟨0#8, 0#8, x, 0#8⟩ ∨ Quad.ofWord (1#32 <<< k) = ⟨0#8, 0#8, 0#8, x⟩) := by
  refine ⟨1#8 <<< (k % 8), one_shiftLeft_ne_zero (Nat.mod_lt k (by decide)), ?_⟩
  decide +revert

theorem one_shiftLeft_word_ne_zero {k : Nat} (hk : k < 32) : 1#32 <<< k ≠ 0#32 := by
  decide +revert

theorem ofWord_xor (v w : Word) : Quad.ofWord (v ^^^ w) = ⟨(Quad.ofWord v).b0 ^^^ (Quad.ofWord w).b0,
    (Quad.ofWord v).b1 ^^^ (Quad.ofWord w).b1, (Quad.ofWord v).b2 ^^^ (Quad.ofWord w).b2,
    (Quad.ofWord v).b3 ^^^ (Quad.ofWord w).b3⟩ := by
  simp only [Quad.ofWord, BitVec.extractLsb'_xor]

/-- Type codes that differ in one bit give one payload different CRCs: one byte of the sequence differs. -/
theorem chunkCrc_flipped_type_ne (t : Type4) (d : Bytes) {k : Nat} (hk : k < 32) :
    chunkCrc (Quad.ofWord (t.toWord ^^^ (1#32 <<< k))) d ≠ chunkCrc t d := by
  intro h
  obtain ⟨x, hx, hflip⟩ := ofWord_one_shiftLeft hk
  have hxor : ∀ b : Byte, b ^^^ x = b → False := fun b hb => hx (xor_left_eq_self_iff.mp hb)
  rw [ofWord_xor, Quad.ofWord_toWord] at h
  obtain hflip | hflip | hflip | hflip := hflip <;> rw [hflip] at h <;> simp only [BitVec.xor_zero] at h
  · exact hxor t.b0 (eq_of_crc32_append_cons_eq (p := []) h)
  · exact hxor t.b1 (eq_of_crc32_append_cons_eq (p := [t.b0]) h)
  · exact hxor t.b2 (eq_of_crc32_append_cons_eq (p := [t.b0, t.b1]) h)
  · exact hxor t.b3 (eq_of_crc32_append_cons_eq (p := [t.b0, t.b1, t.b2]) h)

/-- Payloads that differ in one bit have different CRCs under one type. -/
theorem chunkCrc_flipped_data_ne (t : Type4) (p q : Bytes) (b : Byte) {k : Nat} (hk : k < 8) :
    chunkCrc t (p ++ (b ^^^ (1#8 <<< k)) :: q) ≠ chunkCrc t (p ++ b :: q) := by
  simp only [chunkCrc, ← List.append_assoc]
  exact singleBitErrorsChangeTheCrc (t.bytes ++ p) q b k hk

/-! #### A chunk decoded from MEM -/

/-- A field of a run of bytes of MEM. -/
theorem quadAt_readBytes (m : Memory) (a : Nat) {n i : Nat} (h : i + 4 ≤ n) :
    quadAt (m.readBytes a n) i = quadAt (m.readBytes (a + i) 4) 0 := by
  simp only [quadAt]
  rw [Memory.getD_readBytes m a n i (by omega), Memory.getD_readBytes m a n (i + 1) (by omega),
    Memory.getD_readBytes m a n (i + 2) (by omega), Memory.getD_readBytes m a n (i + 3) (by omega)]
  rfl

/-- What is true of a chunk decoded from the `count` bytes of MEM from `base` on (R121), in terms of MEM. -/
theorem decodeChunk_readBytes_ok {m : Memory} {base count : Nat} {ch : Decoded}
    (h : decodeChunk (m.readBytes base count) = .ok ch) :
    12 + ch.n.toNat ≤ count ∧ isValid ch.t = true ∧ ch.d = m.readBytes (base + 8) ch.n.toNat ∧
      ch.c = chunkCrc ch.t (m.readBytes (base + 8) ch.n.toNat) ∧
      (quadAt (m.readBytes (base + 8 + ch.n.toNat) 4) 0).toWord = ch.c := by
  obtain ⟨hlen, -, -, hvalid, hd, hc, hcrc⟩ := decodeChunk_ok h
  rw [Memory.length_readBytes] at hlen
  have hpayload : ch.d = m.readBytes (base + 8) ch.n.toNat := by
    rw [hd, Memory.drop_readBytes m base count 8 (by omega), Memory.take_readBytes _ _ _ _ (by omega)]
  refine ⟨hlen, hvalid, hpayload, hpayload ▸ hcrc, ?_⟩
  rw [hc, quadAt_readBytes m base (show 8 + ch.n.toNat + 4 ≤ count by omega), ← Nat.add_assoc]

/-- A payload of n bytes at the beginning of MEM, and DST right behind it. -/
def payloadFirst (size : Nat) (n : Word) : State := { State.resetWith size [] with len := n, dst := n }

/-! #### The obligations -/

/-- Settles O25: 52 letters in three places, 26 upper-case letters in one. -/
theorem validTypeCodesAreCounted : Obligations.ValidTypeCodesAreCounted := by
  unfold Obligations.ValidTypeCodesAreCounted
  rw [setOf_isValid_eq_image, Set.ncard_image_of_injective _ quadOfBytes_injective, Set.ncard_coe_finset, validBytes]
  simp only [Finset.card_product, card_letters, card_upperLetters]

/-- Settles O23: a buffer is its frame and the rest, and DecodeChunk looks at the frame alone. -/
theorem bytesBeyondTheFrameAreNotInspected : Obligations.BytesBeyondTheFrameAreNotInspected := by
  intro B u ch h
  obtain ⟨hlen, hn, -⟩ := decodeChunk_ok h
  have hquad : quadAt (B.take (12 + ch.n.toNat)) 0 = quadAt B 0 := by
    conv_rhs => rw [← List.take_append_drop (12 + ch.n.toNat) B]
    exact (quadAt_append_left _ _ 0 (by simp; omega)).symm
  have hframe : 12 + (quadAt (B.take (12 + ch.n.toNat)) 0).toWord.toNat ≤ (B.take (12 + ch.n.toNat)).length := by
    rw [hquad, ← hn, List.length_take]
    omega
  refine ⟨hlen, ?_⟩
  rw [decodeChunk_append u hframe, ← decodeChunk_append (B.drop (12 + ch.n.toNat)) hframe, List.take_append_drop, h]

/-- Settles O43: two regions of len and 12 + len bytes inside MEM_BYTES share a byte when they do not fit side by side;
when they do, the frame is put after the payload. -/
theorem cencPayloadIsAtMostHalfOfMemory : Obligations.CencPayloadIsAtMostHalfOfMemory := by
  constructor
  · intro s hsize
    by_cases hin : s.payloadInside = true ∧ s.frameInside = true
    · obtain ⟨hp, hf⟩ := hin
      have hsrc := s.payloadInside_iff.mp hp
      have hdst := s.frameInside_iff.mp hf
      exact ⟨_, exec_cenc_of_overlapping hp hf (s.overlapping_iff.mpr (by omega)), .inr (s.faulted_hwFault .overlap)⟩
    · rw [not_and_or, Bool.not_eq_true, Bool.not_eq_true] at hin
      exact ⟨_, exec_cenc_of_outside hin, .inl (s.faulted_hwFault .bounds)⟩
  · intro size n _ hn
    have hp := (payloadFirst size n).payloadInside_iff.mpr (show 0 + n.toNat ≤ size by omega)
    have hf := (payloadFirst size n).frameInside_iff.mpr (show n.toNat + 12 + n.toNat ≤ size by omega)
    have ho := (payloadFirst size n).overlapping_false.mpr (.inr (.inr (show 0 + n.toNat ≤ n.toNat by omega)))
    exact ⟨payloadFirst size n, _, rfl, rfl, exec_cenc_of_apart hp hf ho, State.succeeded_succeed_mem_crc_dst _ _ _ _⟩

/-- Settles O45: the frame of a valid type decodes to its chunk, a decoded chunk serializes to its frame. -/
theorem framesRoundTrip : Obligations.FramesRoundTrip :=
  ⟨fun _ _ u ht hd => decodeChunk_serialize_append ht hd u, fun _ _ => serialize_of_decodeChunk_ok,
    fun _ d u ht _ => decodeChunk_serialize_append_of_invalid ht d u⟩

/-- Settles O47: a flipped bit in type, data or CRC breaks the CRC, one in the length moves the CRC field. -/
theorem singleBitCorruptionIsDetected : Obligations.SingleBitCorruptionIsDetected := by
  intro t d ht hd
  refine ⟨fun p q b k hk hdata => ?_, fun k hk => ?_, fun k hk => ?_, fun k hk hlarger => ?_,
    fun k hk hsmaller hmismatch => ?_⟩ <;> simp only [List.append_assoc]
  · have hlen : (p ++ (b ^^^ (1#8 <<< k)) :: q).length = d.length := by simp [hdata]
    have hframe := decodeChunk_frame ht (hlen.trans_lt hd) (Quad.ofWord (chunkCrc t d)) []
    rw [if_neg] at hframe
    · simpa [hlen] using hframe
    · rw [Quad.toWord_ofWord, hdata]
      exact chunkCrc_flipped_data_ne t p q b hk
  · split
    · next hvalid =>
      have hframe := decodeChunk_frame hvalid hd (Quad.ofWord (chunkCrc t d)) []
      rwa [if_neg (by simpa using chunkCrc_flipped_type_ne t d hk), List.append_nil] at hframe
    · next hinvalid => exact decodeChunk_fields_of_invalid _ (by simp) (by simpa using hinvalid)
  · have hframe := decodeChunk_frame ht hd (Quad.ofWord (chunkCrc t d ^^^ (1#32 <<< k))) []
    rw [if_neg, List.append_nil] at hframe
    · exact hframe
    · rw [Quad.toWord_ofWord]
      exact fun h => one_shiftLeft_word_ne_zero hk (xor_left_eq_self_iff.mp h.symm)
  · refine decodeChunk_fields_of_lt _ (by simp) ht ?_
    rw [Quad.toWord_ofWord, List.length_append, Quad.length_bytes]
    omega
  · rw [decodeChunk_fields_of_le _ ht, if_neg]
    · rwa [Quad.toWord_ofWord, List.take_append_of_le_length hsmaller.le]
    · rw [Quad.toWord_ofWord, List.length_append, Quad.length_bytes]
      omega

end Sys2Proof.Machine

/-! ### Proofs of the family other: delivered chunks, CENC then CDEC, the engine -/

namespace Sys2Proof.Machine

/-! #### A delivered chunk -/

section

variable {s t u : State} {ch : Decoded}

/-- The registers and MEM of a state in which the chunk at an address of s is delivered. -/
structure State.Delivers (s t : State) (frame : Nat) (ch : Decoded) : Prop where
  type : t.type = ch.t.toWord
  len : t.len = ch.n
  crc : t.crc = ch.c
  dptr : t.dptr.toNat = frame + 8
  mem : t.mem = s.mem
  term : Status.term t.status = decide (ch.t = iend)

/-- What a delivered chunk has passed (R127), from where its frame lies in MEM. -/
theorem State.Delivers.checks {frame count : Nat} (h : s.Delivers t frame ch)
    (hd : decodeChunk (s.mem.readBytes frame count) = .ok ch) :
    (t.readReg .flags).getLsbD 5 = true ∧ frame + 8 ≤ t.dptr.toNat ∧
      t.dptr.toNat + t.len.toNat + 4 ≤ frame + count ∧
      t.crc = chunkCrc (typeBytes t.type) (t.mem.readBytes t.dptr.toNat t.len.toNat) ∧
      (quadAt (t.mem.readBytes (t.dptr.toNat + t.len.toNat) 4) 0).toWord = t.crc ∧
      (Status.term t.status = true ↔ typeBytes t.type = iend) := by
  obtain ⟨hlen, hvalid, -, hcrc, hfield⟩ := decodeChunk_readBytes_ok hd
  rw [State.readReg_flags, getLsbD_flagsOf, h.type, h.len, h.crc, h.dptr, h.mem, h.term, typeBytes_toWord,
    decide_eq_true_iff]
  exact ⟨hvalid, le_rfl, by omega, hcrc, hfield, Iff.rfl⟩

/-- A chunk decoded at SRC is delivered: DPTR does not wrap (R6). -/
theorem State.delivers_cdec (hsize : s.memBytes ≤ 2 ^ 32) (hbuf : s.bufferInside = true)
    (hd : decodeChunk s.buffer = .ok ch) :
    s.Delivers ((s.deliver s.src ch).setDelivery true (decide (ch.t = iend))).succeed s.src.toNat ch := by
  have hlt := State.src_add_eight_lt hbuf hd
  have hdptr : (s.src + 8#32).toNat = s.src.toNat + 8 :=
    BitVec.toNat_add_of_lt (show s.src.toNat + 8 < 2 ^ 32 by omega)
  constructor <;> simp [hdptr]

/-- A chunk decoded at the cursor is delivered: DPTR does not wrap (R6). -/
theorem State.delivers_snext (hsize : s.memBytes ≤ 2 ^ 32) (hbuf : s.bufferInside = true)
    (hcur : s.cur.toNat < s.avail.toNat) (hd : decodeChunk s.rest = .ok ch) :
    s.Delivers (s.advance ch).succeed (s.src.toNat + s.cur.toNat) ch := by
  have hin := s.bufferInside_iff.mp hbuf
  have hframe := State.cur_add_frame_le_avail hcur hd
  have hdptr : (s.src + s.cur + 8#32).toNat = s.src.toNat + s.cur.toNat + 8 :=
    State.toNat_src_add_cur_add_eight (by omega)
  constructor <;> simp [hdptr]

end

/-! #### Lines of a program -/

section

variable {s t : State} {es : List Event}

/-- A command line runs its command (R70). -/
theorem perform_asmCmd (i : Instr) (s : State) : perform (asmCmd i) s = exec i s := runWord_of_decode_ok (decode_encode i) s

theorem performAll_append_of_next {es' : List Event} (h : performAll es s = .next t) :
    performAll (es ++ es') s = performAll es' t := by
  rw [performAll_append, h]

/-- The state with the n bytes from a on as its input buffer (R18). -/
def State.withBuffer (s : State) (a n : Word) : State := { s with src := a, avail := n }

/-- `BUF` sets the input buffer (R71). -/
theorem performAll_asmBuf_append (a n : Word) (es : List Event) (s : State) :
    performAll (asmBuf a n ++ es) s = performAll es (s.withBuffer a n) :=
  performAll_append_of_next rfl

theorem performAll_asmCmd_singleton {i : Instr} (h : exec i s = .next t) : performAll [asmCmd i] s = .next t :=
  performAll_cons_of_next ((perform_asmCmd i s).trans h)

end

/-! #### CENC, then CDEC -/

/-- The frame CENC stores is shorter than 2^32 bytes, or its payload would have no place beside it. -/
theorem State.toNat_frame_length {s : State} (hsize : s.memBytes ≤ 2 ^ 32) (hpayload : s.payloadInside = true)
    (hframe : s.frameInside = true) (hapart : s.overlapping = false) :
    (12#32 + s.len).toNat = 12 + s.len.toNat := by
  have hsrc := s.payloadInside_iff.mp hpayload
  have hdst := s.frameInside_iff.mp hframe
  have hapart := s.overlapping_false.mp hapart
  exact BitVec.toNat_add_of_lt (show 12 + s.len.toNat < 2 ^ 32 by omega)

/-- CDEC on the frame of the chunk that TYPE, LEN and CRC describe leaves them as they are, and succeeds exactly when the
type is valid (R125). -/
theorem exec_cdec_of_buffer_eq_serialize {s : State} {d : Bytes} (hbuf : s.bufferInside = true)
    (hframe : s.buffer = serialize (typeBytes s.type) d) (hd : d.length = s.len.toNat)
    (hcrc : s.crc = chunkCrc (typeBytes s.type) d) :
    ∃ t, exec .cdec s = .next t ∧ (Status.err t.status = 0#4 ↔ isValid (typeBytes s.type) = true) ∧
      t.type = s.type ∧ t.len = s.len ∧ t.crc = s.crc := by
  rw [← List.append_nil (serialize _ _)] at hframe
  cases hvalid : isValid (typeBytes s.type) with
  | false =>
    have hdec := decodeChunk_serialize_append_of_invalid hvalid d []
    rw [← hframe] at hdec
    exact ⟨_, exec_cdec_of_decodeChunk_error hbuf hdec, by simp [errorCode], rfl, rfl, rfl⟩
  | true =>
    have hdec := decodeChunk_serialize_append hvalid (hd.trans_lt s.len.isLt) []
    rw [← hframe] at hdec
    exact ⟨_, exec_cdec_of_decodeChunk_ok hbuf hdec, by simp, by simp, by simp [hd], hcrc.symm⟩

/-! #### The engine -/

/-- A command that feeds the engine (R112). -/
def feeds (i : Instr) : Prop := i = .crct ∨ i = .crcm ∨ ∃ b, i = .crcb b

/-- A feeding command folds CrcUpdate over its bytes. -/
theorem exec_of_feeds {s : State} {i : Instr} (hi : feeds i) (hin : s.payloadInside = true) :
    exec i s = .next { s with crcacc := crcFeed s.crcacc (bytesFed s i) }.succeed := by
  obtain rfl | rfl | ⟨b, rfl⟩ := hi
  · rfl
  · exact exec_crcm_of_payloadInside hin
  · simp only [bytesFed, crcFeed_cons, crcFeed_nil]
    rfl

/-- What is fed does not depend on CRCACC or STATUS. -/
theorem bytesFed_succeed_crcacc (s : State) (x : Word) :
    bytesFed { s with crcacc := x }.succeed = bytesFed s := by
  funext i
  cases i <;> rfl

/-- Feeding commands one after the other feed their bytes one after the other. -/
theorem performAll_feeds (l : List Instr) {s : State} (hl : ∀ i ∈ l, feeds i) (hin : s.payloadInside = true) :
    ∃ w, performAll (l.map asmCmd) s =
      .next { s with status := w, crcacc := crcFeed s.crcacc (l.flatMap (bytesFed s)) } := by
  induction l generalizing s with
  | nil => exact ⟨s.status, rfl⟩
  | cons i l ih =>
    obtain ⟨hi, hl⟩ := List.forall_mem_cons.mp hl
    obtain ⟨w, hw⟩ := ih (s := { s with crcacc := crcFeed s.crcacc (bytesFed s i) }.succeed) hl hin
    refine ⟨w, ?_⟩
    rw [List.map_cons, performAll_cons_of_next ((perform_asmCmd i s).trans (exec_of_feeds hi hin)), hw,
      bytesFed_succeed_crcacc, List.flatMap_cons, crcFeed_append]
    rfl

/-- CRCI, feeds, CRCF: the CRC of the bytes fed (R112). -/
theorem performAll_engine (l : List Instr) {s : State} (hl : ∀ i ∈ l, feeds i) (hin : s.payloadInside = true) :
    ∃ w, performAll (asmCmd .crci :: (l.map asmCmd ++ [asmCmd .crcf])) s =
      .next { s with status := w, crcacc := crcFeed crcOnes (l.flatMap (bytesFed s)),
                     crc := crc32 (l.flatMap (bytesFed s)) } := by
  obtain ⟨w, hw⟩ := performAll_feeds l (s := { s with crcacc := crcOnes }.succeed) hl hin
  rw [bytesFed_succeed_crcacc] at hw
  refine ⟨Status.withErr w 0#4, ?_⟩
  rw [performAll_cons_of_next (t := { s with crcacc := crcOnes }.succeed) (perform_asmCmd .crci s),
    performAll_append_of_next hw]
  exact performAll_asmCmd_singleton rfl

/-! #### The obligations -/

/-- Settles O48: both commands deliver a chunk that DecodeChunk returned, at an address that does not wrap. -/
theorem deliveredChunksHavePassedEveryCheck : Obligations.DeliveredChunksHavePassedEveryCheck := by
  intro i s t hi hsize h herr hcv
  obtain ⟨u, hu, rfl⟩ := succeeds_of_exec_err h herr
  obtain rfl | rfl := hi
  · cases hu with
    | cdec hbuf hd => exact (State.delivers_cdec hsize hbuf hd).checks hd
  · cases hu with
    | snextExhausted => simp at hcv
    | snextChunk hbuf hcur hd =>
      obtain ⟨hflags, hdptr, hend, hrest⟩ := (State.delivers_snext hsize hbuf hcur hd).checks hd
      exact ⟨hflags, by omega, by omega, hrest⟩

/-- Settles O46: the buffer of CDEC is the frame CENC stored, which decodes exactly when its type is valid. -/
theorem cencThenCdecReturnsTheChunk : Obligations.CencThenCdecReturnsTheChunk := by
  intro s u hwf hsize h herr
  obtain ⟨v, hv, rfl⟩ := succeeds_of_exec_err h herr
  cases hv with
  | cenc hpayload hframe hapart =>
    have hlen := State.toNat_frame_length hsize hpayload hframe hapart
    have hdst := s.frameInside_iff.mp hframe
    have hbuf : (s.storeFrame.succeed.withBuffer s.dst (12#32 + s.len)).bufferInside = true :=
      (State.bufferInside_iff _).mpr (show s.dst.toNat + (12#32 + s.len).toNat ≤ s.memBytes by omega)
    have hframe : (s.storeFrame.succeed.withBuffer s.dst (12#32 + s.len)).buffer =
        serialize (typeBytes s.type) s.payload := by
      change (s.mem.writeBytes _ _).readBytes s.dst.toNat (12#32 + s.len).toNat = _
      rw [hlen, ← s.length_serialize_payload]
      exact Memory.readBytes_writeBytes_same _ _ hwf
    obtain ⟨t, ht, hkept⟩ := exec_cdec_of_buffer_eq_serialize hbuf hframe (Memory.length_readBytes ..) rfl
    rw [performAll_asmBuf_append, State.readReg_flags, getLsbD_flagsOf]
    exact ⟨t, performAll_asmCmd_singleton ht, hkept⟩

/-- Settles O38: the engine over its feeds, and CRC32T as the feeds CRCT and CRCM. -/
theorem engineComputesTheCrcOfTheBytesFed : Obligations.EngineComputesTheCrcOfTheBytesFed := by
  constructor
  · intro s l hin hl
    obtain ⟨w, hw⟩ := performAll_engine l hl (s.payloadInside_iff.mpr hin)
    exact ⟨_, hw, rfl, fun r hr => by cases r <;> simp at hr ⊢, fun _ => rfl⟩
  · intro s hin
    have hinside := s.payloadInside_iff.mpr hin
    obtain ⟨w, hw⟩ := performAll_engine [.crct, .crcm] (by simp [feeds]) hinside
    refine ⟨_, _, hw, exec_crcg_of_payloadInside hinside, ?_, rfl⟩
    simp [bytesFed, chunkCrc, State.payload]

end Sys2Proof.Machine

/-! ### Proofs of the family other: what a command can depend on -/

namespace Sys2Proof.Machine

/-! #### What DecodeChunk reads of MEM -/

/-- A field of a run of bytes is the field of a shorter run that reaches past it. -/
theorem quadAt_readBytes_of_le (m : Memory) (base : Nat) {i k count : Nat} (hi : i + 4 ≤ k) (hk : k ≤ count) :
    quadAt (m.readBytes base count) i = quadAt (m.readBytes base k) i := by
  rw [quadAt_readBytes m base (hi.trans hk), quadAt_readBytes m base hi]

section

variable {m m' : Memory} {base count : Nat}

/-- When the buffer has the whole frame, DecodeChunk looks at the frame alone. -/
theorem decodeChunk_readBytes_of_le (h : 12 + (quadAt (m.readBytes base 8) 0).toWord.toNat ≤ count) :
    decodeChunk (m.readBytes base count) =
      decodeChunk (m.readBytes base (12 + (quadAt (m.readBytes base 8) 0).toWord.toNat)) := by
  have hfield (k : Nat) (hk : 8 ≤ k) := quadAt_readBytes_of_le m base (i := 0) (by decide : 0 + 4 ≤ 8) hk
  obtain ⟨rest, rfl⟩ := Nat.exists_eq_add_of_le h
  rw [Memory.readBytes_add]
  refine decodeChunk_append _ ?_
  rw [hfield _ (by omega), Memory.length_readBytes]

/-- When the type is invalid or the buffer ends before the frame does, the first eight bytes decide. -/
theorem decodeChunk_readBytes_of_not_frame (h12 : 12 ≤ count)
    (h : ¬(isValid (quadAt (m.readBytes base 8) 4) = true ∧ 12 + (quadAt (m.readBytes base 8) 0).toWord.toNat ≤ count)) :
    decodeChunk (m.readBytes base count) =
      .error (if isValid (quadAt (m.readBytes base 8) 4) = true then .tooShort else .invalidChunkType) := by
  have hfield (i : Nat) (hi : i + 4 ≤ 8) := quadAt_readBytes_of_le m base hi (by omega : 8 ≤ count)
  have hlen : 12 ≤ (m.readBytes base count).length := by rwa [Memory.length_readBytes]
  rw [← hfield 0 (by decide), ← hfield 4 (by decide)] at h
  rw [← hfield 4 (by decide)]
  split
  · next hvalid =>
    rw [decodeChunk_of_valid hlen hvalid]
    apply decodePayload_of_lt
    rw [Memory.length_readBytes]
    exact not_le.mp fun hle => h ⟨hvalid, hle⟩
  · next hinvalid => exact decodeChunk_of_invalid hlen (by simpa using hinvalid)

/-- DecodeChunk on bytes of MEM depends on those that R44 names. -/
theorem decodeChunk_readBytes_congr
    (h : ∀ a, base ≤ a → a < base + frameBytesRead m base count → m'.read a = m.read a) :
    decodeChunk (m'.readBytes base count) = decodeChunk (m.readBytes base count) := by
  by_cases h12 : count < 12
  · rw [decodeChunk_of_length_lt (by simpa using h12), decodeChunk_of_length_lt (by simpa using h12)]
  rw [frameBytesRead, if_neg h12] at h
  have hheader : m'.readBytes base 8 = m.readBytes base 8 :=
    Memory.readBytes_congr m' m base 8 fun a h1 h2 => h a h1 (by split <;> omega)
  split_ifs at h with hframe
  · rw [decodeChunk_readBytes_of_le hframe.2, decodeChunk_readBytes_of_le (hheader ▸ hframe.2), hheader,
      Memory.readBytes_congr m' m base _ h]
  · rw [decodeChunk_readBytes_of_not_frame (not_lt.mp h12) hframe,
      decodeChunk_readBytes_of_not_frame (not_lt.mp h12) (hheader ▸ hframe), hheader]

end

/-! #### Two states that differ where a command does not look -/

/-- s with other contents of CRC, CRCACC and MEM. -/
def State.withHidden (s : State) (c x : Word) (m : Memory) : State := { s with crc := c, crcacc := x, mem := m }

/-- From s and s', t and t' come by the same writes: every other register is the same in both, and CRC, CRCACC and the
bytes of MEM are each written alike in both or left alone in both. -/
structure State.WritesAlike (s t s' t' : State) : Prop where
  rest : t' = t.withHidden t'.crc t'.crcacc t'.mem
  crc : (t.crc = s.crc ∧ t'.crc = s'.crc) ∨ t'.crc = t.crc
  crcacc : (t.crcacc = s.crcacc ∧ t'.crcacc = s'.crcacc) ∨ t'.crcacc = t.crcacc
  mem : ∃ a bs, t.mem = s.mem.writeBytes a bs ∧ t'.mem = s'.mem.writeBytes a bs

section

variable {s t s' t' : State} {c x : Word} {m : Memory}

/-- Writes to the other registers alone. -/
theorem State.WritesAlike.of_kept (hcrc : t.crc = s.crc) (hacc : t.crcacc = s.crcacc) (hmem : t.mem = s.mem)
    (h : t' = t.withHidden s'.crc s'.crcacc s'.mem) : s.WritesAlike t s' t' := by
  subst h
  exact ⟨rfl, .inl ⟨hcrc, rfl⟩, .inl ⟨hacc, rfl⟩, 0, [], hmem, rfl⟩

theorem State.payload_withHidden
    (h : ∀ a, s.src.toNat ≤ a → a < s.src.toNat + s.len.toNat → m.read a = s.mem.read a) :
    (s.withHidden c x m).payload = s.payload :=
  Memory.readBytes_congr m s.mem _ _ h

/-- TPARSE reads its buffer when it is four bytes long (R44). -/
theorem State.parseFromText_buffer_withHidden
    (h : ∀ a, s.src.toNat ≤ a → a < s.src.toNat + (if s.avail = 4#32 then 4 else 0) → m.read a = s.mem.read a) :
    parseFromText (s.withHidden c x m).buffer = parseFromText s.buffer := by
  by_cases havail : s.avail = 4#32
  · rw [if_pos havail] at h
    have hbuf : (s.withHidden c x m).buffer = s.buffer :=
      Memory.readBytes_congr m s.mem _ _ (by rw [State.withHidden, havail]; exact h)
    rw [hbuf]
  · have hne : s.avail.toNat ≠ 4 := fun h4 => havail (BitVec.eq_of_toNat_eq h4)
    rw [parseFromText_of_length_ne (s.length_buffer.trans_ne hne),
      parseFromText_of_length_ne ((s.withHidden c x m).length_buffer.trans_ne hne)]

/-- SOPEN reads eight bytes when the buffer has them (R44). -/
theorem State.signatureAhead_withHidden
    (h : ∀ a, s.src.toNat ≤ a → a < s.src.toNat + (if 8 ≤ s.avail.toNat then 8 else 0) → m.read a = s.mem.read a) :
    (s.withHidden c x m).signatureAhead = s.signatureAhead := by
  rw [Bool.eq_iff_iff, State.signatureAhead_iff, State.signatureAhead_iff]
  refine and_congr_right fun (havail : 8 ≤ s.avail.toNat) => ?_
  rw [if_pos havail] at h
  exact Eq.congr_left (Memory.readBytes_congr m s.mem _ _ h)

/-- A command writes alike from two states that differ in CRC, in CRCACC and in MEM only where it does not look: CRC for
every command but CRCV, CRCACC for every command outside the engine, the bytes of MEM that R44 does not name. -/
theorem exec_withHidden {i : Instr} (hcrc : i = .crcv → c = s.crc)
    (hacc : i ∈ [Instr.crct, .crcm, .crcf] ∨ (∃ b, i = .crcb b) → x = s.crcacc)
    (hmem : ∀ a, (bytesRead s i).1 ≤ a → a < (bytesRead s i).1 + (bytesRead s i).2 → m.read a = s.mem.read a)
    (h : exec i s = .next t) :
    ∃ t', exec i (s.withHidden c x m) = .next t' ∧ s.WritesAlike t (s.withHidden c x m) t' := by
  cases i with
  | tnew =>
    obtain ⟨hv, rfl⟩ | ⟨hv, rfl⟩ := execTnew_cases h
    · exact ⟨_, exec_tnew_of_valid hv, .of_kept rfl rfl rfl rfl⟩
    · exact ⟨_, exec_tnew_of_invalid hv, .of_kept rfl rfl rfl rfl⟩
  | tparse =>
    have hparse := State.parseFromText_buffer_withHidden (c := c) (x := x) hmem
    cases hbuf : s.bufferInside with
    | false =>
      cases (exec_tparse_of_bufferInside_false hbuf).symm.trans h
      exact ⟨_, exec_tparse_of_bufferInside_false hbuf, .of_kept rfl rfl rfl rfl⟩
    | true =>
      cases htext : parseFromText s.buffer with
      | error k =>
        cases (exec_tparse_of_parse_error hbuf htext).symm.trans h
        exact ⟨_, exec_tparse_of_parse_error hbuf (hparse.trans htext), .of_kept rfl rfl rfl rfl⟩
      | ok ty =>
        cases (exec_tparse_of_parse_ok hbuf htext).symm.trans h
        exact ⟨_, exec_tparse_of_parse_ok hbuf (hparse.trans htext), .of_kept rfl rfl rfl rfl⟩
  | crci =>
    obtain rfl := execCrci_cases h
    exact ⟨_, rfl, rfl, .inl ⟨rfl, rfl⟩, .inr rfl, 0, [], rfl, rfl⟩
  | crcb b =>
    obtain rfl := execCrcb_cases h
    obtain rfl := hacc (.inr ⟨b, rfl⟩)
    exact ⟨_, rfl, rfl, .inl ⟨rfl, rfl⟩, .inr rfl, 0, [], rfl, rfl⟩
  | crct =>
    obtain rfl := execCrct_cases h
    obtain rfl := hacc (.inl (by simp))
    exact ⟨_, rfl, rfl, .inl ⟨rfl, rfl⟩, .inr rfl, 0, [], rfl, rfl⟩
  | crcm =>
    obtain rfl := hacc (.inl (by simp))
    have hpayload := State.payload_withHidden (c := c) (x := s.crcacc) hmem
    obtain ⟨hin, rfl⟩ | ⟨hin, rfl⟩ := execCrcm_cases h
    · exact ⟨_, exec_crcm_of_payloadInside_false hin, .of_kept rfl rfl rfl rfl⟩
    · refine ⟨_, exec_crcm_of_payloadInside hin, rfl, .inl ⟨rfl, rfl⟩, .inr ?_, 0, [], rfl, rfl⟩
      exact congrArg (crcFeed s.crcacc) hpayload
  | crcf =>
    obtain rfl := execCrcf_cases h
    obtain rfl := hacc (.inl (by simp))
    exact ⟨_, rfl, rfl, .inr rfl, .inl ⟨rfl, rfl⟩, 0, [], rfl, rfl⟩
  | crcg =>
    have hpayload := State.payload_withHidden (c := c) (x := x) hmem
    obtain ⟨hin, rfl⟩ | ⟨hin, rfl⟩ := execCrcg_cases h
    · exact ⟨_, exec_crcg_of_payloadInside_false hin, .of_kept rfl rfl rfl rfl⟩
    · refine ⟨_, exec_crcg_of_payloadInside hin, rfl, .inr ?_, .inl ⟨rfl, rfl⟩, 0, [], rfl, rfl⟩
      exact congrArg (chunkCrc (typeBytes s.type)) hpayload
  | crcv =>
    obtain rfl := hcrc rfl
    have hpayload := State.payload_withHidden (c := s.crc) (x := x) hmem
    obtain ⟨hin, rfl⟩ | ⟨hin, hne, rfl⟩ | ⟨hin, heq, rfl⟩ := execCrcv_cases h
    · exact ⟨_, exec_crcv_of_payloadInside_false hin, .of_kept rfl rfl rfl rfl⟩
    · exact ⟨_, exec_crcv_of_crc_ne hin (hpayload ▸ hne), .of_kept rfl rfl rfl rfl⟩
    · exact ⟨_, exec_crcv_of_crc_eq hin (hpayload ▸ heq), .of_kept rfl rfl rfl rfl⟩
  | cenc =>
    have hpayload := State.payload_withHidden (c := c) (x := x) hmem
    obtain ⟨hout, rfl⟩ | ⟨hp, hf, ho, rfl⟩ | ⟨hp, hf, ho, rfl⟩ := execCenc_cases h
    · exact ⟨_, exec_cenc_of_outside hout, .of_kept rfl rfl rfl rfl⟩
    · exact ⟨_, exec_cenc_of_overlapping hp hf ho, .of_kept rfl rfl rfl rfl⟩
    · refine ⟨_, exec_cenc_of_apart hp hf ho, rfl, .inr ?_, .inl ⟨rfl, rfl⟩, _, _, rfl, ?_⟩
      · exact congrArg (chunkCrc (typeBytes s.type)) hpayload
      · exact congrArg (fun d => m.writeBytes s.dst.toNat (serialize (typeBytes s.type) d)) hpayload
  | cdec =>
    have hdec : decodeChunk (s.withHidden c x m).buffer = decodeChunk s.buffer := decodeChunk_readBytes_congr hmem
    obtain ⟨hbuf, rfl⟩ | ⟨k, hbuf, hd, rfl⟩ | ⟨ch, hbuf, hd, rfl⟩ := execCdec_cases h
    · exact ⟨_, exec_cdec_of_bufferInside_false hbuf, .of_kept rfl rfl rfl rfl⟩
    · exact ⟨_, exec_cdec_of_decodeChunk_error hbuf (hdec.trans hd), .of_kept rfl rfl rfl rfl⟩
    · exact ⟨_, exec_cdec_of_decodeChunk_ok hbuf (hdec.trans hd), rfl, .inr rfl, .inl ⟨rfl, rfl⟩, 0, [], rfl, rfl⟩
  | sigw =>
    obtain ⟨hin, rfl⟩ | ⟨hin, rfl⟩ := execSigw_cases h
    · exact ⟨_, exec_sigw_of_sigInside_false hin, .of_kept rfl rfl rfl rfl⟩
    · exact ⟨_, exec_sigw_of_sigInside hin, rfl, .inl ⟨rfl, rfl⟩, .inl ⟨rfl, rfl⟩, _, sig, rfl, rfl⟩
  | sopen =>
    have hahead := State.signatureAhead_withHidden (c := c) (x := x) hmem
    obtain ⟨hbuf, rfl⟩ | ⟨hbuf, hsig, rfl⟩ | ⟨hbuf, hsig, rfl⟩ := execSopen_cases h
    · exact ⟨_, exec_sopen_of_bufferInside_false hbuf, .of_kept rfl rfl rfl rfl⟩
    · exact ⟨_, exec_sopen_of_signatureAhead hbuf (hahead.trans hsig), .of_kept rfl rfl rfl rfl⟩
    · exact ⟨_, exec_sopen_of_signatureAhead_false hbuf (hahead.trans hsig), .of_kept rfl rfl rfl rfl⟩
  | snext =>
    have hdec : decodeChunk (s.withHidden c x m).rest = decodeChunk s.rest := decodeChunk_readBytes_congr hmem
    obtain ⟨hss, rfl⟩ | ⟨hss, hout, rfl⟩ | ⟨hss, hbuf, hcur, rfl⟩ | ⟨k, hss, hbuf, hcur, hd, rfl⟩ |
      ⟨ch, hss, hbuf, hcur, hd, rfl⟩ := execSnext_cases h
    · exact ⟨_, exec_snext_of_ss_ne_loop hss, .of_kept rfl rfl rfl rfl⟩
    · exact ⟨_, exec_snext_of_outside hss hout, .of_kept rfl rfl rfl rfl⟩
    · exact ⟨_, exec_snext_of_exhausted hss hbuf hcur, .of_kept rfl rfl rfl rfl⟩
    · exact ⟨_, exec_snext_of_decodeChunk_error hss hbuf hcur (hdec.trans hd), .of_kept rfl rfl rfl rfl⟩
    · exact ⟨_, exec_snext_of_decodeChunk_ok hss hbuf hcur (hdec.trans hd), rfl, .inr rfl, .inl ⟨rfl, rfl⟩, 0, [], rfl, rfl⟩

/-- CRC written alike, or kept where it was the same before. -/
theorem State.WritesAlike.crc_eq (h : s.WritesAlike t s' t') (hs : s'.crc = s.crc) : t'.crc = t.crc := by
  obtain ⟨ht, ht'⟩ | heq := h.crc
  · rw [ht', hs, ht]
  · exact heq

theorem State.WritesAlike.crcacc_eq (h : s.WritesAlike t s' t') (hs : s'.crcacc = s.crcacc) :
    t'.crcacc = t.crcacc := by
  obtain ⟨ht, ht'⟩ | heq := h.crcacc
  · rw [ht', hs, ht]
  · exact heq

theorem State.WritesAlike.mem_eq (h : s.WritesAlike t s' t') (hs : s'.mem = s.mem) : t'.mem = t.mem := by
  obtain ⟨a, bs, ht, ht'⟩ := h.mem
  rw [ht', hs, ht]

end

/-- Inside the run written a byte reads as what was written there. -/
theorem Memory.read_writeBytes_inside (s : Bytes) {m : Memory} {a x : Nat} (hwf : m.wf = true) (h1 : a ≤ x)
    (h2 : x < a + s.length) : (m.writeBytes a s).read x = s.getD (x - a) 0#8 := by
  have hbyte := Memory.getD_readBytes (m.writeBytes a s) a s.length (x - a) (by omega)
  rw [Memory.readBytes_writeBytes_same s a hwf, Nat.add_sub_cancel' h1] at hbyte
  exact hbyte.symm

/-- The same bytes written to two memories: each byte is written alike in both or left alone in both. -/
theorem Memory.read_writeBytes_alike (s : Bytes) {m m' : Memory} (a x : Nat) (hwf : m.wf = true) (hwf' : m'.wf = true) :
    (m'.writeBytes a s).read x = (m.writeBytes a s).read x ∨
      ((m'.writeBytes a s).read x = m'.read x ∧ (m.writeBytes a s).read x = m.read x) := by
  by_cases hx : a ≤ x ∧ x < a + s.length
  · obtain ⟨h1, h2⟩ := hx
    rw [Memory.read_writeBytes_inside s hwf h1 h2, Memory.read_writeBytes_inside s hwf' h1 h2]
    exact .inl rfl
  · have hout : x < a ∨ a + s.length ≤ x := by omega
    exact .inr ⟨Memory.read_writeBytes_outside s m' a x hout, Memory.read_writeBytes_outside s m a x hout⟩

/-! #### The obligations -/

/-- Settles O20: with CRCACC alone different, the rest comes out the same, and CRCACC is what it was or CRCI's constant. -/
theorem crcaccIsReadOnlyByTheEngine : Obligations.CrcaccIsReadOnlyByTheEngine := by
  intro i s t x hi hb h
  obtain ⟨t', ht', halike⟩ := exec_withHidden (c := s.crc) (x := x) (m := s.mem) (fun _ => rfl)
    (fun h => (h.elim hi fun ⟨b, h⟩ => hb b h).elim) (fun _ _ _ => rfl) h
  have hacc : t'.crcacc = if i = .crci then 0xFFFFFFFF#32 else x := by
    split
    · next hcrci =>
      subst hcrci
      rw [execCrci_cases ht']
      rfl
    · next hcrci =>
      have hkept := regsKept_of_exec ht' .crcacc (by cases i <;> simp [writtenBy] at hi hb hcrci ⊢)
      exact hkept
  rw [← hacc]
  refine ht'.trans (congrArg _ (halike.rest.trans ?_))
  rw [halike.crc_eq rfl, halike.mem_eq rfl]
  rfl

/-- Settles O21: with CRC alone different, the rest comes out the same, and CRC is kept or written alike. -/
theorem crcRegisterIsReadOnlyByCrcv : Obligations.CrcRegisterIsReadOnlyByCrcv := by
  intro i s t x hi h
  obtain ⟨t', ht', halike⟩ := exec_withHidden (c := x) (x := s.crcacc) (m := s.mem) (fun h => absurd h hi)
    (fun _ => rfl) (fun _ _ _ => rfl) h
  refine ⟨t'.crc, ht'.trans (congrArg _ (halike.rest.trans ?_)), halike.crc.imp_left And.right⟩
  rw [halike.crcacc_eq rfl, halike.mem_eq rfl]
  rfl

/-- Settles O22: with MEM alone different and the bytes that R44 names the same, the registers come out the same, and the
bytes written are written alike. -/
theorem commandsReadOnlyTheirInputRegion : Obligations.CommandsReadOnlyTheirInputRegion := by
  intro i s t m hread h
  obtain ⟨t', ht', halike⟩ := exec_withHidden (c := s.crc) (x := s.crcacc) (m := m) (fun _ => rfl) (fun _ => rfl) hread h
  obtain ⟨a, bs, hmem, hmem'⟩ := halike.mem
  refine ⟨t'.mem, ht'.trans (congrArg _ (halike.rest.trans ?_)), fun hwf hwf' x => ?_⟩
  · rw [halike.crc_eq rfl, halike.crcacc_eq rfl]
    rfl
  · rw [hmem, hmem']
    exact Memory.read_writeBytes_alike bs a x hwf hwf'

end Sys2Proof.Machine

/-! ### Proofs of the family other: decoding and serializing whole streams -/

namespace Sys2Proof.Machine

/-! #### The loop of DecodePng, turn by turn -/

/-- What the loop of DecodePng makes of the bytes that are left: nothing of none, one chunk when it is the terminal one,
and otherwise a chunk in front of what the rest gives (R161). -/
inductive DecodesTo : Bytes → List Chunk → Prop
  | done : DecodesTo [] []
  | last {R : Bytes} {ch : Decoded} (hd : decodeChunk R = .ok ch) (ht : ch.t = iend) : DecodesTo R [⟨ch.t, ch.d⟩]
  | more {R : Bytes} {ch : Decoded} {M : List Chunk} (hd : decodeChunk R = .ok ch) (ht : ch.t ≠ iend)
      (hM : DecodesTo (R.drop (12 + ch.n.toNat)) M) : DecodesTo R (⟨ch.t, ch.d⟩ :: M)

section

variable {B R : Bytes} {L L' M : List Chunk}

theorem decodesTo_of_decodeFrom_ok {cur : Nat} (hcur : cur ≤ B.length) (h : decodeFrom B cur L = .ok L') :
    ∃ M, L' = L ++ M ∧ DecodesTo (B.drop cur) M := by
  induction hleft : B.length - cur using Nat.strong_induction_on generalizing cur L with
  | _ left ih =>
    obtain rfl | hlt := hcur.eq_or_lt
    · rw [decodeFrom_length] at h
      cases h
      exact ⟨[], by simp, by rw [List.drop_length]; exact .done⟩
    · cases hd : decodeChunk (B.drop cur) with
      | error kind =>
        rw [decodeFrom_of_decodeChunk_error hlt hd] at h
        cases h
      | ok ch =>
        have hframe := length_of_decodeChunk_drop hd
        by_cases ht : ch.t = iend
        · rw [decodeFrom_of_iend hlt hd ht] at h
          cases h
          exact ⟨_, rfl, .last hd ht⟩
        · rw [decodeFrom_of_ne_iend hlt hd ht] at h
          obtain ⟨M, rfl, hM⟩ := ih _ (by omega) hframe h rfl
          refine ⟨⟨ch.t, ch.d⟩ :: M, by simp, .more hd ht ?_⟩
          rwa [List.drop_drop, ← Nat.add_assoc]

theorem decodesTo_of_decodePng_ok (h : decodePng B = .ok L) : B.take 8 = sig ∧ DecodesTo (B.drop 8) L := by
  by_cases hsig : B.length < 8 ∨ B.take 8 ≠ sig
  · rw [decodePng_of_bad_signature hsig] at h
    cases h
  · rw [not_or, not_lt, not_not] at hsig
    obtain ⟨hlen, hsig⟩ := hsig
    rw [decodePng_of_signature hlen hsig] at h
    obtain ⟨M, rfl, hM⟩ := decodesTo_of_decodeFrom_ok hlen h
    exact ⟨hsig, hM⟩

theorem DecodesTo.isValid (h : DecodesTo R M) : ∀ c ∈ M, isValid c.type = true := by
  induction h with
  | done => simp
  | last hd ht => simpa [ht] using (by decide : Machine.isValid iend = true)
  | more hd ht hM ih =>
    obtain ⟨-, -, -, hvalid, -⟩ := decodeChunk_ok hd
    exact List.forall_mem_cons.mpr ⟨hvalid, ih⟩

theorem DecodesTo.ne_iend_of_mem_dropLast (h : DecodesTo R M) : ∀ c ∈ M.dropLast, c.type ≠ iend := by
  induction h with
  | done => simp
  | last hd ht => simp
  | @more R ch M hd ht hM ih =>
    cases M with
    | nil => simp
    | cons x M => exact List.forall_mem_cons.mpr ⟨ht, ih⟩

/-- The frames of the chunks stand one after the other, and bytes are left over only after the terminal one. -/
theorem DecodesTo.eq_frames_append (h : DecodesTo R M) :
    ∃ u, R = M.flatMap Chunk.frame ++ u ∧ (u = [] ∨ ∃ c, M.getLast? = some c ∧ c.type = iend) := by
  induction h with
  | done => exact ⟨[], rfl, .inl rfl⟩
  | @last R ch hd ht =>
    refine ⟨R.drop (12 + ch.n.toNat), ?_, .inr ⟨_, rfl, ht⟩⟩
    simp only [List.flatMap_singleton, Chunk.frame, serialize_of_decodeChunk_ok hd, List.take_append_drop]
  | @more R ch M hd ht hM ih =>
    obtain ⟨u, hu, hlast⟩ := ih
    refine ⟨u, ?_, hlast.imp_right ?_⟩
    · rw [List.flatMap_cons, List.append_assoc, ← hu, Chunk.frame, serialize_of_decodeChunk_ok hd,
        List.take_append_drop]
    · rintro ⟨c, hc, ht'⟩
      exact ⟨c, by simp [List.getLast?_cons, hc], ht'⟩

/-! #### Decoding what SerializePng wrote -/

theorem length_serializePng (L : List Chunk) : (serializePng L).length = 8 + (L.flatMap Chunk.frame).length :=
  List.length_append

theorem serializePng_append (p q : List Chunk) : serializePng (p ++ q) = serializePng p ++ q.flatMap Chunk.frame := by
  simp [serializePng]

/-- The loop runs over the frames of chunks that are valid and not terminal. -/
theorem decodeFrom_of_drop_eq_frames {p : List Chunk} (hp : ∀ x ∈ p, isValid x.type = true ∧ x.type ≠ iend)
    (hlen : ∀ x ∈ p, x.data.length < 2 ^ 32) {cur : Nat} (hdrop : B.drop cur = p.flatMap Chunk.frame ++ R) :
    decodeFrom B cur L = decodeFrom B (cur + (p.flatMap Chunk.frame).length) (L ++ p) := by
  induction p generalizing cur L with
  | nil => simp
  | cons c p ih =>
    obtain ⟨⟨hvalid, ht⟩, hp⟩ := List.forall_mem_cons.mp hp
    obtain ⟨hc, hlen⟩ := List.forall_mem_cons.mp hlen
    rw [List.flatMap_cons, List.append_assoc] at hdrop
    have hd := decodeChunk_serialize_append hvalid hc (p.flatMap Chunk.frame ++ R)
    rw [← Chunk.frame, ← hdrop] at hd
    have hframe : c.frame.length = 12 + c.data.length := length_serialize c.type c.data
    have hcur : cur < B.length := by
      have := congrArg List.length hdrop
      simp only [List.length_drop, List.length_append] at this
      omega
    have hnext : cur + 12 + (BitVec.ofNat 32 c.data.length).toNat = cur + c.frame.length := by
      rw [BitVec.toNat_ofNat, Nat.mod_eq_of_lt hc, hframe, Nat.add_assoc]
    have hdrop' : B.drop (cur + c.frame.length) = p.flatMap Chunk.frame ++ R := by
      rw [← List.drop_drop, hdrop, List.drop_left]
    rw [decodeFrom_of_ne_iend hcur hd ht, hnext, ih hp hlen hdrop', List.flatMap_cons, List.length_append,
      Nat.add_assoc, List.append_assoc]
    rfl

/-- DecodePng on a serialized list gets past its valid chunks that are not terminal. -/
theorem decodePng_serializePng_append {p q : List Chunk} (hp : ∀ x ∈ p, isValid x.type = true ∧ x.type ≠ iend)
    (hlen : ∀ x ∈ p, x.data.length < 2 ^ 32) :
    decodePng (serializePng (p ++ q)) = decodeFrom (serializePng (p ++ q)) (serializePng p).length p := by
  have hsig : (serializePng (p ++ q)).take 8 = sig := rfl
  have h8 : 8 ≤ (serializePng (p ++ q)).length := by simp [length_serializePng]
  have hdrop : (serializePng (p ++ q)).drop 8 = p.flatMap Chunk.frame ++ q.flatMap Chunk.frame :=
    List.flatMap_append
  rw [decodePng_of_signature h8 hsig, decodeFrom_of_drop_eq_frames hp hlen hdrop, List.nil_append,
    length_serializePng]

theorem drop_serializePng_append (p q : List Chunk) :
    (serializePng (p ++ q)).drop (serializePng p).length = q.flatMap Chunk.frame := by
  rw [serializePng_append, List.drop_left]

theorem decodePng_serializePng_of_ne_iend (hL : ∀ x ∈ L, isValid x.type = true ∧ x.type ≠ iend)
    (hlen : ∀ x ∈ L, x.data.length < 2 ^ 32) : decodePng (serializePng L) = .ok L := by
  have h := decodePng_serializePng_append (q := []) hL hlen
  rw [List.append_nil] at h
  rw [h, decodeFrom_length]

theorem length_serializePng_lt (p q : List Chunk) (c : Chunk) :
    (serializePng p).length < (serializePng (p ++ c :: q)).length := by
  rw [serializePng_append, List.length_append, List.flatMap_cons, List.length_append, Chunk.frame, length_serialize]
  omega

section

variable {p q : List Chunk} {c : Chunk} (hp : ∀ x ∈ p, isValid x.type = true ∧ x.type ≠ iend)
  (hlen : ∀ x ∈ p ++ c :: q, x.data.length < 2 ^ 32)

include hp hlen

theorem decodePng_serializePng_of_iend (ht : c.type = iend) :
    decodePng (serializePng (p ++ c :: q)) = .ok (p ++ [c]) := by
  obtain ⟨hp', hlen'⟩ := List.forall_mem_append.mp hlen
  obtain ⟨hc, -⟩ := List.forall_mem_cons.mp hlen'
  have hvalid : isValid c.type = true := ht ▸ (by decide : isValid iend = true)
  have hd := decodeChunk_serialize_append hvalid hc (q.flatMap Chunk.frame)
  rw [← Chunk.frame, ← List.flatMap_cons, ← drop_serializePng_append p (c :: q)] at hd
  rw [decodePng_serializePng_append hp hp', decodeFrom_of_iend (length_serializePng_lt p q c) hd ht]

theorem decodePng_serializePng_of_invalid (hc : isValid c.type = false) :
    decodePng (serializePng (p ++ c :: q)) = .error (.invalidChunkType, (serializePng p).length) := by
  obtain ⟨hp', -⟩ := List.forall_mem_append.mp hlen
  have hd := decodeChunk_serialize_append_of_invalid hc c.data (q.flatMap Chunk.frame)
  rw [← Chunk.frame, ← List.flatMap_cons, ← drop_serializePng_append p (c :: q)] at hd
  rw [decodePng_serializePng_append hp hp', decodeFrom_of_decodeChunk_error (length_serializePng_lt p q c) hd]

end

/-- A list whose only terminal chunk, if any, is its last decodes to itself. -/
theorem decodePng_serializePng (hL : ∀ c ∈ L, isValid c.type = true ∧ c.data.length < 2 ^ 32)
    (hinit : ∀ c ∈ L.dropLast, c.type ≠ iend) : decodePng (serializePng L) = .ok L := by
  have hvalid : ∀ c ∈ L, isValid c.type = true := fun c hc => (hL c hc).1
  have hlen : ∀ c ∈ L, c.data.length < 2 ^ 32 := fun c hc => (hL c hc).2
  obtain rfl | ⟨p, c, rfl⟩ := L.eq_nil_or_concat'
  · exact decodePng_serializePng_of_ne_iend (by simp) (by simp)
  · rw [List.dropLast_concat] at hinit
    have hp : ∀ x ∈ p, isValid x.type = true ∧ x.type ≠ iend := fun x hx => ⟨hvalid x (by simp [hx]), hinit x hx⟩
    by_cases ht : c.type = iend
    · exact decodePng_serializePng_of_iend hp hlen ht
    · refine decodePng_serializePng_of_ne_iend (List.forall_mem_append.mpr ⟨hp, ?_⟩) hlen
      exact List.forall_mem_singleton.mpr ⟨hvalid c (by simp), ht⟩

end

/-! #### The obligations on lists -/

/-- Settles O55, by the turns of the loop. -/
theorem decodedListsAreValidAndEndAtIend : Obligations.DecodedListsAreValidAndEndAtIend := by
  intro B L h
  obtain ⟨-, hdec⟩ := decodesTo_of_decodePng_ok h
  exact ⟨hdec.isValid, hdec.ne_iend_of_mem_dropLast⟩

/-- Settles O58: a decoded stream is its frames; a serialized one is decoded frame by frame. -/
theorem streamsRoundTrip : Obligations.StreamsRoundTrip := by
  refine ⟨fun B L h => ?_, fun L => decodePng_serializePng, fun p q c hp hlen => decodePng_serializePng_of_iend hp hlen,
    fun p q c hp hlen => decodePng_serializePng_of_invalid hp hlen⟩
  obtain ⟨hsig, hdec⟩ := decodesTo_of_decodePng_ok h
  obtain ⟨u, hu, hlast⟩ := hdec.eq_frames_append
  refine ⟨u, ?_, hlast⟩
  rw [serializePng, List.append_assoc, ← hu, ← hsig, List.take_append_drop]

end Sys2Proof.Machine

/-! ### Proofs of the family other: the two host sequences -/

namespace Sys2Proof.Machine

/-! #### The decode sequence -/

/-- DecodePng's result as the host of R144 reports it. -/
def streamResultOf : Except (ErrorKind × Nat) (List Chunk) → StreamResult
  | .ok L => .chunks L
  | .error (k, pos) => .failed (errorCode k) (BitVec.ofNat 32 pos)

section

variable {s t : State} {k : Nat} {L : List Chunk}

/-! One turn of the host's loop, by how SNEXT ends. -/

theorem collectChunks_of_error (h : exec .snext s = .next t) (herr : Status.err t.status ≠ 0#4) :
    collectChunks (k + 1) L s = .failed (Status.err t.status) t.errpos := by
  rw [collectChunks, perform_asmCmd, h]
  exact if_pos herr

theorem collectChunks_of_done (h : exec .snext s = .next t) (herr : Status.err t.status = 0#4)
    (hss : Status.ss t.status = streamCode .done) :
    collectChunks (k + 1) L s = .chunks (if Status.cv t.status then L ++ [t.delivered] else L) := by
  rw [collectChunks, perform_asmCmd, h]
  exact (if_neg (not_not_intro herr)).trans (if_pos hss)

theorem collectChunks_of_not_done (h : exec .snext s = .next t) (herr : Status.err t.status = 0#4)
    (hss : Status.ss t.status ≠ streamCode .done) :
    collectChunks (k + 1) L s = collectChunks k (if Status.cv t.status then L ++ [t.delivered] else L) t := by
  rw [collectChunks, perform_asmCmd, h]
  exact (if_neg (not_not_intro herr)).trans (if_neg hss)

theorem errorCode_ne_zero (k : ErrorKind) : errorCode k ≠ 0#4 := by
  cases k <;> decide

/-- The chunk a host reads from the result registers is the one decoded. -/
theorem State.Delivers.delivered_eq {frame count : Nat} {ch : Decoded} (h : s.Delivers t frame ch)
    (hd : decodeChunk (s.mem.readBytes frame count) = .ok ch) : t.delivered = ⟨ch.t, ch.d⟩ := by
  obtain ⟨-, -, hpayload, -⟩ := decodeChunk_readBytes_ok hd
  rw [State.delivered, h.type, h.mem, h.dptr, h.len, typeBytes_toWord, hpayload]

/-- What SNEXT decodes is what the loop of DecodePng decodes at the cursor. -/
theorem State.drop_cur_buffer (h : s.cur.toNat ≤ s.avail.toNat) : s.buffer.drop s.cur.toNat = s.rest :=
  Memory.drop_readBytes s.mem _ _ _ h

/-- The host's loop from a state of the stream gives what the loop of DecodePng gives from the cursor. -/
theorem collectChunks_eq (hsize : s.memBytes ≤ 2 ^ 32) (hbuf : s.bufferInside = true)
    (hss : Status.ss s.status = streamCode .loop) (hcur : s.cur.toNat ≤ s.avail.toNat)
    (hk : s.avail.toNat - s.cur.toNat < k) :
    collectChunks k L s = streamResultOf (decodeFrom s.buffer s.cur.toNat L) := by
  induction k generalizing s L with
  | zero => omega
  | succ k ih =>
    have hlen := s.length_buffer
    have hrest := State.drop_cur_buffer hcur
    obtain heq | hlt := hcur.eq_or_lt
    · rw [collectChunks_of_done (exec_snext_of_exhausted hss hbuf (BitVec.eq_of_toNat_eq heq)) (by simp) (by simp), heq,
        ← hlen, decodeFrom_length]
      simp [streamResultOf]
    have hlt' : s.cur.toNat < s.buffer.length := hlen ▸ hlt
    cases hd : decodeChunk s.rest with
    | error kind =>
      rw [collectChunks_of_error (exec_snext_of_decodeChunk_error hss hbuf hlt hd) (by simp [errorCode_ne_zero]),
        decodeFrom_of_decodeChunk_error hlt' (hrest ▸ hd)]
      simp [streamResultOf]
    | ok ch =>
      have hexec : exec .snext s = .next (s.advance ch).succeed := exec_snext_of_decodeChunk_ok hss hbuf hlt hd
      have hchunk := (State.delivers_snext hsize hbuf hlt hd).delivered_eq hd
      have hframe := State.cur_add_frame_le_avail hlt hd
      have herr : Status.err (s.advance ch).succeed.status = 0#4 := by simp
      have hcv : Status.cv (s.advance ch).succeed.status = true := by simp
      have hss' : Status.ss (s.advance ch).succeed.status = streamCode (streamAfter ch.t) := by simp
      by_cases ht : ch.t = iend
      · rw [collectChunks_of_done hexec herr (by rw [hss', streamAfter, if_pos ht]), hcv, hchunk,
          decodeFrom_of_iend hlt' (hrest ▸ hd) ht]
        rfl
      · have hcur' : (s.advance ch).succeed.cur.toNat = s.cur.toNat + 12 + ch.n.toNat := State.toNat_cur_add_frame hframe
        rw [streamAfter, if_neg ht] at hss'
        rw [collectChunks_of_not_done hexec herr (by rw [hss']; decide), hcv, hchunk,
          decodeFrom_of_ne_iend hlt' (hrest ▸ hd) ht, ← hcur']
        have havail : (s.advance ch).succeed.avail = s.avail := rfl
        exact ih hsize hbuf hss' (hcur'.trans_le hframe) (by rw [havail, hcur']; omega)

theorem decodePng_buffer_of_signatureAhead (h : s.signatureAhead = true) :
    decodePng s.buffer = decodeFrom s.buffer 8 [] := by
  obtain ⟨havail, hsig⟩ := s.signatureAhead_iff.mp h
  apply decodePng_of_signature
  · rwa [s.length_buffer]
  · rwa [State.buffer, Memory.take_readBytes _ _ _ _ havail]

theorem decodePng_buffer_of_signatureAhead_false (h : s.signatureAhead = false) :
    decodePng s.buffer = .error (.badSignature, 0) := by
  apply decodePng_of_bad_signature
  rw [s.length_buffer]
  by_cases havail : s.avail.toNat < 8
  · exact .inl havail
  · refine .inr ?_
    rw [State.buffer, Memory.take_readBytes _ _ _ _ (not_lt.mp havail)]
    exact (s.signatureAhead_false.mp h).resolve_left havail

/-- SOPEN checks what DecodePng checks first; the turns that follow are those of its loop. -/
theorem decodeSequence_eq_streamResultOf {a n : Word} (hsize : s.memBytes ≤ 2 ^ 32)
    (hbuf : (s.withBuffer a n).bufferInside = true) :
    decodeSequence a n s = streamResultOf (decodePng (s.withBuffer a n).buffer) := by
  rw [decodeSequence, performAll_asmBuf_append]
  cases hsig : (s.withBuffer a n).signatureAhead with
  | false =>
    rw [decodePng_buffer_of_signatureAhead_false hsig,
      performAll_asmCmd_singleton (exec_sopen_of_signatureAhead_false hbuf hsig)]
    simp [streamResultOf, errorCode]
  | true =>
    obtain ⟨havail, -⟩ := (State.signatureAhead_iff _).mp hsig
    rw [decodePng_buffer_of_signatureAhead hsig,
      performAll_asmCmd_singleton (exec_sopen_of_signatureAhead hbuf hsig)]
    simp only [State.readReg_status, State.succeed_status, Status.err_withErr, ne_eq, not_true_eq_false, if_false]
    exact collectChunks_eq hsize hbuf (by simp) havail
      (show n.toNat - 8 < n.toNat from Nat.sub_lt_self (by decide) havail)

end

/-! #### The encode sequence -/

theorem Memory.writeBytes_append (m : Memory) (s u : Bytes) (a : Nat) :
    m.writeBytes a (s ++ u) = (m.writeBytes a s).writeBytes (a + s.length) u := by
  induction s generalizing m a with
  | nil => rfl
  | cons b s ih =>
    rw [List.cons_append, Memory.writeBytes, Memory.writeBytes, ih, List.length_cons, Nat.add_right_comm, Nat.add_assoc]

/-- The bytes R145 writes for a list, behind the signature. -/
def framesLength (L : List PlacedChunk) : Nat := (L.map (fun c => 12 + c.len.toNat)).sum

/-- The chunks of R145's list have their data inside MEM and apart from the bytes from lo up to hi. -/
def PlacedApart (size lo hi : Nat) (L : List PlacedChunk) : Prop :=
  ∀ c ∈ L, c.addr.toNat + c.len.toNat ≤ size ∧
    (c.len.toNat = 0 ∨ c.addr.toNat + c.len.toNat ≤ lo ∨ hi ≤ c.addr.toNat)

section

variable {s : State} {c : PlacedChunk} {L : List PlacedChunk}

theorem length_frame_value (m : Memory) (c : PlacedChunk) :
    (PlacedChunk.value m c).frame.length = 12 + c.len.toNat := by
  rw [Chunk.frame, length_serialize, PlacedChunk.value, Memory.length_readBytes]

theorem length_flatMap_frame_value (m : Memory) (L : List PlacedChunk) :
    ((L.map (PlacedChunk.value m)).flatMap Chunk.frame).length = framesLength L := by
  simp [List.length_flatMap, Function.comp_def, length_frame_value, framesLength]

/-- A write between lo and hi leaves the chunks of the list what they are. -/
theorem map_value_writeBytes {size lo hi a : Nat} (h : PlacedApart size lo hi L) (m : Memory) (bs : Bytes) (hlo : lo ≤ a)
    (hhi : a + bs.length ≤ hi) :
    L.map (PlacedChunk.value (m.writeBytes a bs)) = L.map (PlacedChunk.value m) := by
  refine List.map_congr_left fun c hc => ?_
  obtain ⟨-, hapart⟩ := h c hc
  rw [PlacedChunk.value, Memory.readBytes_writeBytes_outside bs m a _ _ (by omega), PlacedChunk.value]

/-- The state with a chunk of R145's list as the operand of CENC: its type in TYPE, its payload at SRC and LEN. -/
def State.withChunk (s : State) (c : PlacedChunk) : State :=
  { s with type := c.type.toWord, src := c.addr, len := c.len }

/-- The lines of one chunk put its frame at DST and move DST past it. -/
theorem performAll_encodeLines (hpayload : c.addr.toNat + c.len.toNat ≤ s.memBytes)
    (hframe : s.dst.toNat + 12 + c.len.toNat ≤ s.memBytes)
    (hapart : c.len.toNat = 0 ∨ s.dst.toNat + 12 + c.len.toNat ≤ c.addr.toNat ∨ c.addr.toNat + c.len.toNat ≤ s.dst.toNat) :
    performAll (encodeLines c) s = .next (s.withChunk c).storeFrame.succeed := by
  have hwr : performAll (asmWrt c.type ++ asmPayload c.addr c.len) s = .next (s.withChunk c) := rfl
  refine (performAll_append_of_next hwr).trans (performAll_asmCmd_singleton ?_)
  exact exec_cenc_of_apart ((State.payloadInside_iff _).mpr hpayload) ((State.frameInside_iff _).mpr hframe)
    ((State.overlapping_false _).mpr hapart)

theorem mem_storeFrame_withChunk (s : State) (c : PlacedChunk) :
    (s.withChunk c).storeFrame.mem = s.mem.writeBytes s.dst.toNat (PlacedChunk.value s.mem c).frame := by
  change s.mem.writeBytes s.dst.toNat (serialize (typeBytes c.type.toWord) _) = _
  rw [typeBytes_toWord]
  rfl

/-- The lines of a list put the frames one after the other, from DST on. -/
theorem performAll_flatMap_encodeLines {lo hi p : Nat} (hsize : s.memBytes ≤ 2 ^ 32) (hL : PlacedApart s.memBytes lo hi L)
    (hdst : s.dst = BitVec.ofNat 32 p) (hlo : lo ≤ p) (hhi : p + framesLength L ≤ hi) (hin : hi ≤ s.memBytes) :
    ∃ t, performAll (L.flatMap encodeLines) s = .next t ∧
      t.mem = s.mem.writeBytes p ((L.map (PlacedChunk.value s.mem)).flatMap Chunk.frame) ∧
      t.dst = BitVec.ofNat 32 (p + framesLength L) ∧ Status.hwf t.status = Status.hwf s.status := by
  induction L generalizing s p with
  | nil => exact ⟨s, rfl, rfl, hdst, rfl⟩
  | cons c L ih =>
    obtain ⟨⟨hpayload, hapart⟩, hL⟩ := List.forall_mem_cons.mp hL
    have hlen : framesLength (c :: L) = 12 + c.len.toNat + framesLength L := rfl
    have hp : s.dst.toNat = p := by rw [hdst, BitVec.toNat_ofNat, Nat.mod_eq_of_lt (by omega)]
    have hlines := performAll_encodeLines (s := s) hpayload (by omega) (by omega)
    have hmem := mem_storeFrame_withChunk s c
    have hdst' : (s.withChunk c).storeFrame.succeed.dst = BitVec.ofNat 32 (p + (12 + c.len.toNat)) := by
      rw [← Nat.add_assoc, BitVec.ofNat_add, BitVec.ofNat_add, BitVec.ofNat_toNat, BitVec.setWidth_eq, ← hdst]
      rfl
    have hflen := length_frame_value s.mem c
    rw [hp] at hmem
    obtain ⟨t, ht, htmem, htdst, hthwf⟩ := ih (s := (s.withChunk c).storeFrame.succeed) hsize hL hdst' (by omega)
      (by omega) hin
    refine ⟨t, (performAll_append_of_next hlines).trans ht, ?_, by rw [htdst, hlen, Nat.add_assoc],
      hthwf.trans (by simp [State.withChunk])⟩
    rw [htmem, State.succeed_mem, hmem, map_value_writeBytes hL s.mem _ hlo (by omega), List.map_cons, List.flatMap_cons,
      Memory.writeBytes_append, hflen]

end

/-! #### The obligations on the sequences -/

/-- Settles O52: with the region inside MEM the host reports what DecodePng returns for its bytes. -/
theorem decodeSequenceEqualsDecodePng : Obligations.DecodeSequenceEqualsDecodePng := by
  intro s a n hsize hin
  rw [decodeSequence_eq_streamResultOf hsize ((State.bufferInside_iff _).mpr hin)]
  change streamResultOf (decodePng (s.mem.readBytes a.toNat n.toNat)) = _
  rcases decodePng (s.mem.readBytes a.toNat n.toNat) with ⟨k, pos⟩ | L <;> rfl

/-- Settles O53: the signature, then the frames; what is written leaves the payloads still to come alone. -/
theorem encodeSequenceWritesSerializePng : Obligations.EncodeSequenceWritesSerializePng := by
  intro s a L total hwf hsize htotal hin hL
  have htotal' : total = 8 + framesLength L := htotal
  have hsigw : exec .sigw (s.writeReg .dst a) = .next (s.writeReg .dst a).storeSignature.succeed :=
    exec_sigw_of_sigInside ((State.sigInside_iff _).mpr (show a.toNat + 8 ≤ s.memBytes by omega))
  have hdst : (s.writeReg .dst a).storeSignature.succeed.dst = BitVec.ofNat 32 (a.toNat + 8) := by
    rw [BitVec.ofNat_add, BitVec.ofNat_toNat, BitVec.setWidth_eq]
    rfl
  obtain ⟨t, ht, htmem, htdst, hthwf⟩ := performAll_flatMap_encodeLines
    (s := (s.writeReg .dst a).storeSignature.succeed) hsize hL hdst (Nat.le_add_right ..)
    (show a.toNat + 8 + framesLength L ≤ a.toNat + total by omega) hin
  have hmem : t.mem = s.mem.writeBytes a.toNat (serializePng (L.map (PlacedChunk.value s.mem))) := by
    rw [htmem, serializePng, Memory.writeBytes_append,
      ← map_value_writeBytes hL s.mem sig le_rfl (show a.toNat + 8 ≤ a.toNat + total by omega)]
    rfl
  have hlen : (serializePng (L.map (PlacedChunk.value s.mem))).length = total := by
    rw [length_serializePng, length_flatMap_frame_value, htotal']
  refine ⟨t, ?_, ?_, fun x hx => ?_, ?_, ?_⟩
  · exact (performAll_cons_of_next (perform_asmWr a s (by decide))).trans
      ((performAll_cons_of_next ((perform_asmCmd .sigw _).trans hsigw)).trans ht)
  · rw [hmem, ← hlen]
    exact Memory.readBytes_writeBytes_same _ _ hwf
  · rw [hmem]
    exact Memory.read_writeBytes_outside _ _ _ x (by rwa [hlen])
  · rw [htdst, BitVec.toNat_ofNat, htotal', Nat.add_assoc]
  · rw [hthwf]
    simp

end Sys2Proof.Machine
